-- ==== Sys2Proof/Word.lean ====
section
/-! DEFINITION. The word types of the device: 64-bit registers (R7), bytes of the byte RAMs (R41, R46, R47),
32-bit words of SHA-256 and of the u32 operands (R9, R113), 32-bit bus addresses (R60). -/

namespace Sys2Proof

/-- A register or a word-RAM entry, 64 bits (R7). Arithmetic on it wraps modulo 2^64 (R9). -/
abbrev Word := BitVec 64

/-- A cell of SEED_BUF, FRAG or OUT (R41, R46, R47). -/
abbrev Byte := BitVec 8

/-- A 32-bit value: seqNum, checksum (R7) and the words SHA-256 works on (R113). -/
abbrev Word32 := BitVec 32

/-- A byte address of the host bus space (R60). -/
abbrev Addr := BitVec 32

end Sys2Proof
end

