-- ==== Sys2Proof/Config.lean ====
section
/-! DEFINITION. What an implementation fixes: the four size parameters of R6, which the spec leaves open and asks a
model to take as an argument. The machine carries them in its state (`State.params`), where no step changes them. -/

namespace Sys2Proof

/-- The size parameters of R6, readable in PARAMS0 and PARAMS1 (R22, R23). -/
structure Params where
  /-- N_MAX: largest seqLen, entries of WEIGHT, PROB, ALIAS, bits of IDX -/
  nMax : Nat
  /-- FLEN_MAX: largest fragment length, bytes of OUT, largest NEXT_BYTES count -/
  flenMax : Nat
  /-- FRAG_BYTES: bytes of FRAG -/
  fragBytes : Nat
  /-- SEED_MAX: bytes of SEED_BUF -/
  seedMax : Nat
  deriving DecidableEq, Repr

/-- The legal ranges of R6. -/
abbrev Params.Legal (p : Params) : Prop :=
  (1 ≤ p.nMax ∧ p.nMax ≤ 2 ^ 21) ∧ (1 ≤ p.flenMax ∧ p.flenMax ≤ 2 ^ 24) ∧
  (p.flenMax ≤ p.fragBytes ∧ p.fragBytes ≤ 2 ^ 24) ∧ (32 ≤ p.seedMax ∧ p.seedMax ≤ 2 ^ 24)

/-- The parameters of `State.reset`. DESIGN CHOICE (log 1), unsafe only for claims about `State.reset` itself: R6
leaves them open. N_MAX and FLEN_MAX are those of the spec's own worked read of PARAMS0 (95_test_vectors.md 3.5). -/
def Config.params : Params :=
  { nMax := 1024, flenMax := 4096, fragBytes := 65536, seedMax := 1024 }

end Sys2Proof
end

