-- ==== Sys2Proof/Syntax.lean ====
section
/-! DEFINITION. The instruction set: one constructor per row of the opcode map (R94). A command has no operand
field (R93), so no constructor carries an argument. -/

namespace Sys2Proof

/-- The 18 commands of R94, in the table's order. Every operand is implicit: a register, a RAM or IDX (R93). -/
inductive Instr where
  /-- 0x00 NOP, R220 -/
  | nop
  /-- 0x01 PRNG_SEED_WORDS, R125 -/
  | prngSeedWords
  /-- 0x02 PRNG_SEED_BYTES32, R126 -/
  | prngSeedBytes32
  /-- 0x03 PRNG_SEED_HASH, R127 -/
  | prngSeedHash
  /-- 0x04 PRNG_SEED_U32, R128 -/
  | prngSeedU32
  /-- 0x08 PRNG_NEXT, R129 -/
  | prngNext
  /-- 0x09 PRNG_NEXT_DOUBLE, R130 -/
  | prngNextDouble
  /-- 0x0A PRNG_NEXT_INT, R131 -/
  | prngNextInt
  /-- 0x0B PRNG_NEXT_BYTE, R132 -/
  | prngNextByte
  /-- 0x0C PRNG_NEXT_BYTES, R133 -/
  | prngNextBytes
  /-- 0x0D PRNG_JUMP, R134 -/
  | prngJump
  /-- 0x0E PRNG_LONG_JUMP, R135 -/
  | prngLongJump
  /-- 0x10 ALIAS_BUILD, R156 -/
  | aliasBuild
  /-- 0x11 ALIAS_SAMPLE, R157 -/
  | aliasSample
  /-- 0x12 ALIAS_SAMPLE_RNG, R158 -/
  | aliasSampleRng
  /-- 0x18 SELECT, R186 -/
  | select
  /-- 0x20 MIX, R205 -/
  | mix
  /-- 0x21 PART, R206 -/
  | part
  deriving DecidableEq, Repr

/-- Every command, in the opcode map's order (R94). -/
def Instr.all : List Instr :=
  [.nop, .prngSeedWords, .prngSeedBytes32, .prngSeedHash, .prngSeedU32, .prngNext, .prngNextDouble,
   .prngNextInt, .prngNextByte, .prngNextBytes, .prngJump, .prngLongJump, .aliasBuild, .aliasSample,
   .aliasSampleRng, .select, .mix, .part]

end Sys2Proof
end

