-- ==== Sys2Proof/WellFormed.lean ====
section
/-! DEFINITION. Well-formedness. A command carries no operand field (R93), so every `Instr` is well formed; what can
be ill formed is the 64-bit command word the host writes (R90, R94, R95). -/

namespace Sys2Proof

/-- Every term of `Instr` is a command of R94: there is no field to check (R93). -/
def Instr.WellFormed (_ : Instr) : Bool := true

/-- The RSV check of R90: bits [63:8] of a command word are zero. -/
def CommandWord.rsvZero (c : Word) : Bool := c.extractLsb' 8 56 == 0#56

/-- The OPC values R95 calls reserved: 0x05 to 0x07, 0x0F, 0x13 to 0x17, 0x19 to 0x1F, 0x22 to 0xFF, to which the map
of R94 adds that no other value is left: R95 lists neither a command nor a reserved value twice. -/
def CommandWord.opcReserved (opc : Byte) : Bool :=
  (0x05#8 ≤ opc && opc ≤ 0x07#8) || opc == 0x0F#8 || (0x13#8 ≤ opc && opc ≤ 0x17#8) ||
  (0x19#8 ≤ opc && opc ≤ 0x1F#8) || 0x22#8 ≤ opc

/-- A well-formed command word: RSV zero and OPC not reserved (R91, R95). -/
def CommandWord.WellFormed (c : Word) : Bool :=
  CommandWord.rsvZero c && !CommandWord.opcReserved (c.setWidth 8)

end Sys2Proof
end

