-- ==== Sys2Proof/Decode.lean ====
section
/-! DEFINITION. Decoding of a 64-bit command word (R90, R91) and the encoder, from the opcode map of R94. -/

namespace Sys2Proof

/-- Why a command word is no command (R91). Both reasons raise E_ILLEGAL (R231). -/
inductive DecodeError where
  /-- a bit of RSV, [63:8], is set (R90) -/
  | reservedBits
  /-- OPC is not in the table of R94 (R95) -/
  | reservedOpcode
  deriving DecidableEq, Repr

/-- A row of the opcode map: the OPC value and the command it selects (R94). -/
structure OpcodeRow where
  opc : Byte
  instr : Instr
  deriving DecidableEq, Repr

/-- The opcode map of R94, row by row. -/
def opcodeMap : List OpcodeRow :=
  [⟨0x00#8, .nop⟩, ⟨0x01#8, .prngSeedWords⟩, ⟨0x02#8, .prngSeedBytes32⟩, ⟨0x03#8, .prngSeedHash⟩,
   ⟨0x04#8, .prngSeedU32⟩, ⟨0x08#8, .prngNext⟩, ⟨0x09#8, .prngNextDouble⟩, ⟨0x0A#8, .prngNextInt⟩,
   ⟨0x0B#8, .prngNextByte⟩, ⟨0x0C#8, .prngNextBytes⟩, ⟨0x0D#8, .prngJump⟩, ⟨0x0E#8, .prngLongJump⟩,
   ⟨0x10#8, .aliasBuild⟩, ⟨0x11#8, .aliasSample⟩, ⟨0x12#8, .aliasSampleRng⟩, ⟨0x18#8, .select⟩,
   ⟨0x20#8, .mix⟩, ⟨0x21#8, .part⟩]

/-- The OPC field of a command word, bits [7:0] (R90). -/
def opcField (c : Word) : Byte := c.setWidth 8

/-- The RSV field of a command word, bits [63:8] (R90). -/
def rsvField (c : Word) : BitVec 56 := c.extractLsb' 8 56

/-- Decoding at the device step (R91): total on every 64-bit word, refusing by name. -/
def decode (c : Word) : Except DecodeError Instr :=
  if rsvField c ≠ 0#56 then .error .reservedBits
  else match opcodeMap.find? (fun r => r.opc == opcField c) with
    | some r => .ok r.instr
    | none => .error .reservedOpcode

/-- The OPC of a command (R94). -/
def opcodeOf : Instr → Byte
  | .nop => 0x00#8
  | .prngSeedWords => 0x01#8
  | .prngSeedBytes32 => 0x02#8
  | .prngSeedHash => 0x03#8
  | .prngSeedU32 => 0x04#8
  | .prngNext => 0x08#8
  | .prngNextDouble => 0x09#8
  | .prngNextInt => 0x0A#8
  | .prngNextByte => 0x0B#8
  | .prngNextBytes => 0x0C#8
  | .prngJump => 0x0D#8
  | .prngLongJump => 0x0E#8
  | .aliasBuild => 0x10#8
  | .aliasSample => 0x11#8
  | .aliasSampleRng => 0x12#8
  | .select => 0x18#8
  | .mix => 0x20#8
  | .part => 0x21#8

/-- The command word of a command: OPC in [7:0], RSV zero (R90, R94). -/
def encode (i : Instr) : Word := (opcodeOf i).setWidth 64

/-- The instruction the decoder reads from a row of spec/opcode_table.json: `w` numbers the bits of the one 64-bit
command word from its least significant bit (R8, R90); bits at `nbits` and above are zero. A command has no word after
the first (R90), so a value that does not fit 64 bits is no command. -/
def decodeTableWord (nbits w : Nat) : Option Instr :=
  let v := w % 2 ^ nbits
  if v < 2 ^ 64 then (decode (BitVec.ofNat 64 v)).toOption else none

end Sys2Proof
end

