-- ==== Sys2Proof/Machine/Bits.lean ====
section
/-! DEFINITION. Bit and byte-order helpers: rotations and shifts (R9), the byte strings of R11. -/

namespace Sys2Proof.Machine

/-- `shl64(a, k)` = (a · 2^k) mod 2^64 (R9). -/
def shl64 (a : Word) (k : Nat) : Word := a <<< k

/-- `shr64(a, k)` = ⌊a / 2^k⌋ (R9). -/
def shr64 (a : Word) (k : Nat) : Word := a >>> k

/-- `rotl64(a, k)` for 0 < k < 64 (R9). -/
def rotl64 (a : Word) (k : Nat) : Word := shl64 a k ||| shr64 a (64 - k)

/-- `rotr32(x, k)`, right rotation of a 32-bit word (R113). -/
def rotr32 (x : Word32) (k : Nat) : Word32 := x >>> k ||| x <<< (32 - k)

/-- `shr32(x, k)`, right shift of a 32-bit word (R113). -/
def shr32 (x : Word32) (k : Nat) : Word32 := x >>> k

/-- `be32(v)`: the four bytes of `v`, most significant first (R11). -/
def be32 (v : Word32) : List Byte :=
  [v.extractLsb' 24 8, v.extractLsb' 16 8, v.extractLsb' 8 8, v.extractLsb' 0 8]

/-- `be64(v)`: the eight bytes of `v`, most significant first (R113). -/
def be64 (v : Word) : List Byte :=
  [v.extractLsb' 56 8, v.extractLsb' 48 8, v.extractLsb' 40 8, v.extractLsb' 32 8,
   v.extractLsb' 24 8, v.extractLsb' 16 8, v.extractLsb' 8 8, v.extractLsb' 0 8]

/-- The value of a byte string read most significant byte first. -/
def beValue (b : List Byte) : Nat := b.foldl (fun acc x => acc * 256 + x.toNat) 0

/-- The value of a byte string read least significant byte first. -/
def leValue : List Byte → Nat
  | [] => 0
  | b :: rest => b.toNat + 256 * leValue rest

/-- `be32dec(b)` of a 4-byte string (R116). -/
def be32dec (b : List Byte) : Word32 := BitVec.ofNat 32 (beValue b)

/-- `be64dec(b)` of an 8-byte string (R11). -/
def be64dec (b : List Byte) : Word := BitVec.ofNat 64 (beValue b)

end Sys2Proof.Machine
end

