-- ==== Sys2Proof/Machine/State.lean ====
section
/-! DEFINITION. The state of the device (R20, R49), the model's own schedule of events, the reasons a step can stop,
and the state after reset (R52, R260). -/

namespace Sys2Proof.Machine

/-- The six RAMs of R41 to R47. `aliasTab` is the ALIAS RAM. -/
inductive Ram where
  | seedBuf | weight | prob | aliasTab | frag | out
  deriving DecidableEq, Repr

/-- Why the model stops. -/
inductive Fault where
  /-- `UninitRead(region, index)` of R48 and R238: a command or a host access reads a RAM cell that nothing has
  written since reset. Raised by the reads of `Ops`, for PRNG_SEED_BYTES32, PRNG_SEED_HASH, ALIAS_BUILD,
  ALIAS_SAMPLE, ALIAS_SAMPLE_RNG, MIX, PART and host reads. Safe: the spec gives the cell no value and stops the
  run there. -/
  | uninitRead (ram : Ram) (index : Nat)
  deriving DecidableEq, Repr

/-- Why the model gives an instruction no meaning. -/
inductive Refusal where
  /-- An instruction whose arm of `exec` has no meaning yet. Safe: nothing is claimed. No arm answers it. -/
  | notModelled (mnemonic : String)
  deriving DecidableEq, Repr

/-- The state `S[0..3]` of the generator (R33), and of the selector's own generator (R50). -/
structure Prng where
  s0 : Word
  s1 : Word
  s2 : Word
  s3 : Word
  deriving DecidableEq, Repr

/-- What may happen next in a run (R271): one host access of `width` bytes (R63, R64), a reset (R260), a local action
of the host program (R271), or a turn of the device (R270). -/
inductive Event where
  | busRead (addr : Addr) (width : Nat)
  | busWrite (addr : Addr) (width : Nat) (value : Word)
  | reset
  | hostLocal
  | deviceTurn
  deriving DecidableEq, Repr

/-- The device and the schedule of its surroundings. -/
structure State where
  /-- PARAMS0 and PARAMS1 (R22, R23): constants of the instance, never written -/
  params : Params
  /-- ARG0 to ARG3 (R31) -/
  arg0 : Word
  arg1 : Word
  arg2 : Word
  arg3 : Word
  /-- RES0, RES1 (R32) -/
  res0 : Word
  res1 : Word
  /-- S0 to S3 (R33) -/
  prng : Prng
  /-- ALIAS_N (R34) -/
  aliasN : Word
  /-- SEED_LEN (R35) -/
  seedLen : Word
  /-- FLEN (R36) -/
  flen : Word
  /-- FCOUNT (R37) -/
  fcount : Word
  /-- FAULT_INFO (R38) -/
  faultInfo : Word
  /-- STATUS.FAULT (R26) -/
  fault : Bool
  /-- STATUS.SEEDED (R27) -/
  seeded : Bool
  /-- STATUS.ALIAS_VALID (R28) -/
  aliasValid : Bool
  /-- STATUS.FAULT_CODE (R29) -/
  faultCode : BitVec 8
  /-- IDX (R45), bit `k` is `IDX[k]`; a set bit at `k ≥ N_MAX` does not occur (`State.Inv`, log 11) -/
  idx : Nat
  /-- SEED_BUF, WEIGHT, PROB, ALIAS, FRAG and OUT with their written bits (R41 to R44, R46 to R48), by bus address
  (R61): an address is listed exactly when its cell has been written (log 4) -/
  mem : List Host.Cell
  /-- the pending-command latch (R49); STATUS.BUSY is 1 exactly while it is full (R25) -/
  latch : Option Word
  /-- the MODEL's own field (log 2): the events still to come, the next one first -/
  inputs : List Event
  /-- the MODEL's own field (log 3): the value the last host read returned (R63) -/
  readData : Word
  deriving DecidableEq, Repr

/-- The state after reset of an instance with parameters `p` (R52): registers, IDX and S zero, no command latched, no
cell written, no fault recorded. -/
def State.resetWith (p : Params) : State :=
  { params := p, arg0 := 0#64, arg1 := 0#64, arg2 := 0#64, arg3 := 0#64, res0 := 0#64, res1 := 0#64,
    prng := ⟨0#64, 0#64, 0#64, 0#64⟩, aliasN := 0#64, seedLen := 0#64, flen := 0#64, fcount := 0#64,
    faultInfo := 0#64, fault := false, seeded := false, aliasValid := false, faultCode := 0#8, idx := 0,
    mem := [], latch := none, inputs := [], readData := 0#64 }

/-- The machine right after reset (R52, R260), with the parameters of log 1. -/
def State.reset : State := State.resetWith Config.params

end Sys2Proof.Machine
end

