-- ==== Sys2Proof/Machine/Ops.lean ====
section
/-! DEFINITION. The named operations over RAM cells, IDX and registers, and fault entry: the one way a command or a
host access ends in a recorded fault (R241). The device has no return from a fault but reset (R242). -/

namespace Sys2Proof.Machine

/-! ### Bytes by address -/

/-- The byte at an address; `none` where nothing has been written (R48). -/
def Memory.readByte : List Host.Cell → Nat → Option Byte
  | [], _ => none
  | (k, b) :: rest, a => if a = k then some b else Memory.readByte rest a

/-- The memory with byte `v` at address `a`, addresses kept strictly rising. -/
def Memory.writeByte : List Host.Cell → Nat → Byte → List Host.Cell
  | [], a, v => [(a, v)]
  | (k, b) :: rest, a, v =>
    if a < k then (a, v) :: (k, b) :: rest
    else if a = k then (a, v) :: rest
    else (k, b) :: Memory.writeByte rest a v

/-- The canonical form: addresses strictly rise. An unlisted address reads as no value, so no entry can equal it. -/
abbrev Memory.wf (m : List Host.Cell) : Prop := m.Pairwise (fun c d => c.1 < d.1)

/-- `n` bytes from address `a` up; `none` if any was never written. -/
def Memory.readBytes (m : List Host.Cell) (a : Nat) : Nat → Option (List Byte)
  | 0 => some []
  | n + 1 =>
    match Memory.readByte m a, Memory.readBytes m (a + 1) n with
    | some b, some bs => some (b :: bs)
    | _, _ => none

/-- The bytes of a list written from address `a` up. -/
def Memory.writeBytes (m : List Host.Cell) (a : Nat) : List Byte → List Host.Cell
  | [] => m
  | b :: bs => Memory.writeBytes (Memory.writeByte m a b) (a + 1) bs

/-- The eight bytes a 64-bit entry is kept as, least significant at the lowest address. DESIGN CHOICE (log 4),
unobservable: entries are read and written whole (R67). -/
def entryBytes (w : Word) : List Byte :=
  [w.extractLsb' 0 8, w.extractLsb' 8 8, w.extractLsb' 16 8, w.extractLsb' 24 8,
   w.extractLsb' 32 8, w.extractLsb' 40 8, w.extractLsb' 48 8, w.extractLsb' 56 8]

/-! ### The RAMs -/

/-- The base address of a RAM's window (R61). -/
def Ram.base : Ram → Nat
  | .seedBuf => 0x01000000
  | .weight => 0x02000000
  | .prob => 0x03000000
  | .aliasTab => 0x04000000
  | .frag => 0x06000000
  | .out => 0x07000000

/-- The bytes of one cell: a byte RAM's cell is one byte, a word RAM's entry eight (R41 to R47, R62). -/
def Ram.cellBytes : Ram → Nat
  | .seedBuf | .frag | .out => 1
  | .weight | .prob | .aliasTab => 8

/-- The number of cells of a RAM (R41 to R47). -/
def Ram.cells (p : Params) : Ram → Nat
  | .seedBuf => p.seedMax
  | .weight | .prob | .aliasTab => p.nMax
  | .frag => p.fragBytes
  | .out => p.flenMax

/-- The bus address of cell `i` (R61, R63). -/
def Ram.addr (r : Ram) (i : Nat) : Nat := r.base + r.cellBytes * i

/-! ### What a command's computation can end in -/

/-- The fault codes of R230. -/
inductive FaultCode where
  | illegal | unseeded | noTable | operand | range | bus | busy
  deriving DecidableEq, Repr

/-- The number of a fault code (R230). -/
def FaultCode.bits : FaultCode → BitVec 8
  | .illegal => 0x01#8
  | .unseeded => 0x02#8
  | .noTable => 0x03#8
  | .operand => 0x04#8
  | .range => 0x05#8
  | .bus => 0x06#8
  | .busy => 0x07#8

/-- Why a computation ends early: a device fault (R241) or the model fault of R238. -/
inductive Stop where
  | device (code : FaultCode)
  | uninit (ram : Ram) (index : Nat)
  deriving DecidableEq, Repr

/-- `raise Fault(code)` (R12) unless `ok`. -/
def require (ok : Bool) (code : FaultCode) : Except Stop Unit :=
  if ok then .ok () else .error (.device code)

/-- The value of cell `i` of a byte RAM; an unwritten cell is UninitRead (R48). -/
def readByteCell (m : List Host.Cell) (r : Ram) (i : Nat) : Except Stop Byte :=
  match Memory.readByte m (r.addr i) with
  | some b => .ok b
  | none => .error (.uninit r i)

/-- The value of entry `i` of a word RAM; an unwritten entry is UninitRead (R48). -/
def readWordCell (m : List Host.Cell) (r : Ram) (i : Nat) : Except Stop Word :=
  match Memory.readBytes m (r.addr i) 8 with
  | some bs => .ok (BitVec.ofNat 64 (leValue bs))
  | none => .error (.uninit r i)

/-- Cells `i` to `i + n - 1` of a byte RAM, read in rising order. -/
def readByteCells (m : List Host.Cell) (r : Ram) (i : Nat) : Nat → Except Stop (List Byte)
  | 0 => .ok []
  | n + 1 => do
    let b ← readByteCell m r i
    let bs ← readByteCells m r (i + 1) n
    return b :: bs

/-- Entries `i` to `i + n - 1` of a word RAM, read in rising order. -/
def readWordCells (m : List Host.Cell) (r : Ram) (i : Nat) : Nat → Except Stop (List Word)
  | 0 => .ok []
  | n + 1 => do
    let w ← readWordCell m r i
    let ws ← readWordCells m r (i + 1) n
    return w :: ws

/-- Cell `i` of a byte RAM written, its written bit set (R64). -/
def writeByteCell (m : List Host.Cell) (r : Ram) (i : Nat) (b : Byte) : List Host.Cell :=
  Memory.writeByte m (r.addr i) b

/-- Entry `i` of a word RAM written, its written bit set (R64). -/
def writeWordCell (m : List Host.Cell) (r : Ram) (i : Nat) (w : Word) : List Host.Cell :=
  Memory.writeBytes m (r.addr i) (entryBytes w)

/-- The bytes of a list written to the cells of a byte RAM from cell `i` up. -/
def writeByteCells (m : List Host.Cell) (r : Ram) (i : Nat) : List Byte → List Host.Cell
  | [] => m
  | b :: bs => writeByteCells (writeByteCell m r i b) r (i + 1) bs

/-- The words of a list written to the entries of a word RAM from entry `i` up. -/
def writeWordCells (m : List Host.Cell) (r : Ram) (i : Nat) : List Word → List Host.Cell
  | [] => m
  | w :: ws => writeWordCells (writeWordCell m r i w) r (i + 1) ws

/-! ### IDX -/

/-- The bitmap of an index set (R184). -/
def idxOfSet (set : List Nat) : Nat := set.foldl (fun acc k => acc ||| 2 ^ k) 0

/-- Word `w` of IDX as the host reads it; bits at N_MAX and above read as 0 (R45, R63). -/
def idxReadWord (nMax idx w : Nat) : Word := BitVec.ofNat 64 ((idx % 2 ^ nMax) / 2 ^ (64 * w))

/-- IDX after a host write of `v` to its word `w`; bits at N_MAX and above stay 0 (R45, R64). -/
def idxWriteWord (nMax idx w : Nat) (v : Word) : Nat :=
  (idx % 2 ^ (64 * w) + 2 ^ (64 * w) * v.toNat + 2 ^ (64 * w + 64) * (idx / 2 ^ (64 * w + 64))) % 2 ^ nMax

/-! ### Ending a command or an access -/

/-- STATUS.BUSY: 1 exactly while the latch is full (R25, R49). -/
def State.busy (s : State) : Bool := s.latch.isSome

/-- The end of a command that completes: BUSY ← 0, latch empty (R270). -/
def State.complete (s : State) : State := { s with latch := none }

/-- The word whose bit `k` is `b` and whose other bits are 0. -/
def bitAt (k : Nat) (b : Bool) : Word := if b then 1#64 <<< k else 0#64

/-- FAULT_INFO as fault entry packs it: ADDR [31:0], WRITE [32], OPC [47:40], the rest 0 (R38). -/
def faultInfoWord (addr : Addr) (write : Bool) (opc : Byte) : Word :=
  addr.setWidth 64 ||| bitAt 32 write ||| opc.setWidth 64 <<< 40

/-- TAKING A FAULT, the one shared operation: fault entry of R241. Nothing else changes. -/
def State.faultEntry (s : State) (code : FaultCode) (addr : Addr) (write : Bool) (opc : Byte) : State :=
  { s with fault := true, faultCode := code.bits, faultInfo := faultInfoWord addr write opc, latch := none }

/-- The fault entry of a command: ADDR is CMD's, WRITE is 1, OPC the command's (R38, R241). -/
def State.commandFault (s : State) (code : FaultCode) (opc : Byte) : State :=
  s.faultEntry code 0x00000018#32 true opc

/-- The end of command `i` in state `s`, given what its computation answers: the completed state, fault entry in the
state BEFORE the command (R240), or the model fault (R238). -/
def finish (i : Instr) (s : State) (r : Except Stop State) : Host.Outcome State Fault Refusal :=
  match r with
  | .ok t => .next t.complete
  | .error (.device code) => .next (s.commandFault code (opcodeOf i))
  | .error (.uninit ram index) => .fault (.uninitRead ram index)

/-- RETURNING FROM A FAULT: reset, the only way back (R242, R260). It may come at any step and drops a latched command;
the parameters are constants, and the schedule and the last value read are the surroundings', not the device's. -/
def State.deviceReset (s : State) : State :=
  { State.resetWith s.params with inputs := s.inputs, readData := s.readData }

end Sys2Proof.Machine
end

