-- ==== Sys2Proof/Machine/Flags.lean ====
section
/-! DEFINITION. The flags: the fields of STATUS and the word the host reads (R24, R40), and the parameter registers.
No command sets a flag but as its rule states (R40): SEEDED and ALIAS_VALID are set here. -/

namespace Sys2Proof.Machine

/-- STATUS as read: BUSY [0], FAULT [1], SEEDED [2], ALIAS_VALID [3], FAULT_CODE [15:8], the rest 0 (R24). -/
def State.statusWord (s : State) : Word :=
  bitAt 0 s.busy ||| bitAt 1 s.fault ||| bitAt 2 s.seeded ||| bitAt 3 s.aliasValid ||| s.faultCode.setWidth 64 <<< 8

/-- PARAMS0: FLEN_MAX in [63:32], N_MAX in [31:0] (R22). -/
def params0Word (p : Params) : Word := BitVec.ofNat 64 (p.nMax % 2 ^ 32 + 2 ^ 32 * p.flenMax)

/-- PARAMS1: SEED_MAX in [63:32], FRAG_BYTES in [31:0] (R23). -/
def params1Word (p : Params) : Word := BitVec.ofNat 64 (p.fragBytes % 2 ^ 32 + 2 ^ 32 * p.seedMax)

/-- A seeding command's whole effect: S ← g, SEEDED ← 1 (R27, R125 to R128). -/
def State.seedWith (s : State) (g : Prng) : State := { s with prng := g, seeded := true }

/-- E_UNSEEDED when SEEDED is 0 (R232). -/
def requireSeeded (s : State) : Except Stop Unit := require s.seeded .unseeded

/-- E_NOTABLE when ALIAS_VALID is 0 (R233). -/
def requireTable (s : State) : Except Stop Unit := require s.aliasValid .noTable

end Sys2Proof.Machine
end

