-- ==== Sys2Proof/Machine/Bus.lean ====
section
/-! DEFINITION. The host bus: the address map (R61), legality (R62, R65), and one host access, whatever BUSY and FAULT
are (R63, R64, R66, R70). -/

namespace Sys2Proof.Machine

/-- The registers of R20. -/
inductive Reg where
  | params0 | params1 | status | cmd | arg0 | arg1 | arg2 | arg3 | res0 | res1 | s0 | s1 | s2 | s3 | aliasN | seedLen
  | flen | fcount | faultInfo
  deriving DecidableEq, Repr

/-- What a legal access reaches: a register, a RAM cell, or a word of IDX (R61). -/
inductive Target where
  | reg (r : Reg)
  | cell (r : Ram) (i : Nat)
  | idxWord (w : Nat)
  deriving DecidableEq, Repr

/-- The register at an offset of the REG window (R20); none at 0x098 and above (R39) or between registers. -/
def regAt : Nat → Option Reg
  | 0x000 => some .params0
  | 0x008 => some .params1
  | 0x010 => some .status
  | 0x018 => some .cmd
  | 0x020 => some .arg0
  | 0x028 => some .arg1
  | 0x030 => some .arg2
  | 0x038 => some .arg3
  | 0x040 => some .res0
  | 0x048 => some .res1
  | 0x050 => some .s0
  | 0x058 => some .s1
  | 0x060 => some .s2
  | 0x068 => some .s3
  | 0x070 => some .aliasN
  | 0x078 => some .seedLen
  | 0x080 => some .flen
  | 0x088 => some .fcount
  | 0x090 => some .faultInfo
  | _ => none

/-- A cell of RAM `r` at offset `off` of its window, when the width is the RAM's, the offset is aligned to it and the
cell exists (R61, R62). -/
def cellAt (p : Params) (r : Ram) (off width : Nat) : Option Target :=
  if width = r.cellBytes ∧ off % r.cellBytes = 0 ∧ off / r.cellBytes < r.cells p
  then some (.cell r (off / r.cellBytes)) else none

/-- What an access of `width` bytes at `addr` reaches; `none` for a wrong width, a misaligned, an unimplemented or an
unmapped address (R61, R62). -/
def targetAt (p : Params) (addr : Addr) (width : Nat) : Option Target :=
  let off := addr.toNat % 2 ^ 24
  match addr.toNat / 2 ^ 24 with
  | 0 => if width = 8 then (regAt off).map .reg else none
  | 1 => cellAt p .seedBuf off width
  | 2 => cellAt p .weight off width
  | 3 => cellAt p .prob off width
  | 4 => cellAt p .aliasTab off width
  | 5 => if width = 8 ∧ off % 8 = 0 ∧ off / 8 < (p.nMax + 63) / 64 then some (.idxWord (off / 8)) else none
  | 6 => cellAt p .frag off width
  | 7 => cellAt p .out off width
  | _ => none

/-- The host may write the target (R65): CMD, ARG0..ARG3, SEED_LEN, FLEN, FCOUNT, SEED_BUF, WEIGHT, IDX, FRAG. -/
def Target.writable : Target → Bool
  | .reg .cmd | .reg .arg0 | .reg .arg1 | .reg .arg2 | .reg .arg3 | .reg .seedLen | .reg .flen | .reg .fcount => true
  | .reg _ => false
  | .cell .seedBuf _ | .cell .weight _ | .cell .frag _ => true
  | .cell _ _ => false
  | .idxWord _ => true

/-- The target of a legal access, `none` for an illegal one (R65). -/
def legalTarget (p : Params) (addr : Addr) (width : Nat) (write : Bool) : Option Target :=
  match targetAt p addr width with
  | some t => if write && !t.writable then none else some t
  | none => none

/-- The value of a register as the host reads it; CMD reads 0 (R63). -/
def State.readReg (s : State) : Reg → Word
  | .params0 => params0Word s.params
  | .params1 => params1Word s.params
  | .status => s.statusWord
  | .cmd => 0#64
  | .arg0 => s.arg0
  | .arg1 => s.arg1
  | .arg2 => s.arg2
  | .arg3 => s.arg3
  | .res0 => s.res0
  | .res1 => s.res1
  | .s0 => s.prng.s0
  | .s1 => s.prng.s1
  | .s2 => s.prng.s2
  | .s3 => s.prng.s3
  | .aliasN => s.aliasN
  | .seedLen => s.seedLen
  | .flen => s.flen
  | .fcount => s.fcount
  | .faultInfo => s.faultInfo

/-- The value a legal read returns (R63); an unwritten cell is UninitRead (R48). A byte is zero-extended. -/
def State.readTarget (s : State) : Target → Except Stop Word
  | .reg r => .ok (s.readReg r)
  | .cell r i =>
    match r with
    | .seedBuf | .frag | .out => (readByteCell s.mem r i).map (fun b => b.setWidth 64)
    | .weight | .prob | .aliasTab => readWordCell s.mem r i
  | .idxWord w => .ok (idxReadWord s.params.nMax s.idx w)

/-- A register written by the host (R64): CMD latches the whole word and so sets BUSY (R91); a read-only register is
never the target of a legal write. -/
def State.writeReg (s : State) (r : Reg) (v : Word) : State :=
  match r with
  | .cmd => { s with latch := some v }
  | .arg0 => { s with arg0 := v }
  | .arg1 => { s with arg1 := v }
  | .arg2 => { s with arg2 := v }
  | .arg3 => { s with arg3 := v }
  | .seedLen => { s with seedLen := v }
  | .flen => { s with flen := v }
  | .fcount => { s with fcount := v }
  | _ => s

/-- The effect of a legal write (R64); a byte RAM takes v[7:0]. -/
def State.writeTarget (s : State) (t : Target) (v : Word) : State :=
  match t with
  | .reg r => s.writeReg r v
  | .cell r i =>
    match r with
    | .seedBuf | .frag | .out => { s with mem := writeByteCell s.mem r i (v.setWidth 8) }
    | .weight | .prob | .aliasTab => { s with mem := writeWordCell s.mem r i v }
  | .idxWord w => { s with idx := idxWriteWord s.params.nMax s.idx w v }

/-- The state in which the host has been given `v`. -/
def State.respond (s : State) (v : Word) : State := { s with readData := v }

/-- A legal read performed: the value returned, or the model fault (R63, R48). -/
def readResponse (s : State) (t : Target) : Host.Outcome State Fault Refusal :=
  match s.readTarget t with
  | .ok v => .next (s.respond v)
  | .error (.uninit ram index) => .fault (.uninitRead ram index)
  | .error (.device _) => .next (s.respond 0#64)

/-- One host read (R63). While FAULT = 1 a legal read returns the value and an illegal one returns 0 (R66); while
BUSY = 1 only a 64-bit read of STATUS is legal, any other is E_BUSY (R70, R237); else an illegal one is E_BUS (R236). A
faulting read returns 0. -/
def hostRead (s : State) (addr : Addr) (width : Nat) : Host.Outcome State Fault Refusal :=
  if s.fault then
    match legalTarget s.params addr width false with
    | some t => readResponse s t
    | none => .next (s.respond 0#64)
  else if s.busy then
    if addr = 0x00000010#32 ∧ width = 8 then .next (s.respond s.statusWord)
    else .next ((s.faultEntry .busy addr false 0#8).respond 0#64)
  else
    match legalTarget s.params addr width false with
    | some t => readResponse s t
    | none => .next ((s.faultEntry .bus addr false 0#8).respond 0#64)

/-- One host write (R64). While FAULT = 1 it has no effect (R66); while BUSY = 1 it is E_BUSY, the latched command
dropped (R70, R237); else an illegal one is E_BUS (R236). -/
def hostWrite (s : State) (addr : Addr) (width : Nat) (v : Word) : State :=
  if s.fault then s
  else if s.busy then s.faultEntry .busy addr true 0#8
  else
    match legalTarget s.params addr width true with
    | some t => s.writeTarget t v
    | none => s.faultEntry .bus addr true 0#8

end Sys2Proof.Machine
end

