-- ==== Sys2Proof/Machine/Binary64.lean ====
section
/-! DEFINITION. IEEE 754 binary64 with roundTiesToEven (R10) on 64-bit encodings (`bits64`, `asf64` are the
identity here: a binary64 is kept as its encoding).

Every finite binary64 is a whole number of units of 2^-1074, so each operation is computed exactly on natural numbers
in units and narrowed once, by `roundUnits`. -/

namespace Sys2Proof.Machine

namespace F64

/-- The encoding of +0.0. -/
def zero : Word := 0x0000000000000000#64

/-- The encoding of 1.0. -/
def one : Word := 0x3FF0000000000000#64

/-- The encoding of +∞. -/
def inf : Word := 0x7FF0000000000000#64

/-- The NaN an invalid operation gives. DESIGN CHOICE (log 7), unobservable: no command stores a NaN. -/
def nan : Word := 0x7FF8000000000000#64

/-- The sign bit. -/
def sign (d : Word) : Bool := d.getLsbD 63

/-- The encoding without its sign bit. -/
def magBits (d : Word) : Nat := d.toNat % 2 ^ 63

/-- The encoding of +∞ as a number: the largest magnitude that is not a NaN. -/
def infBits : Nat := 0x7FF0000000000000

/-- `d` is a NaN. -/
def isNaN (d : Word) : Bool := infBits < magBits d

/-- `d` is +∞ or −∞. -/
def isInf (d : Word) : Bool := magBits d == infBits

/-- The number of units of 2^-1074 a finite magnitude encoding stands for: exponent field and significand. -/
def unitsOf (mag : Nat) : Nat :=
  if mag / 2 ^ 52 = 0 then mag % 2 ^ 52 else (2 ^ 52 + mag % 2 ^ 52) * 2 ^ (mag / 2 ^ 52 - 1)

/-- The magnitude of a finite `d` in units of 2^-1074 (of an infinity: a number above every finite one's). -/
def units (d : Word) : Nat := unitsOf (magBits d)

/-- The value of a finite `d` in units of 2^-1074, with its sign. -/
def value (d : Word) : Int := if sign d then -(units d : Int) else (units d : Int)

/-- The number 1.0 in units of 2^-1074. -/
def oneUnits : Nat := 2 ^ 1074

/-- `num / den` rounded to the nearest natural number, ties to even. -/
def roundEven (num den : Nat) : Nat :=
  let q := num / den
  let r := num % den
  if 2 * r < den then q
  else if den < 2 * r then q + 1
  else if q % 2 = 0 then q else q + 1

/-- The magnitude encoding of the binary64 nearest to `num / den` units, ties to even, +∞ on overflow. The last place
of a result of 2^(52+sh) units or more is 2^sh units; adding `sh · 2^52` to the rounded significand `m` puts the
exponent in place, a significand that rounds up to 2^53 carrying into it. -/
def roundUnits (num den : Nat) : Nat :=
  let sh := Nat.log2 (num / den) - 52
  let m := roundEven num (den * 2 ^ sh)
  min (sh * 2 ^ 52 + m) infBits

/-- The encoding with sign `s` and magnitude encoding `mag`. -/
def withSign (s : Bool) (mag : Nat) : Word := BitVec.ofNat 64 (if s then 2 ^ 63 + mag else mag)

/-- `-d`. -/
def neg (d : Word) : Word := d ^^^ 0x8000000000000000#64

/-- `f64(n)`: the binary64 nearest to the natural number `n` (R10). -/
def ofNat (n : Nat) : Word := withSign false (roundUnits (n * oneUnits) 1)

/-- `fadd(a, b)` (R10). An exact zero sum is +0.0 unless both operands are negative. -/
def add (a b : Word) : Word :=
  if isNaN a || isNaN b then nan
  else if isInf a then (if isInf b && sign a != sign b then nan else a)
  else if isInf b then b
  else
    let v := value a + value b
    if v = 0 then withSign (sign a && sign b) 0
    else withSign (decide (v < 0)) (roundUnits v.natAbs 1)

/-- `fsub(a, b)` (R10). -/
def sub (a b : Word) : Word := add a (neg b)

/-- `fmul(a, b)` (R10). -/
def mul (a b : Word) : Word :=
  let s := sign a != sign b
  if isNaN a || isNaN b then nan
  else if isInf a || isInf b then (if units a = 0 || units b = 0 then nan else withSign s infBits)
  else withSign s (roundUnits (units a * units b) oneUnits)

/-- `fdiv(a, b)` (R10). -/
def div (a b : Word) : Word :=
  let s := sign a != sign b
  if isNaN a || isNaN b then nan
  else if isInf a then (if isInf b then nan else withSign s infBits)
  else if isInf b then withSign s 0
  else if units b = 0 then (if units a = 0 then nan else withSign s infBits)
  else withSign s (roundUnits (units a * oneUnits) (units b))

/-- `flt(a, b)`: less than, false when an operand is a NaN (R10). -/
def lt (a b : Word) : Bool := !isNaN a && !isNaN b && decide (value a < value b)

/-- `fge(a, b)`: greater or equal, false when an operand is a NaN (R10). -/
def ge (a b : Word) : Bool := !isNaN a && !isNaN b && decide (value b ≤ value a)

/-- `ftrunc(d)` for a finite `d ≥ 0`, −0.0 included (R10). -/
def trunc (d : Word) : Nat := units d / oneUnits

end F64

end Sys2Proof.Machine
end

