-- ==== Sys2Proof/Machine/Sha256.lean ====
section
/-! DEFINITION. SHA-256 as R113 to R118 give it. -/

namespace Sys2Proof.Machine

namespace Sha256

/-- The eight working words `H[0..7]` or `(a, …, h)` (R114, R117). -/
structure Digest where
  a : Word32
  b : Word32
  c : Word32
  d : Word32
  e : Word32
  f : Word32
  g : Word32
  h : Word32
  deriving DecidableEq, Repr

/-- The initial hash value (R114). -/
def initial : Digest :=
  ⟨0x6a09e667#32, 0xbb67ae85#32, 0x3c6ef372#32, 0xa54ff53a#32,
   0x510e527f#32, 0x9b05688c#32, 0x1f83d9ab#32, 0x5be0cd19#32⟩

/-- The round constants `K[0..63]` (R115), a line a row. -/
def roundConstants : List Word32 :=
  [0x428a2f98#32, 0x71374491#32, 0xb5c0fbcf#32, 0xe9b5dba5#32, 0x3956c25b#32, 0x59f111f1#32, 0x923f82a4#32, 0xab1c5ed5#32] ++
  [0xd807aa98#32, 0x12835b01#32, 0x243185be#32, 0x550c7dc3#32, 0x72be5d74#32, 0x80deb1fe#32, 0x9bdc06a7#32, 0xc19bf174#32] ++
  [0xe49b69c1#32, 0xefbe4786#32, 0x0fc19dc6#32, 0x240ca1cc#32, 0x2de92c6f#32, 0x4a7484aa#32, 0x5cb0a9dc#32, 0x76f988da#32] ++
  [0x983e5152#32, 0xa831c66d#32, 0xb00327c8#32, 0xbf597fc7#32, 0xc6e00bf3#32, 0xd5a79147#32, 0x06ca6351#32, 0x14292967#32] ++
  [0x27b70a85#32, 0x2e1b2138#32, 0x4d2c6dfc#32, 0x53380d13#32, 0x650a7354#32, 0x766a0abb#32, 0x81c2c92e#32, 0x92722c85#32] ++
  [0xa2bfe8a1#32, 0xa81a664b#32, 0xc24b8b70#32, 0xc76c51a3#32, 0xd192e819#32, 0xd6990624#32, 0xf40e3585#32, 0x106aa070#32] ++
  [0x19a4c116#32, 0x1e376c08#32, 0x2748774c#32, 0x34b0bcb5#32, 0x391c0cb3#32, 0x4ed8aa4a#32, 0x5b9cca4f#32, 0x682e6ff3#32] ++
  [0x748f82ee#32, 0x78a5636f#32, 0x84c87814#32, 0x8cc70208#32, 0x90befffa#32, 0xa4506ceb#32, 0xbef9a3f7#32, 0xc67178f2#32]

/-- `σ0` of R116. -/
def smallSigma0 (x : Word32) : Word32 := rotr32 x 7 ^^^ rotr32 x 18 ^^^ shr32 x 3

/-- `σ1` of R116. -/
def smallSigma1 (x : Word32) : Word32 := rotr32 x 17 ^^^ rotr32 x 19 ^^^ shr32 x 10

/-- `Σ0` of R117. -/
def bigSigma0 (x : Word32) : Word32 := rotr32 x 2 ^^^ rotr32 x 13 ^^^ rotr32 x 22

/-- `Σ1` of R117. -/
def bigSigma1 (x : Word32) : Word32 := rotr32 x 6 ^^^ rotr32 x 11 ^^^ rotr32 x 25

/-- `Ch` of R117. -/
def choose (x y z : Word32) : Word32 := (x &&& y) ^^^ (~~~x &&& z)

/-- `Maj` of R117. -/
def majority (x y z : Word32) : Word32 := (x &&& y) ^^^ (x &&& z) ^^^ (y &&& z)

/-- The first `n` four-byte words of a block, each most significant byte first (R116). -/
def blockWords : Nat → List Byte → List Word32
  | 0, _ => []
  | n + 1, b => be32dec (b.take 4) :: blockWords n (b.drop 4)

/-- `n` further words of the message schedule (R116). The words so far come newest first, so that `W[t-2]`, `W[t-7]`,
`W[t-15]` and `W[t-16]` stand at positions 1, 6, 14 and 15. -/
def extendSchedule : Nat → List Word32 → List Word32
  | 0, rev => rev
  | n + 1, rev =>
    extendSchedule n
      ((smallSigma1 (rev.getD 1 0#32) + rev.getD 6 0#32 + smallSigma0 (rev.getD 14 0#32) + rev.getD 15 0#32) :: rev)

/-- The message schedule `W[0..63]` of one block (R116). -/
def schedule (block : List Byte) : List Word32 := (extendSchedule 48 (blockWords 16 block).reverse).reverse

/-- One round of R117. -/
def round (v : Digest) (kt wt : Word32) : Digest :=
  let t1 := v.h + bigSigma1 v.e + choose v.e v.f v.g + kt + wt
  let t2 := bigSigma0 v.a + majority v.a v.b v.c
  { a := t1 + t2, b := v.a, c := v.b, d := v.c, e := v.d + t1, f := v.e, g := v.f, h := v.g }

/-- The rounds of R117 over the pairs of round constant and schedule word, in order. -/
def rounds : List (Word32 × Word32) → Digest → Digest
  | [], v => v
  | (kt, wt) :: rest, v => rounds rest (round v kt wt)

/-- The compression of one block into the hash value (R117). -/
def compress (hv : Digest) (block : List Byte) : Digest :=
  let v := rounds (roundConstants.zip (schedule block)) hv
  ⟨hv.a + v.a, hv.b + v.b, hv.c + v.c, hv.d + v.d, hv.e + v.e, hv.f + v.f, hv.g + v.g, hv.h + v.h⟩

/-- The padded message of R113: 0x80, the least number of zero bytes, the length in bits as eight bytes. -/
def pad (b : List Byte) : List Byte :=
  b ++ (0x80#8 :: List.replicate ((119 - b.length % 64) % 64) 0x00#8) ++ be64 (BitVec.ofNat 64 (8 * b.length))

/-- The compression of `n` 64-byte blocks in order (R117). -/
def compressBlocks : Nat → List Byte → Digest → Digest
  | 0, _, hv => hv
  | n + 1, b, hv => compressBlocks n (b.drop 64) (compress hv (b.take 64))

/-- The digest as 32 bytes (R118). -/
def bytes (v : Digest) : List Byte :=
  be32 v.a ++ be32 v.b ++ be32 v.c ++ be32 v.d ++ be32 v.e ++ be32 v.f ++ be32 v.g ++ be32 v.h

end Sha256

/-- `sha256(b)` (R113 to R118). -/
def sha256 (b : List Byte) : List Byte :=
  let p := Sha256.pad b
  Sha256.bytes (Sha256.compressBlocks (p.length / 64) p Sha256.initial)

end Sys2Proof.Machine
end

