-- ==== Sys2Proof/Machine/Generator.lean ====
section
/-! DEFINITION. The generator functions of R111 to R124, on a state argument: the commands apply them to `S`, the
selector to its own state (R110). -/

namespace Sys2Proof.Machine

/-- `next(G)`, the xoshiro256** step (R111): the result and the new state. -/
def next (g : Prng) : Word × Prng :=
  let result := rotl64 (g.s1 * 5#64) 7 * 9#64
  let t := shl64 g.s1 17
  let a2 := g.s2 ^^^ g.s0
  let a3 := g.s3 ^^^ g.s1
  let a1 := g.s1 ^^^ a2
  let a0 := g.s0 ^^^ a3
  (result, { s0 := a0, s1 := a1, s2 := a2 ^^^ t, s3 := rotl64 a3 45 })

/-- The binary64 2^64, by which `nextDouble` divides (R119). -/
def two64 : Word := F64.ofNat (2 ^ 64)

/-- The mapping of a draw to [0, 1) (R119): E_RANGE when it rounds to 1.0. -/
def doubleOfDraw (x : Word) : Except Stop Word :=
  let d := F64.div (F64.ofNat x.toNat) two64
  if d = F64.one then .error (.device .range) else .ok d

/-- `nextDouble(G)` (R119). -/
def nextDouble (g : Prng) : Except Stop (Word × Prng) := do
  let d ← doubleOfDraw (next g).1
  return (d, (next g).2)

/-- `ftrunc(fmul(d, f64(m)))` with the range guard that R120 and R155 keep. -/
def scaleDouble (d : Word) (m : Nat) : Except Stop Nat :=
  let v := F64.trunc (F64.mul d (F64.ofNat m))
  if m ≤ v then .error (.device .range) else .ok v

/-- `nextInt(G, low, high)` (R120). -/
def nextInt (g : Prng) (low high : Word) : Except Stop (Word × Prng) := do
  require (!(decide (high < low) || (low == 0#64 && high == 0xFFFFFFFFFFFFFFFF#64))) .operand
  let (d, g') ← nextDouble g
  let v ← scaleDouble d (high.toNat - low.toNat + 1)
  return (low + BitVec.ofNat 64 v, g')

/-- `nextByte(G)` (R121). -/
def nextByte (g : Prng) : Except Stop (Byte × Prng) := do
  let (v, g') ← nextInt g 0#64 255#64
  return (v.setWidth 8, g')

/-- `nextBytes(G, count)`: one draw a byte, first byte first (R121). -/
def nextBytes (g : Prng) : Nat → Except Stop (List Byte × Prng)
  | 0 => .ok ([], g)
  | n + 1 => do
    let (b, g') ← nextByte g
    let (bs, g'') ← nextBytes g' n
    return (b :: bs, g'')

/-- The exclusive or of two states, word by word (R122). -/
def Prng.xor (a b : Prng) : Prng := ⟨a.s0 ^^^ b.s0, a.s1 ^^^ b.s1, a.s2 ^^^ b.s2, a.s3 ^^^ b.s3⟩

/-- One pass of the inner loop of R122 on (T, G): T takes G in when the jump bit is 1, then G is stepped. -/
def jumpBit (bit : Bool) (tg : Prng × Prng) : Prng × Prng :=
  (if bit then tg.1.xor tg.2 else tg.1, (next tg.2).2)

/-- The passes of R122 over a list of jump bits, in order. -/
def jumpBits : List Bool → Prng × Prng → Prng × Prng
  | [], tg => tg
  | bit :: rest, tg => jumpBits rest (jumpBit bit tg)

/-- The bits of a jump constant in the order of R122: word 0 bit 0 first. -/
def jumpBitList (j : List Word) : List Bool := j.flatMap (fun w => (List.range 64).map w.getLsbD)

/-- `jumpBy(G, J)` (R122). -/
def jumpBy (g : Prng) (j : List Word) : Prng := (jumpBits (jumpBitList j) (⟨0#64, 0#64, 0#64, 0#64⟩, g)).1

/-- JUMP (R123). -/
def jumpConst : List Word :=
  [0x180ec6d33cfd0aba#64, 0xd5a61266f0c9392c#64, 0xa9582618e03fc9aa#64, 0x39abdc4529b1661c#64]

/-- LONG_JUMP (R123). -/
def longJumpConst : List Word :=
  [0x76e15d3efefdcbbf#64, 0xc5004e441c522fb3#64, 0x77710069854ee241#64, 0x39109bb02acbe635#64]

/-- `pack256(b)` of a 32-byte string: four words, first byte most significant (R11, R124). -/
def pack256 (b : List Byte) : Prng :=
  { s0 := be64dec (b.take 8), s1 := be64dec ((b.drop 8).take 8), s2 := be64dec ((b.drop 16).take 8),
    s3 := be64dec ((b.drop 24).take 8) }

/-- The state a byte string is hashed to: `pack256(sha256(b))` (R124, R127). -/
def hashSeed (b : List Byte) : Prng := pack256 (sha256 b)

end Sys2Proof.Machine
end

