-- ==== Sys2Proof/Machine/AliasTable.lean ====
section
/-! DEFINITION. The alias-table build and the O(1) sample (R150 to R155), for the user's tables and the selector's. -/

namespace Sys2Proof.Machine

/-- A probability table and an alias table of one size (R150); probabilities are binary64 encodings. -/
structure Tables where
  prob : List Word
  aliasOf : List Nat
  deriving DecidableEq, Repr

/-- The sum of R153, left to right from 0.0. -/
def weightSum (w : List Word) : Word := w.foldl F64.add F64.zero

/-- The validity of one weight: `fge(w, 0.0)` and `w ≠ +∞` (R152). -/
def weightValid (w : Word) : Bool := F64.ge w F64.zero && w != F64.inf

/-- The checks of R152, each failing one E_OPERAND. -/
def checkWeights (w : List Word) : Except Stop Unit := do
  require (w.all weightValid) .operand
  require (F64.lt F64.zero (weightSum w) && weightSum w != F64.inf) .operand

/-- The work of the main loop of R153: the scaled weights `P`, the tables, and the stacks of small and large indexes,
top first. -/
structure Balance where
  p : List Word
  tables : Tables
  small : List Nat
  large : List Nat
  deriving DecidableEq, Repr

/-- `P[i] = fdiv(fmul(w[i], f64(n)), s)` (R153). -/
def scaledWeights (w : List Word) : List Word :=
  w.map (fun x => F64.div (F64.mul x (F64.ofNat w.length)) (weightSum w))

/-- The indexes `i` in `k..n-1` of `P` that satisfy `keep`. Pushed from n-1 down to 0, the least ends on top. -/
def stackOf (keep : Word → Bool) : Nat → List Word → List Nat
  | _, [] => []
  | k, x :: rest => if keep x then k :: stackOf keep (k + 1) rest else stackOf keep (k + 1) rest

/-- The stacks filled and the tables cleared (R153). -/
def balanceStart (w : List Word) : Balance :=
  let p := scaledWeights w
  { p := p, tables := ⟨List.replicate w.length F64.zero, List.replicate w.length 0⟩,
    small := stackOf (fun x => F64.lt x F64.one) 0 p, large := stackOf (fun x => !F64.lt x F64.one) 0 p }

/-- One pass of the main loop of R153: small index `a` and large index `g` popped, `g` pushed back. -/
def balanceStep (b : Balance) (a g : Nat) (small large : List Nat) : Balance :=
  let pa := b.p.getD a F64.zero
  let pg := F64.add (b.p.getD g F64.zero) (F64.sub pa F64.one)
  { p := b.p.set g pg,
    tables := ⟨b.tables.prob.set a pa, b.tables.aliasOf.set a g⟩,
    small := if F64.lt pg F64.one then g :: small else small,
    large := if F64.lt pg F64.one then large else g :: large }

/-- The main loop of R153, at most `fuel` passes. Each pass takes one index off the stacks for good, so `n` passes are
enough to empty one of them (`balanceLoop_done`). -/
def balanceLoop : Nat → Balance → Balance
  | 0, b => b
  | fuel + 1, b =>
    match b.small, b.large with
    | a :: small, g :: large => balanceLoop fuel (balanceStep b a g small large)
    | _, _ => b

/-- The leftovers of a stack get probability 1.0 (R153). -/
def fillOnes (stack : List Nat) (prob : List Word) : List Word := stack.foldl (fun q i => q.set i F64.one) prob

/-- `build(w, n)` with n the number of weights (R153). -/
def buildTables (w : List Word) : Tables :=
  let b := balanceLoop w.length (balanceStart w)
  { b.tables with prob := fillOnes b.small (fillOnes b.large b.tables.prob) }

/-- `sample(prob, alias, n, r1, r2)` (R155), the tables given by what reading entry `i` of each answers. Only the
entries R155 uses are read (log 6). -/
def sample (probAt aliasAt : Nat → Except Stop Word) (n : Nat) (r1 r2 : Word) : Except Stop Word := do
  let i ← scaleDouble r1 n
  let p ← probAt i
  if F64.lt r2 p then return BitVec.ofNat 64 i else aliasAt i

/-- Reading a table that is no RAM: the selector's own (R183). -/
def Tables.probAt (t : Tables) (i : Nat) : Except Stop Word := .ok (t.prob.getD i F64.zero)

/-- The selector's own alias table, as 64-bit entries. -/
def Tables.aliasAt (t : Tables) (i : Nat) : Except Stop Word := .ok (BitVec.ofNat 64 (t.aliasOf.getD i 0))

end Sys2Proof.Machine
end

