-- ==== Sys2Proof/Machine/Operands.lean ====
section
/-! DEFINITION. Operand assembly, every kind of R93. A u64 operand is its register as it stands; a binary64 operand is
its register's 64 bits, the encoding (R10); the other kinds are checked here, each failing check E_OPERAND (R234). -/

namespace Sys2Proof.Machine

/-- A u32 operand: bits [31:0], legal when bits [63:32] are zero (R93). -/
def operandU32 (w : Word) : Except Stop Word32 :=
  if w.extractLsb' 32 32 = 0#32 then .ok (w.setWidth 32) else .error (.device .operand)

/-- A length or count operand in `[lo, hi]` (R93), its value as a number. -/
def operandRange (w : Word) (lo hi : Nat) : Except Stop Nat :=
  if w.toNat < lo ∨ hi < w.toNat then .error (.device .operand) else .ok w.toNat

/-- The byte-string operand SEED_BUF[0 .. n-1] (R93). -/
def operandSeedBytes (s : State) (n : Nat) : Except Stop (List Byte) := readByteCells s.mem .seedBuf 0 n

/-- The weight vector asf64(WEIGHT[0 .. n-1]) (R93, R151). -/
def operandWeights (s : State) (n : Nat) : Except Stop (List Word) := readWordCells s.mem .weight 0 n

/-- The checks (a), (b), (c) that MIX and PART share (R201), giving (FLEN, FCOUNT) as numbers; the product is exact. -/
def operandFragments (s : State) : Except Stop (Nat × Nat) := do
  let flen ← operandRange s.flen 1 s.params.flenMax
  let fcount ← operandRange s.fcount 1 s.params.nMax
  require (decide (fcount * flen ≤ s.params.fragBytes)) .operand
  return (flen, fcount)

/-- The check (d) of MIX: no `IDX[k] = 1` with `k ≥ FCOUNT` (R201). -/
def operandIndexSet (s : State) (fcount : Nat) : Except Stop Unit :=
  require (decide (s.idx / 2 ^ fcount = 0)) .operand

end Sys2Proof.Machine
end

