-- ==== Sys2Proof/Machine/AliasSampler.lean ====
section
/-! DEFINITION. The commands of the alias sampler (R156 to R158). -/

namespace Sys2Proof.Machine

/-- ALIAS_BUILD (R156): weights read, then checked, then the tables written. -/
def execAliasBuild (s : State) : Host.Outcome State Fault Refusal :=
  finish .aliasBuild s do
    let n ← operandRange s.arg0 1 s.params.nMax
    let w ← operandWeights s n
    checkWeights w
    let t := buildTables w
    let m := writeWordCells s.mem .prob 0 t.prob
    return { s with
      mem := writeWordCells m .aliasTab 0 (t.aliasOf.map (BitVec.ofNat 64))
      aliasN := s.arg0
      aliasValid := true }

/-- The uniform operand of ALIAS_SAMPLE lies in [0, 1) (R157). -/
def uniformValid (r : Word) : Bool := F64.ge r F64.zero && F64.lt r F64.one

/-- `sample` on the user's tables (R157, R158). -/
def sampleUser (s : State) (r1 r2 : Word) : Except Stop Word :=
  sample (readWordCell s.mem .prob) (readWordCell s.mem .aliasTab) s.aliasN.toNat r1 r2

/-- ALIAS_SAMPLE (R157). -/
def execAliasSample (s : State) : Host.Outcome State Fault Refusal :=
  finish .aliasSample s do
    requireTable s
    require (uniformValid s.arg0 && uniformValid s.arg1) .operand
    let v ← sampleUser s s.arg0 s.arg1
    return { s with res0 := v }

/-- ALIAS_SAMPLE_RNG (R158): r1 is the first draw. -/
def execAliasSampleRng (s : State) : Host.Outcome State Fault Refusal :=
  finish .aliasSampleRng s do
    requireTable s
    requireSeeded s
    let (r1, g1) ← nextDouble s.prng
    let (r2, g2) ← nextDouble g1
    let v ← sampleUser s r1 r2
    return { s with res0 := v, prng := g2 }

end Sys2Proof.Machine
end

