-- ==== Sys2Proof/Machine/Selector.lean ====
section
/-! DEFINITION. The fragment index selector (R180 to R187) and SELECT. -/

namespace Sys2Proof.Machine

/-- What the selection function returns: the set, in the order picked, its size `d` and `fast` (R180). -/
structure Selection where
  set : List Nat
  degree : Nat
  fast : Bool
  deriving DecidableEq, Repr

/-- The selector's seed `{be32(seqNum), be32(checksum)}` (R182). -/
def selectorSeed (seqNum checksum : Word32) : Prng := hashSeed (be32 seqNum ++ be32 checksum)

/-- The harmonic weights `w[i-1] = fdiv(1.0, f64(i))` for i in 1..n (R183). -/
def harmonicWeights (n : Nat) : List Word := (List.range n).map (fun i => F64.div F64.one (F64.ofNat (i + 1)))

/-- The pick-and-remove shuffle of R183, `n` picks: one `nextInt(G, 0, len - 1)` a pick, the picked element removed. -/
def shuffle : Nat → Prng → List Nat → Except Stop (List Nat)
  | 0, _, _ => .ok []
  | n + 1, g, rem => do
    let (j, g') ← nextInt g 0#64 (BitVec.ofNat 64 (rem.length - 1))
    let order ← shuffle n g' (rem.eraseIdx j.toNat)
    return rem.getD j.toNat 0 :: order

/-- The path of R183 that uses the generator: degree from the harmonic tables, then the whole shuffle. -/
def selectByDraws (seqNum : Word32) (seqLen : Nat) (checksum : Word32) : Except Stop Selection := do
  let t := buildTables (harmonicWeights seqLen)
  let (r1, g1) ← nextDouble (selectorSeed seqNum checksum)
  let (r2, g2) ← nextDouble g1
  let i ← sample t.probAt t.aliasAt seqLen r1 r2
  let d := i.toNat + 1
  let order ← shuffle seqLen g2 (List.range seqLen)
  return { set := order.take d, degree := d, fast := false }

/-- `selectFragmentIndexes(seqNum, seqLen, checksum)` (R183). -/
def selectFragmentIndexes (seqNum : Word32) (seqLen : Nat) (checksum : Word32) : Except Stop Selection :=
  if 1 ≤ seqNum.toNat ∧ seqNum.toNat ≤ seqLen then .ok { set := [seqNum.toNat - 1], degree := 1, fast := true }
  else selectByDraws seqNum seqLen checksum

/-- What SELECT and PART write of a selection: every bit of IDX, RES0 = d, RES1 = fast (R184, R186, R206). -/
def State.withSelection (s : State) (sel : Selection) : State :=
  { s with idx := idxOfSet sel.set, res0 := BitVec.ofNat 64 sel.degree, res1 := if sel.fast then 1#64 else 0#64 }

/-- SELECT (R186). -/
def execSelect (s : State) : Host.Outcome State Fault Refusal :=
  finish .select s do
    let seqNum ← operandU32 s.arg0
    let checksum ← operandU32 s.arg2
    let seqLen ← operandRange s.arg1 1 s.params.nMax
    let sel ← selectFragmentIndexes seqNum seqLen checksum
    return s.withSelection sel

end Sys2Proof.Machine
end

