-- ==== Sys2Proof/Machine/Mixer.lean ====
section
/-! DEFINITION. The XOR fragment mixer (R200 to R207): MIX and PART. -/

namespace Sys2Proof.Machine

/-- Byte `j` of the mix over fragments `k` to `k + n - 1`, from left to right (R202): only bytes of selected fragments
are read. -/
def mixByte (m : List Host.Cell) (idx flen j : Nat) : Nat → Nat → Byte → Except Stop Byte
  | 0, _, acc => .ok acc
  | n + 1, k, acc =>
    if idx.testBit k then do
      let b ← readByteCell m .frag (k * flen + j)
      mixByte m idx flen j n (k + 1) (acc ^^^ b)
    else mixByte m idx flen j n (k + 1) acc

/-- Bytes `j` to `j + n - 1` of the mix (R202). -/
def mixBytes (m : List Host.Cell) (idx flen fcount : Nat) : Nat → Nat → Except Stop (List Byte)
  | 0, _ => .ok []
  | n + 1, j => do
    let b ← mixByte m idx flen j fcount 0 0#8
    let bs ← mixBytes m idx flen fcount n (j + 1)
    return b :: bs

/-- `mix(IDX, FLEN, FCOUNT)` (R202). -/
def mixFragments (m : List Host.Cell) (idx flen fcount : Nat) : Except Stop (List Byte) :=
  mixBytes m idx flen fcount flen 0

/-- The number of `k` in 0..FCOUNT-1 with `IDX[k] = 1` (R205). -/
def idxCount (idx fcount : Nat) : Nat := (List.range fcount).countP idx.testBit

/-- MIX (R205). -/
def execMix (s : State) : Host.Outcome State Fault Refusal :=
  finish .mix s do
    let (flen, fcount) ← operandFragments s
    operandIndexSet s fcount
    let o ← mixFragments s.mem s.idx flen fcount
    return { s with mem := writeByteCells s.mem .out 0 o, res0 := BitVec.ofNat 64 (idxCount s.idx fcount) }

/-- PART (R206): every check, draw and read before any write. -/
def execPart (s : State) : Host.Outcome State Fault Refusal :=
  finish .part s do
    let seqNum ← operandU32 s.arg0
    let checksum ← operandU32 s.arg2
    let (flen, fcount) ← operandFragments s
    let sel ← selectFragmentIndexes seqNum fcount checksum
    let o ← mixFragments s.mem (idxOfSet sel.set) flen fcount
    return { s.withSelection sel with mem := writeByteCells s.mem .out 0 o }

end Sys2Proof.Machine
end

