-- ==== Sys2Proof/Machine/Prng.lean ====
section
/-! DEFINITION. The commands of the generator (R125 to R135). Each meaning is the command's computation on the state
before it, closed by `finish` (R240, R270). -/

namespace Sys2Proof.Machine

/-- PRNG_SEED_WORDS (R125): the words are the state, unhashed (90_conflicts.md C1). -/
def execPrngSeedWords (s : State) : Host.Outcome State Fault Refusal :=
  finish .prngSeedWords s (.ok (s.seedWith ⟨s.arg0, s.arg1, s.arg2, s.arg3⟩))

/-- PRNG_SEED_BYTES32 (R126). -/
def execPrngSeedBytes32 (s : State) : Host.Outcome State Fault Refusal :=
  finish .prngSeedBytes32 s do
    let _ ← operandRange s.seedLen 32 32
    let b ← operandSeedBytes s 32
    return s.seedWith (pack256 b)

/-- PRNG_SEED_HASH (R127). -/
def execPrngSeedHash (s : State) : Host.Outcome State Fault Refusal :=
  finish .prngSeedHash s do
    let n ← operandRange s.seedLen 0 s.params.seedMax
    let b ← operandSeedBytes s n
    return s.seedWith (hashSeed b)

/-- PRNG_SEED_U32 (R128). -/
def execPrngSeedU32 (s : State) : Host.Outcome State Fault Refusal :=
  finish .prngSeedU32 s do
    let v ← operandU32 s.arg0
    return s.seedWith (hashSeed (be32 v))

/-- PRNG_NEXT (R129). -/
def execPrngNext (s : State) : Host.Outcome State Fault Refusal :=
  finish .prngNext s do
    requireSeeded s
    let (x, g) := next s.prng
    return { s with res0 := x, prng := g }

/-- PRNG_NEXT_DOUBLE (R130). -/
def execPrngNextDouble (s : State) : Host.Outcome State Fault Refusal :=
  finish .prngNextDouble s do
    requireSeeded s
    let (d, g) ← nextDouble s.prng
    return { s with res0 := d, prng := g }

/-- PRNG_NEXT_INT (R131). -/
def execPrngNextInt (s : State) : Host.Outcome State Fault Refusal :=
  finish .prngNextInt s do
    requireSeeded s
    let (v, g) ← nextInt s.prng s.arg0 s.arg1
    return { s with res0 := v, prng := g }

/-- PRNG_NEXT_BYTE (R132). -/
def execPrngNextByte (s : State) : Host.Outcome State Fault Refusal :=
  finish .prngNextByte s do
    requireSeeded s
    let (b, g) ← nextByte s.prng
    return { s with res0 := b.setWidth 64, prng := g }

/-- PRNG_NEXT_BYTES (R133): every draw before any write. -/
def execPrngNextBytes (s : State) : Host.Outcome State Fault Refusal :=
  finish .prngNextBytes s do
    requireSeeded s
    let n ← operandRange s.arg0 0 s.params.flenMax
    let (bs, g) ← nextBytes s.prng n
    return { s with mem := writeByteCells s.mem .out 0 bs, prng := g }

/-- PRNG_JUMP (R134). -/
def execPrngJump (s : State) : Host.Outcome State Fault Refusal :=
  finish .prngJump s do
    requireSeeded s
    return { s with prng := jumpBy s.prng jumpConst }

/-- PRNG_LONG_JUMP (R135). -/
def execPrngLongJump (s : State) : Host.Outcome State Fault Refusal :=
  finish .prngLongJump s do
    requireSeeded s
    return { s with prng := jumpBy s.prng longJumpConst }

end Sys2Proof.Machine
end

