-- ==== Sys2Proof/Machine/System.lean ====
section
/-! DEFINITION. The system command (R220). -/

namespace Sys2Proof.Machine

/-- NOP (R220): the device step only clears BUSY. -/
def execNop (s : State) : Host.Outcome State Fault Refusal := finish .nop s (.ok s)

end Sys2Proof.Machine
end

