-- ==== Sys2Proof/Machine/Dispatch.lean ====
section
/-! DEFINITION. The one match over the instruction set: each arm calls its instruction's meaning. -/

namespace Sys2Proof.Machine

def exec (i : Instr) (s : State) : Host.Outcome State Fault Refusal :=
  match i with
  | .nop => Sys2Proof.Machine.execNop s
  | .prngSeedWords => Sys2Proof.Machine.execPrngSeedWords s
  | .prngSeedBytes32 => Sys2Proof.Machine.execPrngSeedBytes32 s
  | .prngSeedHash => Sys2Proof.Machine.execPrngSeedHash s
  | .prngSeedU32 => Sys2Proof.Machine.execPrngSeedU32 s
  | .prngNext => Sys2Proof.Machine.execPrngNext s
  | .prngNextDouble => Sys2Proof.Machine.execPrngNextDouble s
  | .prngNextInt => Sys2Proof.Machine.execPrngNextInt s
  | .prngNextByte => Sys2Proof.Machine.execPrngNextByte s
  | .prngNextBytes => Sys2Proof.Machine.execPrngNextBytes s
  | .prngJump => Sys2Proof.Machine.execPrngJump s
  | .prngLongJump => Sys2Proof.Machine.execPrngLongJump s
  | .aliasBuild => Sys2Proof.Machine.execAliasBuild s
  | .aliasSample => Sys2Proof.Machine.execAliasSample s
  | .aliasSampleRng => Sys2Proof.Machine.execAliasSampleRng s
  | .select => Sys2Proof.Machine.execSelect s
  | .mix => Sys2Proof.Machine.execMix s
  | .part => Sys2Proof.Machine.execPart s

end Sys2Proof.Machine
end

