-- ==== Sys2Proof/Machine/Device.lean ====
section
/-! DEFINITION. The device step (R270) and the events of a run (R271). -/

namespace Sys2Proof.Machine

/-- The command word the device step performs, when the step is enabled: the latch is full and FAULT = 0 (R270). -/
def State.pendingCommand (s : State) : Option Word := if s.fault then none else s.latch

/-- A turn of the device. Enabled, it decodes the latched word and performs the command, or takes E_ILLEGAL with
OPC = c[7:0] (R91, R231); not enabled, it does nothing (R262). -/
def deviceTurn (s : State) : Host.Outcome State Fault Refusal :=
  match s.pendingCommand with
  | none => .next s
  | some c =>
    match decode c with
    | .ok i => exec i s
    | .error _ => .next (s.commandFault .illegal (opcField c))

/-- One event of a run (R271, R260). -/
def performEvent (e : Event) (s : State) : Host.Outcome State Fault Refusal :=
  match e with
  | .busRead addr width => hostRead s addr width
  | .busWrite addr width v => .next (hostWrite s addr width v)
  | .reset => .next s.deviceReset
  | .hostLocal => .next s
  | .deviceTurn => deviceTurn s

/-- The state with its next event taken off the schedule. -/
def State.withInputs (s : State) (rest : List Event) : State := { s with inputs := rest }

end Sys2Proof.Machine
end

