-- ==== Sys2Proof/Machine/Step.lean ====
section
/-! DEFINITION. The step: the next event of the schedule, or, when none is left, a turn of the device (R271, R272). -/

namespace Sys2Proof.Machine

/-- One step of a run. The schedule says who moves (log 2); once it is used up the device takes every turn, so a
latched command is always performed in the end (R272). -/
def step (s : State) : Host.Outcome State Fault Refusal :=
  match s.inputs with
  | [] => deviceTurn s
  | e :: rest => performEvent e (s.withInputs rest)

/-- `s` with a command word where the next step takes its command from (log 9): the word in the latch, FAULT clear so
that the device step is enabled (R270), and the device's turn next. The device fetches nothing (R74): this stands for
the host's accepted write to CMD (R91). -/
def State.withFetchWord (s : State) (nbits w : Nat) : State :=
  { s with latch := some (BitVec.ofNat 64 (w % 2 ^ nbits)), fault := false, inputs := .deviceTurn :: s.inputs }

end Sys2Proof.Machine
end

