-- ==== Sys2Proof/Safety.lean ====
section
/-! DEFINITION. What claims are stated in: the invariants of the machine, what a command's fault leaves, the draws of a
generator one by one, and the legality of an access spelled out from the address map (R61, R62, R65). -/

namespace Sys2Proof.Machine

/-! ### Invariants -/

/-- The address belongs to the implemented part of a RAM window (R61). -/
def Memory.implemented (p : Params) (a : Nat) : Bool :=
  [Ram.seedBuf, .weight, .prob, .aliasTab, .frag, .out].any
    (fun r => decide (r.base ≤ a) && decide (a < r.base + r.cellBytes * r.cells p))

/-- The invariant of the machine: legal parameters (R6); memory in its canonical form and only in implemented cells
(R61); no bit of IDX at N_MAX or above (R45); the fault record empty before a fault, and after one a code of R230 with
the latch empty (R29, R241, R242); FAULT_INFO's reserved bits zero (R38). -/
abbrev State.Inv (s : State) : Prop :=
  s.params.Legal ∧ Memory.wf s.mem ∧ (∀ c ∈ s.mem, Memory.implemented s.params c.1 = true) ∧
  s.idx < 2 ^ s.params.nMax ∧
  (s.fault = false → s.faultCode = 0#8 ∧ s.faultInfo = 0#64) ∧
  (s.fault = true → 1#8 ≤ s.faultCode ∧ s.faultCode ≤ 7#8 ∧ s.latch = none) ∧
  s.faultInfo.extractLsb' 33 7 = 0#7 ∧ s.faultInfo.extractLsb' 48 16 = 0#16

/-- Every entry of a word RAM is written whole or not at all: a listed address of WEIGHT, PROB or ALIAS has all eight
bytes of its entry listed (R48, R67). -/
abbrev State.EntriesWhole (s : State) : Prop :=
  ∀ c ∈ s.mem, 0x02000000 ≤ c.1 → c.1 < 0x05000000 → (Memory.readBytes s.mem (c.1 - c.1 % 8) 8).isSome = true

/-- Entry `i` of both tables is written and the ALIAS entry is an index below `n` (R44, R154). -/
def tableEntryUsable (m : List Host.Cell) (n i : Nat) : Bool :=
  match readWordCell m .prob i, readWordCell m .aliasTab i with
  | .ok _, .ok a => decide (a.toNat < n)
  | _, _ => false

/-- Once a table is valid its size is in range and all its entries can be sampled (R34, R44). -/
abbrev State.TablesUsable (s : State) : Prop :=
  s.aliasValid = true →
    1 ≤ s.aliasN.toNat ∧ s.aliasN.toNat ≤ s.params.nMax ∧
    ∀ i < s.aliasN.toNat, tableEntryUsable s.mem s.aliasN.toNat i = true

/-! ### The end of a run -/

/-- The run has ended: no event is left and BUSY = 0 (R15). -/
abbrev State.RunEnded (s : State) : Prop := s.inputs = [] ∧ s.busy = false

/-- A good end of a run: FAULT = 0 (R15). -/
abbrev State.GoodEnd (s : State) : Prop := s.RunEnded ∧ s.fault = false

/-! ### Faults of commands -/

/-- The state fault entry leaves after command `i` with code `code`: FAULT, FAULT_CODE, FAULT_INFO = {ADDR 0x18,
WRITE 1, OPC} and BUSY written, nothing else (R38, R241). -/
abbrev faulted (i : Instr) (s : State) (code : BitVec 8) : State :=
  { s with
    fault := true, faultCode := code, latch := none
    faultInfo := 0x0000000100000018#64 ||| (opcodeOf i).setWidth 64 <<< 40 }

/-- Command `i` in state `s` takes the fault `code`. -/
abbrev TakesFault (i : Instr) (s : State) (code : BitVec 8) : Prop := exec i s = .next (faulted i s code)

/-! ### Draws -/

/-- A draw that `nextDouble` maps below 1.0 (R119). -/
abbrev DrawOk (x : Word) : Prop := x.toNat < 2 ^ 64 - 1024

/-- The state after `n` draws. -/
def afterDraws (g : Prng) : Nat → Prng
  | 0 => g
  | n + 1 => afterDraws (next g).2 n

/-- Draw number `k` from state `g`, counting from 0. -/
def nthDraw (g : Prng) (k : Nat) : Word := (next (afterDraws g k)).1

/-- The binary64 a draw below the limit is mapped to: `fdiv(f64(x), 2^64)` (R119). -/
def drawDouble (x : Word) : Word := F64.div (F64.ofNat x.toNat) (F64.ofNat (2 ^ 64))

/-- `ftrunc(fmul(d, f64(m)))` of a draw's double (R120). -/
def drawScaled (x : Word) (m : Nat) : Nat := F64.trunc (F64.mul (drawDouble x) (F64.ofNat m))

/-- The order in which R183's shuffle picks from `rem`, `n` picks, pick number `k` decided by draw `x k` (R183). -/
def pickOrder (x : Nat → Word) : Nat → Nat → List Nat → List Nat
  | 0, _, _ => []
  | n + 1, k, rem =>
    rem.getD (drawScaled (x k) rem.length) 0 ::
      pickOrder x n (k + 1) (rem.eraseIdx (drawScaled (x k) rem.length))

/-- The eight bytes `b(o), …, b(o+7)` as a number, the first most significant (R11). -/
def bigEndian8 (b : Nat → Byte) (o : Nat) : Word :=
  BitVec.ofNat 64 ((List.range 8).map (fun n => (b (o + n)).toNat * 2 ^ (8 * (7 - n)))).sum

/-- The exclusive or of the bytes `f k` over the `k` below `n` selected by `idx`, from 0x00 (R202). -/
def xorSelected (idx n : Nat) (f : Nat → Byte) : Byte :=
  ((List.range n).filter idx.testBit).foldl (fun acc k => acc ^^^ f k) 0x00#8

/-- The uniform operands of ALIAS_SAMPLE: `fge(r, 0.0)` and `flt(r, 1.0)` (R157). -/
abbrev Uniform (r : Word) : Prop := F64.ge r F64.zero = true ∧ F64.lt r F64.one = true

/-- The operand checks (a) to (c) that MIX and PART share (R201). -/
abbrev FragmentsLegal (s : State) : Prop :=
  (1 ≤ s.flen.toNat ∧ s.flen.toNat ≤ s.params.flenMax) ∧ (1 ≤ s.fcount.toNat ∧ s.fcount.toNat ≤ s.params.nMax) ∧
  s.fcount.toNat * s.flen.toNat ≤ s.params.fragBytes

/-- The operand checks of SELECT (R186). -/
abbrev SelectLegal (s : State) : Prop :=
  s.arg0.toNat < 2 ^ 32 ∧ s.arg2.toNat < 2 ^ 32 ∧ 1 ≤ s.arg1.toNat ∧ s.arg1.toNat ≤ s.params.nMax

/-- The weights pass R152: each at least 0.0 and not +∞, their sum above 0.0 and not +∞. -/
abbrev WeightsLegal (w : List Word) : Prop :=
  (∀ x ∈ w, F64.ge x F64.zero = true ∧ x ≠ F64.inf) ∧
  F64.lt F64.zero (w.foldl F64.add F64.zero) = true ∧ w.foldl F64.add F64.zero ≠ F64.inf

/-- R153 from its main loop to its end, as a relation: from scaled weights `p` and the stacks `small` and `large`, top
first, the tables become `prob` and `aliasOf`. While both stacks hold an index, the popped small index `a` gets its
probability and alias for good and the popped large index `g` goes back with its new weight; at the end each index left
over has probability 1.0 and the alias 0 it started with. -/
inductive PairsTo : (Nat → Word) → List Nat → List Nat → (Nat → Word) → (Nat → Nat) → Prop
  | leftover (p : Nat → Word) (small large : List Nat) (prob : Nat → Word) (aliasOf : Nat → Nat)
      (done : small = [] ∨ large = []) (rest : ∀ i ∈ small ++ large, prob i = F64.one ∧ aliasOf i = 0) :
      PairsTo p small large prob aliasOf
  | pair (p : Nat → Word) (a g : Nat) (small large : List Nat) (prob : Nat → Word) (aliasOf : Nat → Nat) (pg : Word)
      (hp : prob a = p a) (ha : aliasOf a = g) (hg : pg = F64.add (p g) (F64.sub (p a) F64.one))
      (next : PairsTo (fun i => if i = g then pg else p i) (if F64.lt pg F64.one then g :: small else small)
        (if F64.lt pg F64.one then large else g :: large) prob aliasOf) :
      PairsTo p (a :: small) (g :: large) prob aliasOf

/-! ### binary64 -/

/-- `d` is neither an infinity nor a NaN: its exponent field is not all ones. -/
abbrev FiniteF64 (d : Word) : Prop := (d.extractLsb' 52 11).toNat < 2047

/-- `mag` is the magnitude encoding roundTiesToEven gives the exact value `num / den` units of 2^-1074 (R10): +∞ exactly
from halfway between the greatest finite magnitude and 2^1024 up; below it, a finite magnitude than which no finite one
is nearer, its encoding even where another is as near. -/
abbrev NearestEven (num den mag : Nat) : Prop :=
  mag ≤ F64.infBits ∧ (mag = F64.infBits ↔ (2 ^ 54 - 1) * 2 ^ 2044 * den ≤ num) ∧
  (mag < F64.infBits → ∀ other < F64.infBits,
    ((num : Int) - (F64.unitsOf mag * den : Nat)).natAbs ≤ ((num : Int) - (F64.unitsOf other * den : Nat)).natAbs ∧
    (((num : Int) - (F64.unitsOf mag * den : Nat)).natAbs = ((num : Int) - (F64.unitsOf other * den : Nat)).natAbs →
      other ≠ mag → mag % 2 = 0))

/-- `d` is the exact value of magnitude `num / den` units of 2^-1074 and sign `negative`, rounded once (R10). -/
abbrev RoundedOnce (negative : Bool) (num den : Nat) (d : Word) : Prop :=
  F64.sign d = negative ∧ NearestEven num den (F64.magBits d)

/-! ### Memory -/

/-- The two memories read the same at every address outside `[lo, lo + n)`. -/
abbrev SameOutside (m m' : List Host.Cell) (lo n : Nat) : Prop :=
  ∀ a, (a < lo ∨ lo + n ≤ a) → Memory.readByte m' a = Memory.readByte m a

/-! ### Host accesses -/

/-- The legal accesses of R62 and R65, window by window (R61). -/
abbrev accessLegal (p : Params) (a width : Nat) (write : Bool) : Prop :=
  (width = 8 ∧ a % 8 = 0 ∧ a < 0x98 ∧ (write = true → a ∈ [0x18, 0x20, 0x28, 0x30, 0x38, 0x78, 0x80, 0x88])) ∨
  (width = 1 ∧ 0x01000000 ≤ a ∧ a < 0x01000000 + p.seedMax) ∨
  (width = 8 ∧ a % 8 = 0 ∧ 0x02000000 ≤ a ∧ a < 0x02000000 + 8 * p.nMax) ∨
  (width = 8 ∧ a % 8 = 0 ∧ 0x03000000 ≤ a ∧ a < 0x03000000 + 8 * p.nMax ∧ write = false) ∨
  (width = 8 ∧ a % 8 = 0 ∧ 0x04000000 ≤ a ∧ a < 0x04000000 + 8 * p.nMax ∧ write = false) ∨
  (width = 8 ∧ a % 8 = 0 ∧ 0x05000000 ≤ a ∧ a < 0x05000000 + 8 * ((p.nMax + 63) / 64)) ∨
  (width = 1 ∧ 0x06000000 ≤ a ∧ a < 0x06000000 + p.fragBytes) ∨
  (width = 1 ∧ 0x07000000 ≤ a ∧ a < 0x07000000 + p.flenMax ∧ write = false)

/-- The state fault entry leaves after a host access: ADDR the access's, WRITE 1 for a write, OPC 0 (R236, R237). -/
abbrev accessFaulted (s : State) (code : BitVec 8) (addr : Addr) (write : Bool) : State :=
  { s with
    fault := true, faultCode := code, latch := none
    faultInfo := addr.setWidth 64 ||| (if write then 0x0000000100000000#64 else 0#64) }

end Sys2Proof.Machine
end

