-- ==== Sys2Proof/Certificates/Slice0/Obligations.lean ====
section
/-! DEFINITION. The statements for the provers. Each docstring names the rule of spec/ it rests on. -/

open Sys2Proof Sys2Proof.Machine

/-! ### Encoding -/

/-- The 18 words of the opcode map decode to their commands (R90, R94). -/
def Obligations.OpcodeMapDecodes : Prop :=
  decode 0x0000000000000000#64 = .ok .nop ∧ decode 0x0000000000000001#64 = .ok .prngSeedWords ∧
  decode 0x0000000000000002#64 = .ok .prngSeedBytes32 ∧ decode 0x0000000000000003#64 = .ok .prngSeedHash ∧
  decode 0x0000000000000004#64 = .ok .prngSeedU32 ∧ decode 0x0000000000000008#64 = .ok .prngNext ∧
  decode 0x0000000000000009#64 = .ok .prngNextDouble ∧ decode 0x000000000000000A#64 = .ok .prngNextInt ∧
  decode 0x000000000000000B#64 = .ok .prngNextByte ∧ decode 0x000000000000000C#64 = .ok .prngNextBytes ∧
  decode 0x000000000000000D#64 = .ok .prngJump ∧ decode 0x000000000000000E#64 = .ok .prngLongJump ∧
  decode 0x0000000000000010#64 = .ok .aliasBuild ∧ decode 0x0000000000000011#64 = .ok .aliasSample ∧
  decode 0x0000000000000012#64 = .ok .aliasSampleRng ∧ decode 0x0000000000000018#64 = .ok .select ∧
  decode 0x0000000000000020#64 = .ok .mix ∧ decode 0x0000000000000021#64 = .ok .part

/-- Decoding and encoding agree on all 2^64 words: a command's word decodes to it, and no other word does (R90, R94). -/
def Obligations.DecodeAgreesWithEncode : Prop :=
  (∀ i : Instr, decode (encode i) = .ok i) ∧ ∀ (c : Word) (i : Instr), decode c = .ok i → c = encode i

/-- A latched word with a reserved bit set or a reserved OPC takes E_ILLEGAL at the device step, FAULT_INFO holding its
OPC, and changes nothing else (R231, R95). -/
def Obligations.IllegalWordTakesFault : Prop :=
  ∀ (s : State) (c : Word) (rest : List Event), (s.inputs = [] ∧ rest = [] ∨ s.inputs = .deviceTurn :: rest) →
    s.fault = false → s.latch = some c →
    (c.extractLsb' 8 56 ≠ 0#56 ∨
      c.setWidth 8 ∈ [0x05#8, 0x06#8, 0x07#8, 0x0F#8] ∨ (0x13#8 ≤ c.setWidth 8 ∧ c.setWidth 8 ≤ 0x17#8) ∨
      (0x19#8 ≤ c.setWidth 8 ∧ c.setWidth 8 ≤ 0x1F#8) ∨ 0x22#8 ≤ c.setWidth 8) →
    step s = .next { s with
      fault := true, faultCode := 0x01#8, latch := none, inputs := rest
      faultInfo := 0x0000000100000018#64 ||| (c.setWidth 8).setWidth 64 <<< 40 }

/-! ### The step -/

/-- A step runs the decoded command: with the device's turn next, the step at a full latch is `exec` of the command the
latched word decodes to, on the state with that turn taken off the schedule (R91, R270). -/
def Obligations.StepRunsDecodedCommand : Prop :=
  ∀ (s : State) (c : Word) (i : Instr), s.fault = false → s.latch = some c → decode c = .ok i →
    (s.inputs = [] → step s = exec i s) ∧
    ∀ rest, s.inputs = .deviceTurn :: rest → step s = exec i { s with inputs := rest }

/-- The word that `withFetchWord` places is the next command performed. That FAULT is cleared for it is the model's
choice (log 9). -/
def Obligations.FetchWordRuns : Prop :=
  ∀ (s : State) (nbits w : Nat) (i : Instr), decodeTableWord nbits w = some i →
    step (s.withFetchWord nbits w) = exec i { s with latch := some (BitVec.ofNat 64 (w % 2 ^ nbits)), fault := false }

/-- The events of a run (R271), every one: a host access is the bus's answer to it, a local host action changes nothing,
a reset is the device's reset, a turn is the device's turn, and an empty schedule is a turn of the device. A turn of a
device with nothing to do changes nothing. The schedule is the model's (log 2), and so is what a disabled turn does
(log 8). -/
def Obligations.StepFollowsSchedule : Prop :=
  (∀ (s : State) addr w rest, s.inputs = .busRead addr w :: rest → step s = hostRead { s with inputs := rest } addr w) ∧
  (∀ (s : State) addr w v rest, s.inputs = .busWrite addr w v :: rest →
    step s = .next (hostWrite { s with inputs := rest } addr w v)) ∧
  (∀ (s : State) rest, s.inputs = .hostLocal :: rest → step s = .next { s with inputs := rest }) ∧
  (∀ (s : State) rest, s.inputs = .reset :: rest → step s = .next (State.deviceReset { s with inputs := rest })) ∧
  (∀ (s : State) rest, s.inputs = .deviceTurn :: rest → step s = deviceTurn { s with inputs := rest }) ∧
  (∀ s : State, s.inputs = [] → step s = deviceTurn s) ∧
  (∀ s : State, (s.latch = none ∨ s.fault = true) → deviceTurn s = .next s)

/-- A write to CMD on an idle device latches the whole word, sets BUSY and changes nothing else; a turn of the device
then performs the command the word decodes to (R30, R91, R92, R270). -/
def Obligations.HandshakeRunsCommand : Prop :=
  ∀ (s : State) (c : Word) (rest : List Event), s.fault = false → s.latch = none →
    s.inputs = .busWrite 0x00000018#32 8 c :: .deviceTurn :: rest →
    ∃ s1, step s = .next s1 ∧ s1 = { s with latch := some c, inputs := .deviceTurn :: rest } ∧ s1.busy = true ∧
      ∀ i, decode c = .ok i → step s1 = exec i { s with latch := some c, inputs := rest }

/-- Reset, at any step and whatever BUSY and FAULT are, leaves every state element at its value of R52; the latched
command is dropped (R52, R260). -/
def Obligations.ResetLeavesResetValues : Prop :=
  ∀ (s : State) (rest : List Event), s.inputs = .reset :: rest →
    ∃ t, step s = .next t ∧ t.params = s.params ∧ t.statusWord = 0#64 ∧ t.arg0 = 0#64 ∧ t.arg1 = 0#64 ∧ t.arg2 = 0#64 ∧
      t.arg3 = 0#64 ∧ t.res0 = 0#64 ∧ t.res1 = 0#64 ∧ t.prng = ⟨0#64, 0#64, 0#64, 0#64⟩ ∧ t.aliasN = 0#64 ∧
      t.seedLen = 0#64 ∧ t.flen = 0#64 ∧ t.fcount = 0#64 ∧ t.faultInfo = 0#64 ∧ t.idx = 0 ∧ t.latch = none ∧
      (∀ a, Memory.readByte t.mem a = none) ∧ t.fault = false ∧ t.faultCode = 0#8 ∧ t.inputs = rest

/-- What a command reads is the device's state alone: with another schedule or another last value read, it does the
same (R270). -/
def Obligations.CommandsIgnoreSchedule : Prop :=
  ∀ (i : Instr) (s t : State) (l : List Event) (v : Word), exec i s = .next t →
    exec i { s with inputs := l, readData := v } = .next { t with inputs := l, readData := v }

/-- For a host that only polls STATUS, the final state does not depend on when the device step happens (R274): a poll
before the turn and a poll after it end in the same state but for the value the poll returned. -/
def Obligations.PollingOrderIrrelevant : Prop :=
  ∀ (s t : State) (c : Word) (rest : List Event), s.fault = false → s.latch = some c →
    step { s with inputs := .deviceTurn :: rest } = .next t →
    ∃ u v, Sys2Proof.core.run 2 { s with inputs := .busRead 0x00000010#32 8 :: .deviceTurn :: rest } = .next u ∧
      Sys2Proof.core.run 2 { s with inputs := .deviceTurn :: .busRead 0x00000010#32 8 :: rest } = .next v ∧
      u = { v with readData := u.readData } ∧ v = { t with readData := t.statusWord }

/-- The model stops only where the spec stops: no step is refused, and a step that faults reads a RAM cell of which a
byte was never written (R48, R238). -/
def Obligations.StopsOnlyOnUnwrittenCell : Prop :=
  ∀ s : State, (∀ q, step s ≠ .refused q) ∧
    ∀ f, step s = .fault f → ∃ r i k, f = .uninitRead r i ∧ k < r.cellBytes ∧ Memory.readByte s.mem (r.addr i + k) = none

/-! ### Arithmetic -/

/-- binary64 arithmetic is exact and rounded once to nearest, ties to even, overflow included (R10). In turn: the
rounding itself; what an encoding stands for; `f64(n)`, `fadd`, `fmul`, `fdiv` and `ftrunc` of finite operands, zero
sums and zero divisors included, and `fsub` as `fadd` of the negated operand; `flt` and `fge`, false on a NaN; NaN and
infinite operands. Values are in units of 2^-1074. -/
def Obligations.RoundingIsNearestEven : Prop :=
  (∀ num den : Nat, 0 < den → NearestEven num den (F64.roundUnits num den)) ∧
  (∀ d : Word, F64.sign d = d.getLsbD 63 ∧
    (F64.isNaN d = true ↔ (d.extractLsb' 52 11).toNat = 2047 ∧ d.extractLsb' 0 52 ≠ 0#52) ∧
    (F64.isInf d = true ↔ (d.extractLsb' 52 11).toNat = 2047 ∧ d.extractLsb' 0 52 = 0#52) ∧
    F64.units d =
      (if (d.extractLsb' 52 11).toNat = 0 then (d.extractLsb' 0 52).toNat
      else (2 ^ 52 + (d.extractLsb' 0 52).toNat) * 2 ^ ((d.extractLsb' 52 11).toNat - 1)) ∧
    F64.value d = if F64.sign d then -(F64.units d : Int) else (F64.units d : Int)) ∧
  (∀ n : Nat, RoundedOnce false (n * 2 ^ 1074) 1 (F64.ofNat n)) ∧
  (∀ d : Word, FiniteF64 d → 0 ≤ F64.value d →
    F64.trunc d * 2 ^ 1074 ≤ F64.units d ∧ F64.units d < (F64.trunc d + 1) * 2 ^ 1074) ∧
  (∀ a b : Word, FiniteF64 a → FiniteF64 b →
    (F64.value a + F64.value b ≠ 0 →
      RoundedOnce (decide (F64.value a + F64.value b < 0)) (F64.value a + F64.value b).natAbs 1 (F64.add a b)) ∧
    (F64.value a + F64.value b = 0 →
      F64.add a b = if F64.sign a && F64.sign b then 0x8000000000000000#64 else 0x0000000000000000#64) ∧
    RoundedOnce (F64.sign a != F64.sign b) (F64.units a * F64.units b) (2 ^ 1074) (F64.mul a b) ∧
    (F64.units b ≠ 0 →
      RoundedOnce (F64.sign a != F64.sign b) (F64.units a * 2 ^ 1074) (F64.units b) (F64.div a b)) ∧
    (F64.units b = 0 → F64.units a = 0 → F64.isNaN (F64.div a b) = true) ∧
    (F64.units b = 0 → F64.units a ≠ 0 →
      F64.isInf (F64.div a b) = true ∧ F64.sign (F64.div a b) = (F64.sign a != F64.sign b))) ∧
  (∀ a b : Word, F64.sub a b = F64.add a (b ^^^ 0x8000000000000000#64)) ∧
  (∀ a b : Word, F64.isNaN a = true ∨ F64.isNaN b = true →
    F64.lt a b = false ∧ F64.ge a b = false ∧ F64.isNaN (F64.add a b) = true ∧ F64.isNaN (F64.mul a b) = true ∧
    F64.isNaN (F64.div a b) = true) ∧
  (∀ a b : Word, F64.isNaN a = false → F64.isNaN b = false →
    (F64.lt a b = true ↔ F64.value a < F64.value b) ∧ (F64.ge a b = true ↔ F64.value b ≤ F64.value a)) ∧
  ∀ a b : Word,
    (F64.isInf a = true → FiniteF64 b ∨ b = a → F64.add a b = a) ∧
    (FiniteF64 a → F64.isInf b = true → F64.add a b = b) ∧
    (F64.isInf a = true → F64.isInf b = true → a ≠ b → F64.isNaN (F64.add a b) = true) ∧
    (F64.isInf a = true ∨ F64.isInf b = true → F64.units a = 0 ∨ F64.units b = 0 → F64.isNaN (F64.mul a b) = true) ∧
    (F64.isInf a = true ∨ F64.isInf b = true → F64.isNaN a = false → F64.isNaN b = false → F64.units a ≠ 0 →
      F64.units b ≠ 0 → F64.isInf (F64.mul a b) = true ∧ F64.sign (F64.mul a b) = (F64.sign a != F64.sign b)) ∧
    (F64.isInf a = true → F64.isInf b = true → F64.isNaN (F64.div a b) = true) ∧
    (F64.isInf a = true → FiniteF64 b →
      F64.isInf (F64.div a b) = true ∧ F64.sign (F64.div a b) = (F64.sign a != F64.sign b)) ∧
    (FiniteF64 a → F64.isInf b = true →
      F64.units (F64.div a b) = 0 ∧ F64.sign (F64.div a b) = (F64.sign a != F64.sign b))

/-- For every `d` with 0 ≤ d < 1 and every integer `1 ≤ m ≤ 2^64 − 1`, `ftrunc(fmul(d, f64(m))) ≤ m − 1`; hence the
range guards of `nextInt` and of the bin index never fire (R136). -/
def Obligations.ScaledDrawStaysBelow : Prop :=
  ∀ (d : Word) (m : Nat), Uniform d → 1 ≤ m → m ≤ 2 ^ 64 - 1 →
    F64.trunc (F64.mul d (F64.ofNat m)) ≤ m - 1 ∧ scaleDouble d m = .ok (F64.trunc (F64.mul d (F64.ofNat m)))

/-! ### The generator -/

/-- `next(G)`, the xoshiro256** step, in closed form (R111). -/
def Obligations.NextIsXoshiroStep : Prop :=
  ∀ g : Prng, (next g).1 = (g.s1 * 5#64).rotateLeft 7 * 9#64 ∧
    (next g).2 =
      { s0 := g.s0 ^^^ (g.s3 ^^^ g.s1), s1 := g.s1 ^^^ (g.s2 ^^^ g.s0), s2 := (g.s2 ^^^ g.s0) ^^^ (g.s1 <<< 17),
        s3 := (g.s3 ^^^ g.s1).rotateLeft 45 }

/-- From the all-zero state every draw is 0 and the state stays all-zero, forever; a jump leaves it all-zero too
(R112, R134, R135). -/
def Obligations.ZeroStateStaysZero : Prop :=
  (∀ n, nthDraw ⟨0#64, 0#64, 0#64, 0#64⟩ n = 0#64 ∧
    afterDraws ⟨0#64, 0#64, 0#64, 0#64⟩ n = ⟨0#64, 0#64, 0#64, 0#64⟩) ∧
  jumpBy ⟨0#64, 0#64, 0#64, 0#64⟩ jumpConst = ⟨0#64, 0#64, 0#64, 0#64⟩ ∧
  jumpBy ⟨0#64, 0#64, 0#64, 0#64⟩ longJumpConst = ⟨0#64, 0#64, 0#64, 0#64⟩

/-- `nextDouble`: a draw of 2^64 − 1024 or more is E_RANGE; every other draw gives a binary64 in [0, 1) that is exactly
f64(x) / 2^64 (R119). -/
def Obligations.NextDoubleInUnitInterval : Prop :=
  ∀ g : Prng,
    (2 ^ 64 - 1024 ≤ (next g).1.toNat → nextDouble g = .error (.device .range)) ∧
    ((next g).1.toNat < 2 ^ 64 - 1024 →
      ∃ d, nextDouble g = .ok (d, (next g).2) ∧ d = drawDouble (next g).1 ∧ Uniform d ∧ F64.sign d = false ∧
        F64.units d * 2 ^ 64 = F64.units (F64.ofNat (next g).1.toNat))

/-- `jumpBy` takes the exclusive or of the states after `k` draws, over the set bits `k` of the jump constant (R122). -/
def Obligations.JumpIsXorOfSuccessors : Prop :=
  ∀ (g : Prng) (j0 j1 j2 j3 : Word),
    jumpBy g [j0, j1, j2, j3] =
      ((List.range 256).filter (fun k => ([j0, j1, j2, j3].getD (k / 64) 0#64).getLsbD (k % 64))).foldl
        (fun t k => t.xor (afterDraws g k)) ⟨0#64, 0#64, 0#64, 0#64⟩

/-- PRNG_JUMP and PRNG_LONG_JUMP skip ahead: the state after the jump is the state after 2^128 draws, and after 2^192
draws (R122, R134, R135). -/
def Obligations.JumpsSkipAhead : Prop :=
  ∀ g : Prng, jumpBy g jumpConst = afterDraws g (2 ^ 128) ∧ jumpBy g longJumpConst = afterDraws g (2 ^ 192)

/-! ### System and seeding commands -/

/-- NOP: OPC 0x00; in every state it only clears BUSY. The word 0x100, OPC 0x00 with a reserved bit set, is no NOP: the
device step at it takes E_ILLEGAL (R220). -/
def Obligations.NopOnlyClearsBusy : Prop :=
  encode .nop = 0x00#64 ∧ (∀ s : State, exec .nop s = .next { s with latch := none }) ∧
  ∀ s : State, s.inputs = [] → s.fault = false → s.latch = some 0x0000000000000100#64 →
    step s = .next { s with fault := true, faultCode := 0x01#8, faultInfo := 0x0000000100000018#64, latch := none }

/-- PRNG_SEED_WORDS: OPC 0x01; S ← ARG0..ARG3, SEEDED ← 1, no exception (R125). -/
def Obligations.SeedWordsSetsState : Prop :=
  encode .prngSeedWords = 0x01#64 ∧
  ∀ s : State, exec .prngSeedWords s =
    .next { s with prng := ⟨s.arg0, s.arg1, s.arg2, s.arg3⟩, seeded := true, latch := none }

/-- PRNG_SEED_BYTES32: OPC 0x02; E_OPERAND when SEED_LEN ≠ 32; else the 32 bytes packed first byte most significant,
SEEDED ← 1; UninitRead on a byte never written (R126). That it names the first such byte in rising order is the model's
reading of R239 (log 15). -/
def Obligations.SeedBytes32PacksBytes : Prop :=
  encode .prngSeedBytes32 = 0x02#64 ∧
  (∀ s : State, s.seedLen.toNat ≠ 32 → TakesFault .prngSeedBytes32 s 0x04#8) ∧
  (∀ (s : State) (b : Nat → Byte), s.seedLen.toNat = 32 → (∀ k < 32, readByteCell s.mem .seedBuf k = .ok (b k)) →
    exec .prngSeedBytes32 s = .next { s with
      prng := ⟨bigEndian8 b 0, bigEndian8 b 8, bigEndian8 b 16, bigEndian8 b 24⟩, seeded := true, latch := none }) ∧
  (∀ (s : State) (n : Nat), s.seedLen.toNat = 32 → n < 32 →
    (∀ k < n, ∃ b, readByteCell s.mem .seedBuf k = .ok b) → Memory.readByte s.mem (Ram.seedBuf.addr n) = none →
    exec .prngSeedBytes32 s = .fault (.uninitRead .seedBuf n))

/-- PRNG_SEED_HASH: OPC 0x03; E_OPERAND when SEED_LEN > SEED_MAX; else S ← pack256(sha256(the SEED_LEN bytes)),
SEEDED ← 1; UninitRead on a byte never written (R127). That it names the first such byte in rising order is the model's
reading of R239 (log 15). `sha256` has the two check values of R118. -/
def Obligations.SeedHashHashesBytes : Prop :=
  sha256 [] =
    [0xe3#8, 0xb0#8, 0xc4#8, 0x42#8, 0x98#8, 0xfc#8, 0x1c#8, 0x14#8, 0x9a#8, 0xfb#8, 0xf4#8, 0xc8#8, 0x99#8, 0x6f#8,
      0xb9#8, 0x24#8, 0x27#8, 0xae#8, 0x41#8, 0xe4#8, 0x64#8, 0x9b#8, 0x93#8, 0x4c#8, 0xa4#8, 0x95#8, 0x99#8, 0x1b#8,
      0x78#8, 0x52#8, 0xb8#8, 0x55#8] ∧
  sha256 [0x61#8, 0x62#8, 0x63#8] =
    [0xba#8, 0x78#8, 0x16#8, 0xbf#8, 0x8f#8, 0x01#8, 0xcf#8, 0xea#8, 0x41#8, 0x41#8, 0x40#8, 0xde#8, 0x5d#8, 0xae#8,
      0x22#8, 0x23#8, 0xb0#8, 0x03#8, 0x61#8, 0xa3#8, 0x96#8, 0x17#8, 0x7a#8, 0x9c#8, 0xb4#8, 0x10#8, 0xff#8, 0x61#8,
      0xf2#8, 0x00#8, 0x15#8, 0xad#8] ∧
  encode .prngSeedHash = 0x03#64 ∧
  (∀ s : State, s.params.seedMax < s.seedLen.toNat → TakesFault .prngSeedHash s 0x04#8) ∧
  (∀ (s : State) (b : List Byte), s.seedLen.toNat ≤ s.params.seedMax → b.length = s.seedLen.toNat →
    (∀ k (h : k < b.length), readByteCell s.mem .seedBuf k = .ok b[k]) →
    exec .prngSeedHash s = .next { s with prng := pack256 (sha256 b), seeded := true, latch := none }) ∧
  (∀ (s : State) (n : Nat), s.seedLen.toNat ≤ s.params.seedMax → n < s.seedLen.toNat →
    (∀ k < n, ∃ b, readByteCell s.mem .seedBuf k = .ok b) → Memory.readByte s.mem (Ram.seedBuf.addr n) = none →
    exec .prngSeedHash s = .fault (.uninitRead .seedBuf n))

/-- PRNG_SEED_U32: OPC 0x04; E_OPERAND when ARG0[63:32] ≠ 0; else S ← pack256(sha256(be32(ARG0[31:0]))),
SEEDED ← 1; on the CRC-32 of "Wolf" it is the state R128 gives (R128). -/
def Obligations.SeedU32HashesInteger : Prop :=
  encode .prngSeedU32 = 0x04#64 ∧
  pack256 (sha256 [0x59#8, 0x8c#8, 0x84#8, 0xdc#8]) =
    ⟨0x530c1f0542883298#64, 0x051e4efa4adbf209#64, 0xc7f9d8e794fb62fd#64, 0x3fd4b48739694080#64⟩ ∧
  (∀ s : State, 2 ^ 32 ≤ s.arg0.toNat → TakesFault .prngSeedU32 s 0x04#8) ∧
  (∀ s : State, s.arg0.toNat < 2 ^ 32 →
    exec .prngSeedU32 s = .next { s with
      prng := pack256 (sha256 [s.arg0.extractLsb' 24 8, s.arg0.extractLsb' 16 8, s.arg0.extractLsb' 8 8,
        s.arg0.extractLsb' 0 8])
      seeded := true, latch := none })

/-! ### Drawing commands -/

/-- PRNG_NEXT: OPC 0x08; E_UNSEEDED when SEEDED = 0; else RES0 ← the draw, S ← the next state (R129). -/
def Obligations.NextReturnsDraw : Prop :=
  encode .prngNext = 0x08#64 ∧
  (∀ s : State, s.seeded = false → TakesFault .prngNext s 0x02#8) ∧
  (∀ s : State, s.seeded = true →
    exec .prngNext s = .next { s with res0 := (next s.prng).1, prng := (next s.prng).2, latch := none })

/-- PRNG_NEXT_DOUBLE: OPC 0x09; E_UNSEEDED; E_RANGE, S unchanged, when the draw is 2^64 − 1024 or more; else RES0 ← the
draw's double (R130). -/
def Obligations.NextDoubleReturnsDouble : Prop :=
  encode .prngNextDouble = 0x09#64 ∧
  (∀ s : State, s.seeded = false → TakesFault .prngNextDouble s 0x02#8) ∧
  (∀ s : State, s.seeded = true → ¬ DrawOk (next s.prng).1 → TakesFault .prngNextDouble s 0x05#8) ∧
  (∀ s : State, s.seeded = true → DrawOk (next s.prng).1 →
    exec .prngNextDouble s =
      .next { s with res0 := drawDouble (next s.prng).1, prng := (next s.prng).2, latch := none })

/-- PRNG_NEXT_INT: OPC 0x0A; E_UNSEEDED; E_OPERAND when low > high or (low, high) = (0, 2^64 − 1); E_RANGE; else
RES0 ← low + trunc(d · f64(high − low + 1)), which lies in [low, high] (R120, R131). -/
def Obligations.NextIntReturnsScaledDraw : Prop :=
  encode .prngNextInt = 0x0A#64 ∧
  (∀ s : State, s.seeded = false → TakesFault .prngNextInt s 0x02#8) ∧
  (∀ s : State, s.seeded = true →
    (s.arg1.toNat < s.arg0.toNat ∨ (s.arg0.toNat = 0 ∧ s.arg1.toNat = 2 ^ 64 - 1)) → TakesFault .prngNextInt s 0x04#8) ∧
  (∀ s : State, s.seeded = true → s.arg0.toNat ≤ s.arg1.toNat → (s.arg0.toNat ≠ 0 ∨ s.arg1.toNat ≠ 2 ^ 64 - 1) →
    (¬ DrawOk (next s.prng).1 → TakesFault .prngNextInt s 0x05#8) ∧
    (DrawOk (next s.prng).1 →
      ∃ v : Word, exec .prngNextInt s = .next { s with res0 := v, prng := (next s.prng).2, latch := none } ∧
        v.toNat = s.arg0.toNat + drawScaled (next s.prng).1 (s.arg1.toNat - s.arg0.toNat + 1) ∧
        s.arg0.toNat ≤ v.toNat ∧ v.toNat ≤ s.arg1.toNat))

/-- PRNG_NEXT_BYTE: OPC 0x0B; E_UNSEEDED; E_RANGE; else RES0 ← trunc(d · 256), so RES0[63:8] = 0 (R121, R132). -/
def Obligations.NextByteReturnsByte : Prop :=
  encode .prngNextByte = 0x0B#64 ∧
  (∀ s : State, s.seeded = false → TakesFault .prngNextByte s 0x02#8) ∧
  (∀ s : State, s.seeded = true → ¬ DrawOk (next s.prng).1 → TakesFault .prngNextByte s 0x05#8) ∧
  (∀ s : State, s.seeded = true → DrawOk (next s.prng).1 →
    ∃ v : Word, exec .prngNextByte s = .next { s with res0 := v, prng := (next s.prng).2, latch := none } ∧
      v.toNat = drawScaled (next s.prng).1 256 ∧ v.toNat < 256)

/-- PRNG_NEXT_BYTES: OPC 0x0C; E_UNSEEDED; E_OPERAND when count > FLEN_MAX; E_RANGE from any of the draws, no OUT byte
and no word of S changed; else OUT[j] is draw j's byte for j < count, S is `count` draws on, and every other byte and
register stays (R133). -/
def Obligations.NextBytesFillsOut : Prop :=
  encode .prngNextBytes = 0x0C#64 ∧
  (∀ s : State, s.seeded = false → TakesFault .prngNextBytes s 0x02#8) ∧
  (∀ s : State, s.seeded = true → s.params.flenMax < s.arg0.toNat → TakesFault .prngNextBytes s 0x04#8) ∧
  (∀ (s : State) (k : Nat), s.seeded = true → s.arg0.toNat ≤ s.params.flenMax → k < s.arg0.toNat →
    ¬ DrawOk (nthDraw s.prng k) → TakesFault .prngNextBytes s 0x05#8) ∧
  (∀ s : State, s.seeded = true → s.arg0.toNat ≤ s.params.flenMax → (∀ k < s.arg0.toNat, DrawOk (nthDraw s.prng k)) →
    ∃ m, exec .prngNextBytes s =
        .next { s with mem := m, prng := afterDraws s.prng s.arg0.toNat, latch := none } ∧
      (∀ j < s.arg0.toNat, ∃ b, readByteCell m .out j = .ok b ∧ b.toNat = drawScaled (nthDraw s.prng j) 256) ∧
      SameOutside s.mem m 0x07000000 s.arg0.toNat)

/-- PRNG_JUMP and PRNG_LONG_JUMP: OPC 0x0D and 0x0E; E_UNSEEDED; else S ← jumpBy(S, the constant of R123), RES0
unchanged (R134, R135). -/
def Obligations.JumpsAdvanceState : Prop :=
  encode .prngJump = 0x0D#64 ∧ encode .prngLongJump = 0x0E#64 ∧
  (∀ s : State, s.seeded = false → TakesFault .prngJump s 0x02#8 ∧ TakesFault .prngLongJump s 0x02#8) ∧
  (∀ s : State, s.seeded = true →
    exec .prngJump s = .next { s with
      prng := jumpBy s.prng [0x180ec6d33cfd0aba#64, 0xd5a61266f0c9392c#64, 0xa9582618e03fc9aa#64, 0x39abdc4529b1661c#64]
      latch := none } ∧
    exec .prngLongJump s = .next { s with
      prng := jumpBy s.prng [0x76e15d3efefdcbbf#64, 0xc5004e441c522fb3#64, 0x77710069854ee241#64, 0x39109bb02acbe635#64]
      latch := none })

/-- E_UNSEEDED is raised by the eight commands of R230 when SEEDED = 0 (by ALIAS_SAMPLE_RNG once a table is built), and
by no other command, SELECT and PART among them (R230, R232, R239). -/
def Obligations.UnseededRaisedByDrawsOnly : Prop :=
  (∀ i ∈ [Instr.prngNext, .prngNextDouble, .prngNextInt, .prngNextByte, .prngNextBytes, .prngJump, .prngLongJump,
      .aliasSampleRng],
    ∀ s : State, s.seeded = false → (i = .aliasSampleRng → s.aliasValid = true) → TakesFault i s 0x02#8) ∧
  (∀ i ∉ [Instr.prngNext, .prngNextDouble, .prngNextInt, .prngNextByte, .prngNextBytes, .prngJump, .prngLongJump,
      .aliasSampleRng],
    ∀ s t : State, s.fault = false → exec i s = .next t → t.fault = true → t.faultCode ≠ 0x02#8)

/-! ### The alias sampler -/

/-- ALIAS_BUILD: OPC 0x10; E_OPERAND when n is not in [1, N_MAX]; then UninitRead on a WEIGHT entry never written; then
E_OPERAND when the weights fail R152; else PROB and ALIAS hold the built tables, ALIAS_N ← n, ALIAS_VALID ← 1, and every
other byte and register stays (R156; the tables are those of `BuildFollowsPairingLoop`). That every weight is read
before any is checked, and that UninitRead names the first unwritten one in rising order, is the model's reading of R12,
R156 and R239 (log 15). -/
def Obligations.AliasBuildWritesTables : Prop :=
  encode .aliasBuild = 0x10#64 ∧
  (∀ s : State, (s.arg0.toNat < 1 ∨ s.params.nMax < s.arg0.toNat) → TakesFault .aliasBuild s 0x04#8) ∧
  (∀ (s : State) (k : Nat), 1 ≤ s.arg0.toNat → s.arg0.toNat ≤ s.params.nMax → k < s.arg0.toNat →
    (∀ i < k, ∃ w, readWordCell s.mem .weight i = .ok w) → readWordCell s.mem .weight k = .error (.uninit .weight k) →
    exec .aliasBuild s = .fault (.uninitRead .weight k)) ∧
  (∀ (s : State) (w : List Word), 1 ≤ s.arg0.toNat → s.arg0.toNat ≤ s.params.nMax → w.length = s.arg0.toNat →
    (∀ i (h : i < w.length), readWordCell s.mem .weight i = .ok w[i]) →
    (¬ WeightsLegal w → TakesFault .aliasBuild s 0x04#8) ∧
    (WeightsLegal w → s.params.Legal →
      ∃ m, exec .aliasBuild s =
          .next { s with mem := m, aliasN := s.arg0, aliasValid := true, latch := none } ∧
        (∀ i < s.arg0.toNat, readWordCell m .prob i = .ok ((buildTables w).prob.getD i 0#64) ∧
          readWordCell m .aliasTab i = .ok (BitVec.ofNat 64 ((buildTables w).aliasOf.getD i 0))) ∧
        ∀ a, (a < 0x03000000 ∨ 0x03000000 + 8 * s.arg0.toNat ≤ a) → (a < 0x04000000 ∨ 0x04000000 + 8 * s.arg0.toNat ≤ a) →
          Memory.readByte m a = Memory.readByte s.mem a))

/-- The tables are what R153's pairing loop gives, written here as a relation on the scaled weights and the two stacks
(`PairsTo`), an index left over in either stack with probability 1.0 and alias 0; both have `n` entries, and every alias
entry is an index below `n` (R154). One weight that passes R152 gives PROB[0] = 1.0 and ALIAS[0] = 0 (R156). -/
def Obligations.BuildFollowsPairingLoop : Prop :=
  (∀ w : List Word, w ≠ [] →
    let sum := w.foldl F64.add F64.zero
    let p := fun i => F64.div (F64.mul (w.getD i 0#64) (F64.ofNat w.length)) sum
    PairsTo p ((List.range w.length).filter (fun i => F64.lt (p i) F64.one))
      ((List.range w.length).filter (fun i => !F64.lt (p i) F64.one))
      (fun i => (buildTables w).prob.getD i 0#64) (fun i => (buildTables w).aliasOf.getD i 0)) ∧
  (∀ w : List Word, w ≠ [] →
    (buildTables w).prob.length = w.length ∧ (buildTables w).aliasOf.length = w.length ∧
    ∀ a ∈ (buildTables w).aliasOf, a < w.length) ∧
  ∀ x : Word, WeightsLegal [x] → (buildTables [x]).prob = [0x3FF0000000000000#64] ∧ (buildTables [x]).aliasOf = [0]

/-- After `build` of weights that pass R152, every probability entry is a binary64 in [0, 1] or −0.0 (R154). -/
def Obligations.BuildProbInUnitInterval : Prop :=
  ∀ w : List Word, WeightsLegal w → w.length ≤ 2 ^ 21 →
    ∀ p ∈ (buildTables w).prob, F64.ge p F64.zero = true ∧ F64.ge F64.one p = true

/-- ALIAS_SAMPLE: OPC 0x11; E_NOTABLE; E_OPERAND when r1 or r2 is not in [0, 1); else, with bin i = trunc(f64(n) · r1),
RES0 ← i when r2 < PROB[i] and ALIAS[i] otherwise, an index below ALIAS_N (R155, R157, R159). The tables are the ones
ALIAS_BUILD leaves: `TablesUsable` holds at reset and every step keeps it. -/
def Obligations.AliasSampleReturnsIndex : Prop :=
  encode .aliasSample = 0x11#64 ∧
  (∀ s : State, s.aliasValid = false → TakesFault .aliasSample s 0x03#8) ∧
  (∀ s : State, s.aliasValid = true → ¬ (Uniform s.arg0 ∧ Uniform s.arg1) → TakesFault .aliasSample s 0x04#8) ∧
  (∀ s : State, s.aliasValid = true → s.TablesUsable → Uniform s.arg0 → Uniform s.arg1 →
    ∃ (i : Nat) (p a v : Word), i = F64.trunc (F64.mul (F64.ofNat s.aliasN.toNat) s.arg0) ∧ i < s.aliasN.toNat ∧
      readWordCell s.mem .prob i = .ok p ∧ readWordCell s.mem .aliasTab i = .ok a ∧
      v = (if F64.lt s.arg1 p then BitVec.ofNat 64 i else a) ∧ v.toNat < s.aliasN.toNat ∧
      exec .aliasSample s = .next { s with res0 := v, latch := none })

/-- ALIAS_SAMPLE_RNG: OPC 0x12; E_NOTABLE, then E_UNSEEDED, then E_RANGE from either draw, S unchanged; else the sample
of two draws, r1 the first, S two draws on (R158). -/
def Obligations.AliasSampleRngTakesTwoDraws : Prop :=
  encode .aliasSampleRng = 0x12#64 ∧
  (∀ s : State, s.aliasValid = false → TakesFault .aliasSampleRng s 0x03#8) ∧
  (∀ s : State, s.aliasValid = true → s.seeded = false → TakesFault .aliasSampleRng s 0x02#8) ∧
  (∀ s : State, s.aliasValid = true → s.seeded = true →
    (¬ DrawOk (nthDraw s.prng 0) ∨ ¬ DrawOk (nthDraw s.prng 1)) → TakesFault .aliasSampleRng s 0x05#8) ∧
  (∀ s : State, s.aliasValid = true → s.seeded = true → s.TablesUsable → DrawOk (nthDraw s.prng 0) →
    DrawOk (nthDraw s.prng 1) →
    ∃ (i : Nat) (p a v : Word),
      i = F64.trunc (F64.mul (F64.ofNat s.aliasN.toNat) (drawDouble (nthDraw s.prng 0))) ∧ i < s.aliasN.toNat ∧
      readWordCell s.mem .prob i = .ok p ∧ readWordCell s.mem .aliasTab i = .ok a ∧
      v = (if F64.lt (drawDouble (nthDraw s.prng 1)) p then BitVec.ofNat 64 i else a) ∧ v.toNat < s.aliasN.toNat ∧
      exec .aliasSampleRng s = .next { s with res0 := v, prng := afterDraws s.prng 2, latch := none })

/-! ### The selector -/

/-- SELECT: OPC 0x18; E_OPERAND when a u32 operand has a high bit or seqLen is not in [1, N_MAX]; for seqNum in
[1, seqLen] the set is {seqNum − 1}, RES0 = 1, RES1 = 1, without a draw (R183, R185, R186). -/
def Obligations.SelectPureFragment : Prop :=
  encode .select = 0x18#64 ∧
  (∀ s : State, ¬ SelectLegal s → TakesFault .select s 0x04#8) ∧
  (∀ s : State, SelectLegal s → 1 ≤ s.arg0.toNat → s.arg0.toNat ≤ s.arg1.toNat →
    exec .select s =
      .next { s with idx := 2 ^ (s.arg0.toNat - 1), res0 := 1#64, res1 := 1#64, latch := none })

/-- SELECT for any other seqNum, 0 included (R187): with G seeded by SHA-256 of {be32(seqNum), be32(checksum)}, r1 and
r2 the first two doubles, the degree d from the harmonic tables, and the picks of the following seqLen draws: IDX is the
set of the first d picks, RES0 = d, RES1 = 0; a draw of G that maps to 1.0 is E_RANGE (R182, R183, R184). No seed with
such a draw is known (one draw in 2^54, R235). -/
def Obligations.SelectDrawsSet : Prop :=
  ∀ s : State, SelectLegal s → ¬ (1 ≤ s.arg0.toNat ∧ s.arg0.toNat ≤ s.arg1.toNat) →
    let n := s.arg1.toNat
    let g := pack256 (sha256 (be32 (s.arg0.setWidth 32) ++ be32 (s.arg2.setWidth 32)))
    let t := buildTables ((List.range n).map (fun i => F64.div F64.one (F64.ofNat (i + 1))))
    let i := drawScaled (nthDraw g 0) n
    let d := (if F64.lt (drawDouble (nthDraw g 1)) (t.prob.getD i 0#64) then i else t.aliasOf.getD i 0) + 1
    ((∃ k < 2 + n, ¬ DrawOk (nthDraw g k)) → TakesFault .select s 0x05#8) ∧
    ((∀ k < 2 + n, DrawOk (nthDraw g k)) →
      ∃ ix, exec .select s = .next { s with idx := ix, res0 := BitVec.ofNat 64 d, res1 := 0#64, latch := none } ∧
        ∀ k, ix.testBit k = true ↔ k ∈ (pickOrder (fun k => nthDraw g (2 + k)) n 0 (List.range n)).take d)

/-- The set SELECT leaves is a non-empty subset of [0, seqLen) with exactly d elements, d = RES0, and with seqLen = 1
it is {0} (R185). -/
def Obligations.SelectSetHasDegree : Prop :=
  ∀ s t : State, s.params.Legal → s.fault = false → exec .select s = .next t → t.fault = false →
    1 ≤ t.res0.toNat ∧ t.res0.toNat ≤ s.arg1.toNat ∧
    (∀ k, t.idx.testBit k = true → k < s.arg1.toNat) ∧
    ((List.range s.arg1.toNat).filter t.idx.testBit).length = t.res0.toNat ∧
    (s.arg1.toNat = 1 → t.idx = 1 ∧ t.res0 = 1#64)

/-- SELECT is a function of ARG0, ARG1, ARG2 and N_MAX: two states that agree on them get the same IDX, RES0, RES1 and
the same fault; and it leaves S, SEEDED, the RAMs, ALIAS_N and ALIAS_VALID as they were (R181). -/
def Obligations.SelectIgnoresUserState : Prop :=
  ∀ s s' t : State, s'.params.nMax = s.params.nMax → s'.arg0 = s.arg0 → s'.arg1 = s.arg1 → s'.arg2 = s.arg2 →
    s.fault = false → s'.fault = false → exec .select s = .next t →
    ∃ t', exec .select s' = .next t' ∧ t'.fault = t.fault ∧ (t.fault = true → t'.faultCode = t.faultCode) ∧
      (t.fault = false → t'.idx = t.idx ∧ t'.res0 = t.res0 ∧ t'.res1 = t.res1) ∧
      t.prng = s.prng ∧ t.seeded = s.seeded ∧ t.mem = s.mem ∧ t.aliasN = s.aliasN ∧ t.aliasValid = s.aliasValid

/-! ### The mixer -/

/-- MIX: OPC 0x20; E_OPERAND when FLEN, FCOUNT or FLEN · FCOUNT is out of range or an IDX bit at k ≥ FCOUNT is set;
UninitRead on an unwritten byte of a selected fragment; else OUT[j] is the exclusive or of byte j of every selected
fragment, RES0 their number, and every other byte and register stays (R201, R202, R205). -/
def Obligations.MixXorsSelectedFragments : Prop :=
  encode .mix = 0x20#64 ∧
  (∀ s : State, (¬ FragmentsLegal s ∨ ∃ k, s.fcount.toNat ≤ k ∧ s.idx.testBit k = true) → TakesFault .mix s 0x04#8) ∧
  (∀ (s : State) (f : Nat → Nat → Byte), FragmentsLegal s → (∀ k, s.fcount.toNat ≤ k → s.idx.testBit k = false) →
    (∀ k < s.fcount.toNat, s.idx.testBit k = true → ∀ j < s.flen.toNat,
      readByteCell s.mem .frag (k * s.flen.toNat + j) = .ok (f k j)) →
    ∃ m, exec .mix s = .next { s with
          mem := m, latch := none
          res0 := BitVec.ofNat 64 ((List.range s.fcount.toNat).filter s.idx.testBit).length } ∧
      (∀ j < s.flen.toNat, readByteCell m .out j = .ok (xorSelected s.idx s.fcount.toNat (fun k => f k j))) ∧
      SameOutside s.mem m 0x07000000 s.flen.toNat) ∧
  (∀ (s : State) (k j : Nat), FragmentsLegal s → (∀ k, s.fcount.toNat ≤ k → s.idx.testBit k = false) →
    k < s.fcount.toNat → s.idx.testBit k = true → j < s.flen.toNat →
    Memory.readByte s.mem (Ram.frag.addr (k * s.flen.toNat + j)) = none →
    ∃ k' j', s.idx.testBit k' = true ∧ j' < s.flen.toNat ∧
      Memory.readByte s.mem (Ram.frag.addr (k' * s.flen.toNat + j')) = none ∧
      exec .mix s = .fault (.uninitRead .frag (k' * s.flen.toNat + j')))

/-- The mix of the union of two disjoint sets is the exclusive or of their mixes; and the mix of a set, exclusive-ored
with the mix of the set less one fragment `k`, is fragment `k` (R204 (b), (c)). -/
def Obligations.MixIsSelfInverse : Prop :=
  (∀ (m : List Host.Cell) (a b flen fcount : Nat) (oa ob : List Byte), a &&& b = 0 →
    mixFragments m a flen fcount = .ok oa → mixFragments m b flen fcount = .ok ob →
    mixFragments m (a ||| b) flen fcount = .ok (List.zipWith (· ^^^ ·) oa ob)) ∧
  (∀ (m : List Host.Cell) (a k flen fcount : Nat) (o o' : List Byte), k < fcount → a.testBit k = true →
    mixFragments m a flen fcount = .ok o → mixFragments m (a ^^^ 2 ^ k) flen fcount = .ok o' →
    readByteCells m .frag (k * flen) flen = .ok (List.zipWith (· ^^^ ·) o o'))

/-- PART: OPC 0x21; E_OPERAND when a u32 operand has a high bit or FLEN, FCOUNT or FLEN · FCOUNT is out of range; for
seqNum in [1, FCOUNT], OUT is fragment seqNum − 1, IDX = {seqNum − 1}, RES0 = 1, RES1 = 1, and every other byte and
register stays (R206). -/
def Obligations.PartPureFragment : Prop :=
  encode .part = 0x21#64 ∧
  (∀ s : State, (2 ^ 32 ≤ s.arg0.toNat ∨ 2 ^ 32 ≤ s.arg2.toNat ∨ ¬ FragmentsLegal s) → TakesFault .part s 0x04#8) ∧
  (∀ (s : State) (f : Nat → Byte), s.arg0.toNat < 2 ^ 32 → s.arg2.toNat < 2 ^ 32 → FragmentsLegal s →
    1 ≤ s.arg0.toNat → s.arg0.toNat ≤ s.fcount.toNat →
    (∀ j < s.flen.toNat, readByteCell s.mem .frag ((s.arg0.toNat - 1) * s.flen.toNat + j) = .ok (f j)) →
    ∃ m, exec .part s = .next { s with
          mem := m, idx := 2 ^ (s.arg0.toNat - 1), res0 := 1#64, res1 := 1#64, latch := none } ∧
      (∀ j < s.flen.toNat, readByteCell m .out j = .ok (f j)) ∧ SameOutside s.mem m 0x07000000 s.flen.toNat)

/-- PART is SELECT of (ARG0, FCOUNT, ARG2) followed by MIX, as one command that does not read ARG1: where both complete,
PART completes with their result; where SELECT takes a fault or MIX stops, PART does the same and leaves IDX (R207). -/
def Obligations.PartIsSelectThenMix : Prop :=
  ∀ s t1 : State, s.params.Legal → FragmentsLegal s → s.fault = false →
    exec .select { s with arg1 := s.fcount } = .next t1 →
    (t1.fault = true → TakesFault .part s t1.faultCode) ∧
    (t1.fault = false →
      (∀ t2, exec .mix t1 = .next t2 → exec .part s = .next { t2 with arg1 := s.arg1 }) ∧
      (∀ f, exec .mix t1 = .fault f → exec .part s = .fault f))

/-! ### What commands leave unchanged -/

/-- Faults of commands are precise: where a command faults, the state after it is the state before it, changed only by
fault entry, with a code of E_UNSEEDED to E_RANGE (R240, R241). -/
def Obligations.CommandFaultsArePrecise : Prop :=
  ∀ (i : Instr) (s t : State), s.fault = false → exec i s = .next t → t.fault = true →
    ∃ code, 0x02#8 ≤ code ∧ code ≤ 0x05#8 ∧ t = faulted i s code

/-- The frame of every command: no command writes the parameters, ARG0 to ARG3, SEED_LEN, FLEN or FCOUNT, each empties
the latch, and one that completes leaves the fault record as it was (R21, R22, R23, R31, R35, R36, R37, R270). -/
def Obligations.CommandsKeepOperands : Prop :=
  ∀ (i : Instr) (s t : State), exec i s = .next t →
    t.params = s.params ∧ t.arg0 = s.arg0 ∧ t.arg1 = s.arg1 ∧ t.arg2 = s.arg2 ∧ t.arg3 = s.arg3 ∧
    t.seedLen = s.seedLen ∧ t.flen = s.flen ∧ t.fcount = s.fcount ∧ t.latch = none ∧ t.inputs = s.inputs ∧
    t.readData = s.readData ∧
    ((t.fault = s.fault ∧ t.faultCode = s.faultCode ∧ t.faultInfo = s.faultInfo) ∨ ∃ code, t = faulted i s code)

/-- The frame of the results and flags: RES0, RES1, IDX, SEEDED, ALIAS_VALID and ALIAS_N change only by the commands
whose rules name them (R32, R40, R277, R160), and SEEDED and ALIAS_VALID are never cleared by a command (R27, R28). -/
def Obligations.ResultsAndFlagsFrame : Prop :=
  ∀ (i : Instr) (s t : State), exec i s = .next t →
    (i ∉ [Instr.prngNext, .prngNextDouble, .prngNextInt, .prngNextByte, .aliasSample, .aliasSampleRng, .select, .mix,
      .part] → t.res0 = s.res0) ∧
    (i ∉ [Instr.select, .part] → t.res1 = s.res1 ∧ t.idx = s.idx) ∧
    (i ∉ [Instr.prngSeedWords, .prngSeedBytes32, .prngSeedHash, .prngSeedU32] → t.seeded = s.seeded) ∧
    (i ≠ .aliasBuild → t.aliasValid = s.aliasValid ∧ t.aliasN = s.aliasN) ∧
    (s.seeded = true → t.seeded = true) ∧ (s.aliasValid = true → t.aliasValid = true)

/-- The frame of memory: only PRNG_NEXT_BYTES, MIX and PART write OUT, within its first `count` or FLEN bytes, and only
ALIAS_BUILD writes PROB and ALIAS, within their first n entries; no command writes another byte (R41 to R44, R46, R47,
R160). -/
def Obligations.MemoryFrame : Prop :=
  ∀ (i : Instr) (s t : State), exec i s = .next t →
    (i ∉ [Instr.prngNextBytes, .mix, .part, .aliasBuild] → t.mem = s.mem) ∧
    (i = .prngNextBytes → SameOutside s.mem t.mem 0x07000000 s.arg0.toNat) ∧
    (i ∈ [Instr.mix, .part] → SameOutside s.mem t.mem 0x07000000 s.flen.toNat) ∧
    (i = .aliasBuild →
      ∀ a, (a < 0x03000000 ∨ 0x03000000 + 8 * s.arg0.toNat ≤ a) → (a < 0x04000000 ∨ 0x04000000 + 8 * s.arg0.toNat ≤ a) →
        Memory.readByte t.mem a = Memory.readByte s.mem a)

/-- The generator never reseeds itself: S changes in a step only by reset or, at the device's turn, by a command of R125
to R135 or ALIAS_SAMPLE_RNG that completes (R33, R137). -/
def Obligations.PrngChangesOnlyByItsCommands : Prop :=
  ∀ s t : State, step s = .next t → t.prng ≠ s.prng →
    (∃ rest, s.inputs = .reset :: rest) ∨
    ((s.inputs = [] ∨ ∃ rest, s.inputs = .deviceTurn :: rest) ∧
      ∃ c i, s.latch = some c ∧ s.fault = false ∧ t.fault = false ∧ decode c = .ok i ∧
      i ∈ [Instr.prngSeedWords, .prngSeedBytes32, .prngSeedHash, .prngSeedU32, .prngNext, .prngNextDouble, .prngNextInt,
        .prngNextByte, .prngNextBytes, .prngJump, .prngLongJump, .aliasSampleRng])

/-! ### The host bus -/

/-- An access illegal by R62 or R65, on an idle device, takes E_BUS with the access's address and direction, has no
other effect, and an illegal read returns 0 (R236). -/
def Obligations.IllegalAccessTakesBusFault : Prop :=
  ∀ (s : State) (addr : Addr) (w : Nat), s.params.Legal → s.fault = false → s.latch = none →
    (¬ accessLegal s.params addr.toNat w false →
      hostRead s addr w = .next { accessFaulted s 0x06#8 addr false with readData := 0#64 }) ∧
    (∀ v, ¬ accessLegal s.params addr.toNat w true → hostWrite s addr w v = accessFaulted s 0x06#8 addr true)

/-- While BUSY = 1 a 64-bit read of STATUS returns STATUS; any other access takes E_BUSY with its address, the latched
command dropped, a read returning 0 (R70, R237). -/
def Obligations.BusyAccessTakesBusyFault : Prop :=
  ∀ (s : State) (c : Word), s.fault = false → s.latch = some c →
    hostRead s 0x00000010#32 8 = .next { s with readData := s.statusWord } ∧
    (∀ addr w, (addr ≠ 0x00000010#32 ∨ w ≠ 8) →
      hostRead s addr w = .next { accessFaulted s 0x07#8 addr false with readData := 0#64 }) ∧
    (∀ addr w v, hostWrite s addr w v = accessFaulted s 0x07#8 addr true)

/-- After fault entry the device is frozen: whatever event but reset comes next, the step changes nothing but the
schedule and the value a read returns; a write has no effect, an illegal read returns 0 (R66, R242). -/
def Obligations.FrozenUntilReset : Prop :=
  (∀ (s t : State) (e : Event) (rest : List Event), s.fault = true → s.inputs = e :: rest → e ≠ .reset →
    step s = .next t → t = { s with inputs := rest, readData := t.readData }) ∧
  (∀ (s : State) addr w v, s.fault = true → hostWrite s addr w v = s) ∧
  (∀ (s : State) (addr : Addr) (w : Nat), s.params.Legal → s.fault = true → ¬ accessLegal s.params addr.toNat w false →
    hostRead s addr w = .next { s with readData := 0#64 })

/-- Every register of R20 reads at its offset as its value, on an idle device and on a faulted one: the parameters packed
as R22 and R23 say, CMD as 0 (R20, R22, R23, R30, R63, R66). -/
def Obligations.RegistersReadAtTheirOffsets : Prop :=
  ∀ s : State, s.params.Legal → (s.fault = true ∨ s.latch = none) →
    ∀ p ∈ [(0x00#32, BitVec.ofNat 64 (s.params.nMax + 2 ^ 32 * s.params.flenMax)),
        (0x08#32, BitVec.ofNat 64 (s.params.fragBytes + 2 ^ 32 * s.params.seedMax)), (0x10#32, s.statusWord),
        (0x18#32, 0#64), (0x20#32, s.arg0), (0x28#32, s.arg1), (0x30#32, s.arg2), (0x38#32, s.arg3), (0x40#32, s.res0),
        (0x48#32, s.res1), (0x50#32, s.prng.s0), (0x58#32, s.prng.s1), (0x60#32, s.prng.s2), (0x68#32, s.prng.s3),
        (0x70#32, s.aliasN), (0x78#32, s.seedLen), (0x80#32, s.flen), (0x88#32, s.fcount), (0x90#32, s.faultInfo)],
      hostRead s p.1 8 = .next { s with readData := p.2 }

/-- STATUS bit by bit: BUSY, FAULT, SEEDED, ALIAS_VALID, FAULT_CODE, and every other bit 0; BUSY is 1 exactly while the
latch is full (R24, R49). -/
def Obligations.StatusFieldsRead : Prop :=
  ∀ (s : State) (b : Nat), b < 64 →
    s.statusWord.getLsbD b =
      if b = 0 then s.latch.isSome else if b = 1 then s.fault else if b = 2 then s.seeded
      else if b = 3 then s.aliasValid else if 8 ≤ b ∧ b < 16 then s.faultCode.getLsbD (b - 8) else false

/-- A cell of a RAM reads at its address, on an idle device and on a faulted one: a written byte zero-extended, a written
64-bit entry whole, and an unwritten cell is UninitRead; and bit `b` of word `w` of IDX reads as IDX[64w + b], 0 at N_MAX
and above (R45, R48, R63, R66). That an unwritten cell is UninitRead on a faulted device too is the model's reading of R48
over R66, which says only that the read returns the current value (log 12). -/
def Obligations.CellsReadAtTheirAddresses : Prop :=
  (∀ (s : State) (r : Ram) (i : Nat), s.params.Legal → (s.fault = true ∨ s.latch = none) → i < r.cells s.params →
    (r ∈ [Ram.seedBuf, .frag, .out] →
      (∀ b, Memory.readByte s.mem (r.base + i) = some b →
        hostRead s (BitVec.ofNat 32 (r.base + i)) 1 = .next { s with readData := b.setWidth 64 }) ∧
      (Memory.readByte s.mem (r.base + i) = none →
        hostRead s (BitVec.ofNat 32 (r.base + i)) 1 = .fault (.uninitRead r i))) ∧
    (r ∈ [Ram.weight, .prob, .aliasTab] →
      (∀ v, readWordCell s.mem r i = .ok v →
        hostRead s (BitVec.ofNat 32 (r.base + 8 * i)) 8 = .next { s with readData := v }) ∧
      (∀ k < 8, Memory.readByte s.mem (r.base + 8 * i + k) = none →
        hostRead s (BitVec.ofNat 32 (r.base + 8 * i)) 8 = .fault (.uninitRead r i)))) ∧
  ∀ (s : State) (w : Nat), s.params.Legal → (s.fault = true ∨ s.latch = none) → w < (s.params.nMax + 63) / 64 →
    ∃ x : Word, hostRead s (BitVec.ofNat 32 (0x05000000 + 8 * w)) 8 = .next { s with readData := x } ∧
      ∀ b < 64, x.getLsbD b = (decide (64 * w + b < s.params.nMax) && s.idx.testBit (64 * w + b))

/-- A read after a legal write to the same place (CMD apart) returns the value written: its low byte from a byte RAM, its
bits below N_MAX from IDX, all 64 bits otherwise. Bit `b` of a write to word `w` of IDX is IDX[64w + b]. The write changes nothing else: every other byte of memory, every bit
of IDX outside the word addressed, every register but the one addressed, the flags and the latch stay (R64, R71). -/
def Obligations.ReadAfterWrite : Prop :=
  ∀ (s : State) (addr : Addr) (w : Nat) (v : Word), s.params.Legal → s.fault = false → s.latch = none →
    accessLegal s.params addr.toNat w true → addr ≠ 0x00000018#32 →
    ∃ (t : State) (x : Word), hostWrite s addr w v = t ∧ hostRead t addr w = .next { t with readData := x } ∧
      (∀ b < 64, x.getLsbD b =
        (v.getLsbD b && decide (b < 8 * w) &&
          decide (0x05000000 ≤ addr.toNat ∧ addr.toNat < 0x06000000 →
            64 * ((addr.toNat - 0x05000000) / 8) + b < s.params.nMax))) ∧
      t = { s with
        arg0 := t.arg0, arg1 := t.arg1, arg2 := t.arg2, arg3 := t.arg3, seedLen := t.seedLen, flen := t.flen
        fcount := t.fcount, idx := t.idx, mem := t.mem } ∧
      (addr ≠ 0x20#32 → t.arg0 = s.arg0) ∧ (addr ≠ 0x28#32 → t.arg1 = s.arg1) ∧ (addr ≠ 0x30#32 → t.arg2 = s.arg2) ∧
      (addr ≠ 0x38#32 → t.arg3 = s.arg3) ∧ (addr ≠ 0x78#32 → t.seedLen = s.seedLen) ∧
      (addr ≠ 0x80#32 → t.flen = s.flen) ∧ (addr ≠ 0x88#32 → t.fcount = s.fcount) ∧
      ((addr.toNat < 0x05000000 ∨ 0x06000000 ≤ addr.toNat) → t.idx = s.idx) ∧
      (0x05000000 ≤ addr.toNat → addr.toNat < 0x06000000 → ∀ b < 64,
        64 * ((addr.toNat - 0x05000000) / 8) + b < s.params.nMax →
        t.idx.testBit (64 * ((addr.toNat - 0x05000000) / 8) + b) = v.getLsbD b) ∧
      (∀ k < s.params.nMax, 0x05000000 + 8 * (k / 64) ≠ addr.toNat → t.idx.testBit k = s.idx.testBit k) ∧
      ((addr.toNat < 0x01000000 ∨ (0x05000000 ≤ addr.toNat ∧ addr.toNat < 0x06000000)) → t.mem = s.mem) ∧
      SameOutside s.mem t.mem addr.toNat w

/-- No address has a side effect on read: a legal read of an idle or a faulted device changes nothing but the value the
host gets (R69). -/
def Obligations.ReadsHaveNoSideEffect : Prop :=
  ∀ (s t : State) (addr : Addr) (w : Nat), s.params.Legal → (s.fault = true ∨ s.latch = none) →
    accessLegal s.params addr.toNat w false → hostRead s addr w = .next t → t = { s with readData := t.readData }

/-! ### Invariants -/

/-- The invariants hold after reset, for every legal choice of the parameters; the values at reset that the model chose
are those of log 1 and 3. -/
def Obligations.InvariantsHoldAtReset : Prop :=
  State.reset.Inv ∧ State.reset.EntriesWhole ∧ State.reset.TablesUsable ∧
  ∀ p : Params, p.Legal →
    (State.resetWith p).Inv ∧ (State.resetWith p).EntriesWhole ∧ (State.resetWith p).TablesUsable

/-- Every step keeps the machine's invariant, from every state that meets it: legal parameters, canonical memory in
implemented cells only, IDX below N_MAX, a fault record that is empty or frozen with a code of R230, FAULT_INFO's
reserved bits zero (R29, R38, R45, R61, R241, R242). -/
def Obligations.StepKeepsInvariant : Prop :=
  ∀ s t : State, s.Inv → step s = .next t → t.Inv

/-- Every step keeps each 64-bit entry written whole or not at all (R48, R67). -/
def Obligations.StepKeepsEntriesWhole : Prop :=
  ∀ s t : State, s.Inv → s.EntriesWhole → step s = .next t → t.EntriesWhole

/-- Every step keeps the user's alias tables usable once valid: ALIAS_N in [1, N_MAX], every entry of both tables
written, every ALIAS entry an index below ALIAS_N (R28, R34, R44, R154). -/
def Obligations.StepKeepsTablesUsable : Prop :=
  ∀ s t : State, s.Inv → s.TablesUsable → step s = .next t → t.TablesUsable
end

