-- ==== Sys2Proof/Laws/AliasTable.lean ====
section
/-! SUPPORT. The alias-table build: the main loop runs to its end in `n` passes, and the tables have `n` entries. -/

namespace Sys2Proof.Machine

/-- The indexes of the two stacks together: one fewer after each pass. -/
theorem balanceStep_count (b : Balance) (a g : Nat) (small large : List Nat) :
    (balanceStep b a g small large).small.length + (balanceStep b a g small large).large.length =
      small.length + large.length + 1 := by
  unfold balanceStep
  simp only
  split_ifs <;> simp only [List.length_cons] <;> omega

/-- The main loop of R153 ends for want of a small or a large index, never for want of passes. -/
theorem balanceLoop_done (fuel : Nat) (b : Balance) (h : b.small.length + b.large.length ≤ fuel + 1) :
    (balanceLoop fuel b).small = [] ∨ (balanceLoop fuel b).large = [] := by
  induction fuel generalizing b with
  | zero =>
    rw [balanceLoop]
    rcases hs : b.small with _ | ⟨a, small⟩
    · exact .inl rfl
    · rcases hl : b.large with _ | ⟨g, large⟩
      · exact .inr rfl
      · rw [hs, hl] at h; simp only [List.length_cons] at h; omega
  | succ fuel ih =>
    rw [balanceLoop]
    split
    · next a small g large hs hl =>
      refine ih _ ?_
      rw [balanceStep_count]
      rw [hs, hl] at h
      simp only [List.length_cons] at h
      omega
    · next hne =>
      rcases hs : b.small with _ | ⟨a, small⟩
      · exact .inl rfl
      · rcases hl : b.large with _ | ⟨g, large⟩
        · exact .inr rfl
        · exact absurd hl (hne a small g large hs)

/-- Each index goes to one stack or the other. -/
theorem stackOf_lengths (keep : Word → Bool) (k : Nat) (l : List Word) :
    (stackOf keep k l).length + (stackOf (fun x => !keep x) k l).length = l.length := by
  induction l generalizing k with
  | nil => rfl
  | cons x rest ih =>
    have := ih (k + 1)
    simp only [stackOf]
    by_cases hx : keep x = true
    · simp only [hx, if_true, Bool.not_true, Bool.false_eq_true, if_false, List.length_cons]
      omega
    · simp only [hx, if_false, Bool.not_false, if_true, Bool.false_eq_true, List.length_cons]
      omega

/-- The indexes of a stack lie in the range it was filled from. -/
theorem mem_stackOf {keep : Word → Bool} {k i : Nat} {l : List Word} (h : i ∈ stackOf keep k l) :
    k ≤ i ∧ i < k + l.length := by
  induction l generalizing k with
  | nil => simp [stackOf] at h
  | cons x rest ih =>
    simp only [stackOf] at h
    simp only [List.length_cons]
    split_ifs at h
    · rcases List.mem_cons.1 h with rfl | h
      · omega
      · have := ih h; omega
    · have := ih h; omega

/-- The build's loop has run to its end when the leftovers are filled in. -/
theorem buildTables_loop_done (w : List Word) :
    (balanceLoop w.length (balanceStart w)).small = [] ∨ (balanceLoop w.length (balanceStart w)).large = [] := by
  refine balanceLoop_done _ _ ?_
  have := stackOf_lengths (fun x => F64.lt x F64.one) 0 (scaledWeights w)
  simp only [balanceStart]
  rw [this]
  simp [scaledWeights]

@[simp] theorem fillOnes_length (stack : List Nat) (prob : List Word) : (fillOnes stack prob).length = prob.length := by
  unfold fillOnes
  induction stack generalizing prob with
  | nil => rfl
  | cons i rest ih => rw [List.foldl_cons, ih, List.length_set]

theorem balanceLoop_lengths (fuel : Nat) (b : Balance) :
    (balanceLoop fuel b).tables.prob.length = b.tables.prob.length ∧
    (balanceLoop fuel b).tables.aliasOf.length = b.tables.aliasOf.length := by
  induction fuel generalizing b with
  | zero => exact ⟨rfl, rfl⟩
  | succ fuel ih =>
    rw [balanceLoop]
    split
    · refine ⟨(ih _).1.trans ?_, (ih _).2.trans ?_⟩ <;> simp [balanceStep]
    · exact ⟨rfl, rfl⟩

/-- Both tables have one entry a weight (R153). -/
theorem buildTables_lengths (w : List Word) :
    (buildTables w).prob.length = w.length ∧ (buildTables w).aliasOf.length = w.length := by
  obtain ⟨h1, h2⟩ := balanceLoop_lengths w.length (balanceStart w)
  constructor
  · simpa [buildTables, balanceStart] using h1
  · simpa [buildTables, balanceStart] using h2

end Sys2Proof.Machine
end

