-- ==== Sys2Proof/Laws/Binary64.lean ====
section
/-! SUPPORT. Rounding: what `roundEven` and `roundUnits` answer, that rounding is monotone, and that a representable
value rounds to itself (R10). -/

namespace Sys2Proof.Machine

namespace F64

/-- When a rounded quotient is at most `k`: the one fact about `roundEven` that later proofs use. -/
theorem roundEven_le_iff (num den k : Nat) (hd : 0 < den) :
    roundEven num den ≤ k ↔ 2 * num < (2 * k + 1) * den ∨ (2 * num = (2 * k + 1) * den ∧ k % 2 = 0) := by
  have hdm : den * (num / den) + num % den = num := Nat.div_add_mod num den
  have hr : num % den < den := Nat.mod_lt _ hd
  unfold roundEven
  generalize num / den = q at *
  generalize num % den = r at *
  subst hdm
  have hexp : (2 * k + 1) * den = 2 * (den * k) + den := by ring
  rw [hexp]
  rcases Nat.lt_trichotomy q k with h | h | h
  · have h1 : den * q + den ≤ den * k := by
      calc den * q + den = den * (q + 1) := by ring
        _ ≤ den * k := Nat.mul_le_mul_left _ h
    constructor
    · intro _; left; omega
    · intro _; simp only; split_ifs <;> omega
  · subst h
    simp only
    split_ifs <;> constructor <;> intro h <;> omega
  · have h1 : den * k + den ≤ den * q := by
      calc den * k + den = den * (k + 1) := by ring
        _ ≤ den * q := Nat.mul_le_mul_left _ h
    constructor
    · intro h2; exfalso; revert h2; simp only; split_ifs <;> omega
    · intro h2; omega

/-- Rounding is monotone in the quotient. -/
theorem roundEven_mono {num den num' den' : Nat} (hd : 0 < den) (hd' : 0 < den') (h : num * den' ≤ num' * den) :
    roundEven num den ≤ roundEven num' den' := by
  rw [roundEven_le_iff _ _ _ hd]
  have hk := (roundEven_le_iff num' den' (roundEven num' den') hd').1 le_rfl
  generalize roundEven num' den' = k at *
  rcases hk with hk | ⟨hk, he⟩
  · left
    refine lt_of_mul_lt_mul_right (?_ : 2 * num * den' < (2 * k + 1) * den * den') (Nat.zero_le _)
    calc 2 * num * den' ≤ 2 * num' * den := by nlinarith
      _ < (2 * k + 1) * den' * den := Nat.mul_lt_mul_of_pos_right hk hd
      _ = (2 * k + 1) * den * den' := by ring
  · have hle : 2 * num ≤ (2 * k + 1) * den := by
      refine le_of_mul_le_mul_right (?_ : 2 * num * den' ≤ (2 * k + 1) * den * den') hd'
      calc 2 * num * den' ≤ 2 * num' * den := by nlinarith
        _ = (2 * k + 1) * den * den' := by rw [hk]; ring
    rcases hle.lt_or_eq with h1 | h1
    · exact .inl h1
    · exact .inr ⟨h1, he⟩

/-- A whole quotient rounds to itself. -/
theorem roundEven_mul (k den : Nat) (hd : 0 < den) : roundEven (k * den) den = k := by
  simp [roundEven, Nat.mul_div_cancel _ hd, hd]

/-- A rounded quotient is at least the quotient's floor. -/
theorem div_le_roundEven (num den : Nat) : num / den ≤ roundEven num den := by
  unfold roundEven; simp only; split_ifs <;> omega

/-- A rounded quotient is at most one above the quotient's floor. -/
theorem roundEven_le_div_succ (num den : Nat) : roundEven num den ≤ num / den + 1 := by
  unfold roundEven; simp only; split_ifs <;> omega

/-- The exponent step `sh` and the rounded significand of `roundUnits`: at most 2^53, and at least 2^52 once `sh` is
not 0. -/
theorem roundUnits_significand (num den : Nat) :
    roundEven num (den * 2 ^ (Nat.log2 (num / den) - 52)) ≤ 2 ^ 53 ∧
    (Nat.log2 (num / den) - 52 ≠ 0 → 2 ^ 52 ≤ roundEven num (den * 2 ^ (Nat.log2 (num / den) - 52))) := by
  set q := num / den with hq
  set sh := Nat.log2 q - 52 with hsh
  have hlt : q < 2 ^ (53 + sh) := by
    by_cases h0 : q = 0
    · rw [h0]; positivity
    · exact (Nat.log2_lt h0).1 (by omega)
  have hdiv : num / (den * 2 ^ sh) = q / 2 ^ sh := (Nat.div_div_eq_div_mul _ _ _).symm
  constructor
  · have h1 := roundEven_le_div_succ num (den * 2 ^ sh)
    have h2 : q / 2 ^ sh < 2 ^ 53 := by
      rw [Nat.div_lt_iff_lt_mul (by positivity), ← pow_add]; exact hlt
    rw [hdiv] at h1
    omega
  · intro hne
    have h0 : q ≠ 0 := by rintro h; rw [h] at hsh; simp [Nat.log2_zero] at hsh; exact hne hsh
    have hge : 2 ^ (52 + sh) ≤ q := by
      have := Nat.log2_self_le h0
      rwa [show q.log2 = 52 + sh by omega] at this
    have h2 : 2 ^ 52 ≤ q / 2 ^ sh := by
      rw [Nat.le_div_iff_mul_le (by positivity), ← pow_add]; exact hge
    exact (hdiv ▸ h2).trans (div_le_roundEven _ _)

/-- Rounding to a binary64 is monotone (R10, R136). -/
theorem roundUnits_mono {num den num' den' : Nat} (hd : 0 < den) (hd' : 0 < den') (h : num * den' ≤ num' * den) :
    roundUnits num den ≤ roundUnits num' den' := by
  have hq : num / den ≤ num' / den' := by
    rw [Nat.le_div_iff_mul_le hd']
    refine le_of_mul_le_mul_right (?_ : num / den * den' * den ≤ num' * den) hd
    calc num / den * den' * den = num / den * den * den' := by ring
      _ ≤ num * den' := Nat.mul_le_mul_right _ (Nat.div_mul_le_self _ _)
      _ ≤ num' * den := h
  have hlog : Nat.log2 (num / den) ≤ Nat.log2 (num' / den') := by
    rw [Nat.log2_eq_log_two, Nat.log2_eq_log_two]; exact Nat.log_mono_right hq
  obtain ⟨h1, -⟩ := roundUnits_significand num den
  obtain ⟨-, h2⟩ := roundUnits_significand num' den'
  unfold roundUnits
  simp only
  refine min_le_min ?_ le_rfl
  by_cases hs : Nat.log2 (num / den) - 52 = Nat.log2 (num' / den') - 52
  · rw [hs]
    refine Nat.add_le_add_left (roundEven_mono (by positivity) (by positivity) ?_) _
    calc num * (den' * 2 ^ (Nat.log2 (num' / den') - 52)) = num * den' * 2 ^ (Nat.log2 (num' / den') - 52) := by ring
      _ ≤ num' * den * 2 ^ (Nat.log2 (num' / den') - 52) := Nat.mul_le_mul_right _ h
      _ = num' * (den * 2 ^ (Nat.log2 (num' / den') - 52)) := by ring
  · have hlt : Nat.log2 (num / den) - 52 + 1 ≤ Nat.log2 (num' / den') - 52 := by omega
    have h2' := h2 (by omega)
    generalize roundEven num _ = m at *
    generalize roundEven num' _ = m' at *
    generalize Nat.log2 (num / den) - 52 = a at *
    generalize Nat.log2 (num' / den') - 52 = b at *
    have : (a + 1) * 2 ^ 52 ≤ b * 2 ^ 52 := Nat.mul_le_mul_right _ hlt
    omega

/-- A representable value rounds to itself (R10). -/
theorem roundUnits_unitsOf (mag den : Nat) (hd : 0 < den) (hm : mag < infBits) :
    roundUnits (unitsOf mag * den) den = mag := by
  have hdm : 2 ^ 52 * (mag / 2 ^ 52) + mag % 2 ^ 52 = mag := Nat.div_add_mod _ _
  have hf : mag % 2 ^ 52 < 2 ^ 52 := Nat.mod_lt _ (by positivity)
  unfold roundUnits unitsOf
  simp only [Nat.mul_div_cancel _ hd]
  generalize mag / 2 ^ 52 = e at *
  generalize mag % 2 ^ 52 = f at *
  split_ifs with h
  · have hs : Nat.log2 f - 52 = 0 := by
      by_cases h0 : f = 0
      · simp [h0, Nat.log2_zero]
      · have := (Nat.log2_lt h0).2 hf; omega
    rw [hs, pow_zero, mul_one, roundEven_mul _ _ hd]
    subst h
    omega
  · obtain ⟨e, rfl⟩ : ∃ k, e = k + 1 := ⟨e - 1, by omega⟩
    have hlog : Nat.log2 ((2 ^ 52 + f) * 2 ^ e) = 52 + e := by
      have hne : (2 ^ 52 + f) * 2 ^ e ≠ 0 := by positivity
      refine (Nat.log2_eq_iff hne).2 ⟨?_, ?_⟩
      · rw [pow_add]; exact Nat.mul_le_mul_right _ (by omega)
      · rw [show 52 + e + 1 = 53 + e by omega, pow_add]
        exact Nat.mul_lt_mul_of_pos_right (by omega) (by positivity)
    simp only [Nat.add_sub_cancel]
    rw [hlog, Nat.add_sub_cancel_left,
      show (2 ^ 52 + f) * 2 ^ e * den = (2 ^ 52 + f) * (den * 2 ^ e) by ring, roundEven_mul _ _ (by positivity)]
    omega

/-- A magnitude encoding taken apart: `sh` the exponent step, `m` the significand with its hidden bit. -/
theorem unitsOf_split (mag : Nat) : ∃ sh m, mag = sh * 2 ^ 52 + m ∧ unitsOf mag = m * 2 ^ sh ∧ m < 2 ^ 53 ∧
    (sh ≠ 0 → 2 ^ 52 ≤ m) ∧ unitsOf (mag + 1) = (m + 1) * 2 ^ sh := by
  have hdm : 2 ^ 52 * (mag / 2 ^ 52) + mag % 2 ^ 52 = mag := Nat.div_add_mod _ _
  have hf : mag % 2 ^ 52 < 2 ^ 52 := Nat.mod_lt _ (by positivity)
  generalize mag / 2 ^ 52 = e at *
  generalize mag % 2 ^ 52 = f at *
  have hof : ∀ e f, f < 2 ^ 52 →
      unitsOf (2 ^ 52 * e + f) = if e = 0 then f else (2 ^ 52 + f) * 2 ^ (e - 1) := by
    intro e f hf
    unfold unitsOf
    rw [Nat.mul_add_div (by positivity), Nat.div_eq_of_lt hf, Nat.add_zero, Nat.mul_add_mod, Nat.mod_eq_of_lt hf]
  have hnext : unitsOf (2 ^ 52 * e + f + 1) =
      if e = 0 then f + 1 else (2 ^ 52 + f + 1) * 2 ^ (e - 1) := by
    by_cases h : f + 1 < 2 ^ 52
    · rw [Nat.add_assoc, hof e (f + 1) h]; rfl
    · obtain rfl : f = 2 ^ 52 - 1 := by omega
      have : 2 ^ 52 * e + (2 ^ 52 - 1) + 1 = 2 ^ 52 * (e + 1) + 0 := by omega
      rw [this, hof (e + 1) 0 (by positivity)]
      rcases e with _ | e
      · simp
      · simp only [Nat.succ_ne_zero, if_false, Nat.add_sub_cancel, pow_succ]; ring
  subst hdm
  rw [hnext, hof e f hf]
  rcases e with _ | e
  · exact ⟨0, f, by omega, by simp, by omega, by simp, by simp⟩
  · exact ⟨e, 2 ^ 52 + f, by omega, by simp, by omega, by omega, by simp [Nat.add_assoc]⟩

/-- When a rounded magnitude is at most `mag`: below halfway to the next one, or halfway with `mag` even. The one fact
about `roundUnits` from which nearness, the tie rule and the overflow threshold follow (R10). -/
theorem roundUnits_le_iff (num den mag : Nat) (hd : 0 < den) (hm : mag < infBits) :
    roundUnits num den ≤ mag ↔
      2 * num < (unitsOf mag + unitsOf (mag + 1)) * den ∨
      (2 * num = (unitsOf mag + unitsOf (mag + 1)) * den ∧ mag % 2 = 0) := by
  obtain ⟨E, M, rfl, hu, hM, hE, hu'⟩ := unitsOf_split mag
  obtain ⟨hle, hge⟩ := roundUnits_significand num den
  have hmin : roundUnits num den ≤ E * 2 ^ 52 + M ↔
      (Nat.log2 (num / den) - 52) * 2 ^ 52 + roundEven num (den * 2 ^ (Nat.log2 (num / den) - 52)) ≤ E * 2 ^ 52 + M := by
    unfold roundUnits; simp only; omega
  rw [hmin, hu, hu']
  have hT : (M * 2 ^ E + (M + 1) * 2 ^ E) * den = (2 * M + 1) * (den * 2 ^ E) := by ring
  rw [hT]
  have hpar : (E * 2 ^ 52 + M) % 2 = M % 2 := by omega
  rw [hpar]
  rcases Nat.lt_trichotomy (Nat.log2 (num / den) - 52) E with h | h | h
  · have hEM := hE (by omega)
    have hlt : num / den < 2 ^ (52 + E) := by
      by_cases h0 : num / den = 0
      · rw [h0]; positivity
      · exact (Nat.log2_lt h0).1 (by omega)
    have hnum : num < M * (den * 2 ^ E) := by
      rw [Nat.div_lt_iff_lt_mul hd, pow_add] at hlt
      calc num < 2 ^ 52 * 2 ^ E * den := hlt
        _ = 2 ^ 52 * (den * 2 ^ E) := by ring
        _ ≤ M * (den * 2 ^ E) := Nat.mul_le_mul_right _ hEM
    have hr : (2 * M + 1) * (den * 2 ^ E) = 2 * (M * (den * 2 ^ E)) + den * 2 ^ E := by ring
    exact ⟨fun _ => .inl (by omega), fun _ => by omega⟩
  · subst h
    rw [← roundEven_le_iff num _ M (by positivity)]
    omega
  · have h2 := hge (by omega)
    have h0 : num / den ≠ 0 := by intro h0; simp [h0, Nat.log2_zero] at h
    have hpow : 2 ^ (53 + E) ≤ num / den :=
      (Nat.pow_le_pow_right (by norm_num) (by omega)).trans (Nat.log2_self_le h0)
    have hnum : (M + 1) * (den * 2 ^ E) ≤ num := by
      rw [Nat.le_div_iff_mul_le hd, pow_add] at hpow
      calc (M + 1) * (den * 2 ^ E) ≤ 2 ^ 53 * (den * 2 ^ E) := Nat.mul_le_mul_right _ hM
        _ = 2 ^ 53 * 2 ^ E * den := by ring
        _ ≤ num := hpow
    have hpos : 0 < den * 2 ^ E := by positivity
    have hr : (2 * M + 1) * (den * 2 ^ E) + den * 2 ^ E = 2 * ((M + 1) * (den * 2 ^ E)) := by ring
    constructor
    · intro _; omega
    · intro h3; omega

/-- Every rounded magnitude is at most that of +∞. -/
theorem roundUnits_le_inf (num den : Nat) : roundUnits num den ≤ infBits := min_le_right _ _

/-- What is at most a representable value rounds to at most that value. -/
theorem roundUnits_le_of_le {num den mag : Nat} (hd : 0 < den) (hm : mag < infBits) (h : num ≤ unitsOf mag * den) :
    roundUnits num den ≤ mag := by
  have := roundUnits_mono (num := num) (den := den) (num' := unitsOf mag * 1) (den' := 1) hd Nat.one_pos (by simpa using h)
  rwa [roundUnits_unitsOf mag 1 Nat.one_pos hm] at this

/-- What is at least a representable value rounds to at least that value. -/
theorem le_roundUnits_of_le {num den mag : Nat} (hd : 0 < den) (hm : mag < infBits) (h : unitsOf mag * den ≤ num) :
    mag ≤ roundUnits num den := by
  have := roundUnits_mono (num := unitsOf mag * 1) (den := 1) (num' := num) (den' := den) Nat.one_pos hd (by simpa using h)
  rwa [roundUnits_unitsOf mag 1 Nat.one_pos hm] at this

/-- Larger encodings stand for larger magnitudes. -/
theorem unitsOf_lt_of_lt {a b : Nat} (h : a < b) (hb : b < infBits) : unitsOf a < unitsOf b := by
  by_contra hc
  have := roundUnits_mono (num := unitsOf b * 1) (den := 1) (num' := unitsOf a * 1) (den' := 1) Nat.one_pos Nat.one_pos
    (by simpa using hc)
  rw [roundUnits_unitsOf b 1 Nat.one_pos hb, roundUnits_unitsOf a 1 Nat.one_pos (h.trans hb)] at this
  omega

/-! ### Sign and magnitude of an encoding put together -/

theorem magBits_withSign (s : Bool) (mag : Nat) (h : mag ≤ infBits) : magBits (withSign s mag) = mag := by
  have h63 : infBits < 2 ^ 63 := by decide
  unfold magBits withSign
  rw [BitVec.toNat_ofNat]
  cases s <;> simp only [if_true, if_false, Bool.false_eq_true] <;> omega

theorem sign_withSign (s : Bool) (mag : Nat) (h : mag ≤ infBits) : sign (withSign s mag) = s := by
  have h63 : infBits < 2 ^ 63 := by decide
  unfold sign withSign
  rw [BitVec.getLsbD_ofNat]
  cases s
  · simp only [Bool.false_eq_true, if_false, Bool.and_eq_false_imp]
    intro _
    exact Nat.testBit_lt_two_pow (by omega)
  · simp only [if_true]
    rw [Nat.testBit_two_pow_add_eq, Nat.testBit_lt_two_pow (by omega)]
    simp

theorem isNaN_withSign (s : Bool) (mag : Nat) (h : mag ≤ infBits) : isNaN (withSign s mag) = false := by
  simp [isNaN, magBits_withSign s mag h, h]

theorem units_withSign (s : Bool) (mag : Nat) (h : mag ≤ infBits) : units (withSign s mag) = unitsOf mag := by
  simp [units, magBits_withSign s mag h]

end F64

end Sys2Proof.Machine
end

