-- ==== Sys2Proof/Laws/State.lean ====
section
/-! SUPPORT. One lemma per field per update of `State`, so that no later proof unfolds a record update; and the fields
of the state after reset. -/

namespace Sys2Proof.Machine

/-! ### `State.complete` -/

@[simp] theorem State.complete_params (s : State) : s.complete.params = s.params := rfl
@[simp] theorem State.complete_arg0 (s : State) : s.complete.arg0 = s.arg0 := rfl
@[simp] theorem State.complete_arg1 (s : State) : s.complete.arg1 = s.arg1 := rfl
@[simp] theorem State.complete_arg2 (s : State) : s.complete.arg2 = s.arg2 := rfl
@[simp] theorem State.complete_arg3 (s : State) : s.complete.arg3 = s.arg3 := rfl
@[simp] theorem State.complete_res0 (s : State) : s.complete.res0 = s.res0 := rfl
@[simp] theorem State.complete_res1 (s : State) : s.complete.res1 = s.res1 := rfl
@[simp] theorem State.complete_prng (s : State) : s.complete.prng = s.prng := rfl
@[simp] theorem State.complete_aliasN (s : State) : s.complete.aliasN = s.aliasN := rfl
@[simp] theorem State.complete_seedLen (s : State) : s.complete.seedLen = s.seedLen := rfl
@[simp] theorem State.complete_flen (s : State) : s.complete.flen = s.flen := rfl
@[simp] theorem State.complete_fcount (s : State) : s.complete.fcount = s.fcount := rfl
@[simp] theorem State.complete_faultInfo (s : State) : s.complete.faultInfo = s.faultInfo := rfl
@[simp] theorem State.complete_fault (s : State) : s.complete.fault = s.fault := rfl
@[simp] theorem State.complete_seeded (s : State) : s.complete.seeded = s.seeded := rfl
@[simp] theorem State.complete_aliasValid (s : State) : s.complete.aliasValid = s.aliasValid := rfl
@[simp] theorem State.complete_faultCode (s : State) : s.complete.faultCode = s.faultCode := rfl
@[simp] theorem State.complete_idx (s : State) : s.complete.idx = s.idx := rfl
@[simp] theorem State.complete_mem (s : State) : s.complete.mem = s.mem := rfl
@[simp] theorem State.complete_latch (s : State) : s.complete.latch = none := rfl
@[simp] theorem State.complete_inputs (s : State) : s.complete.inputs = s.inputs := rfl
@[simp] theorem State.complete_readData (s : State) : s.complete.readData = s.readData := rfl

/-! ### `State.faultEntry` -/

@[simp] theorem State.faultEntry_params (s : State) (code : FaultCode) (addr : Addr) (write : Bool) (opc : Byte) :
    (s.faultEntry code addr write opc).params = s.params := rfl
@[simp] theorem State.faultEntry_arg0 (s : State) (code : FaultCode) (addr : Addr) (write : Bool) (opc : Byte) :
    (s.faultEntry code addr write opc).arg0 = s.arg0 := rfl
@[simp] theorem State.faultEntry_arg1 (s : State) (code : FaultCode) (addr : Addr) (write : Bool) (opc : Byte) :
    (s.faultEntry code addr write opc).arg1 = s.arg1 := rfl
@[simp] theorem State.faultEntry_arg2 (s : State) (code : FaultCode) (addr : Addr) (write : Bool) (opc : Byte) :
    (s.faultEntry code addr write opc).arg2 = s.arg2 := rfl
@[simp] theorem State.faultEntry_arg3 (s : State) (code : FaultCode) (addr : Addr) (write : Bool) (opc : Byte) :
    (s.faultEntry code addr write opc).arg3 = s.arg3 := rfl
@[simp] theorem State.faultEntry_res0 (s : State) (code : FaultCode) (addr : Addr) (write : Bool) (opc : Byte) :
    (s.faultEntry code addr write opc).res0 = s.res0 := rfl
@[simp] theorem State.faultEntry_res1 (s : State) (code : FaultCode) (addr : Addr) (write : Bool) (opc : Byte) :
    (s.faultEntry code addr write opc).res1 = s.res1 := rfl
@[simp] theorem State.faultEntry_prng (s : State) (code : FaultCode) (addr : Addr) (write : Bool) (opc : Byte) :
    (s.faultEntry code addr write opc).prng = s.prng := rfl
@[simp] theorem State.faultEntry_aliasN (s : State) (code : FaultCode) (addr : Addr) (write : Bool) (opc : Byte) :
    (s.faultEntry code addr write opc).aliasN = s.aliasN := rfl
@[simp] theorem State.faultEntry_seedLen (s : State) (code : FaultCode) (addr : Addr) (write : Bool) (opc : Byte) :
    (s.faultEntry code addr write opc).seedLen = s.seedLen := rfl
@[simp] theorem State.faultEntry_flen (s : State) (code : FaultCode) (addr : Addr) (write : Bool) (opc : Byte) :
    (s.faultEntry code addr write opc).flen = s.flen := rfl
@[simp] theorem State.faultEntry_fcount (s : State) (code : FaultCode) (addr : Addr) (write : Bool) (opc : Byte) :
    (s.faultEntry code addr write opc).fcount = s.fcount := rfl
@[simp] theorem State.faultEntry_faultInfo (s : State) (code : FaultCode) (addr : Addr) (write : Bool) (opc : Byte) :
    (s.faultEntry code addr write opc).faultInfo = faultInfoWord addr write opc := rfl
@[simp] theorem State.faultEntry_fault (s : State) (code : FaultCode) (addr : Addr) (write : Bool) (opc : Byte) :
    (s.faultEntry code addr write opc).fault = true := rfl
@[simp] theorem State.faultEntry_seeded (s : State) (code : FaultCode) (addr : Addr) (write : Bool) (opc : Byte) :
    (s.faultEntry code addr write opc).seeded = s.seeded := rfl
@[simp] theorem State.faultEntry_aliasValid (s : State) (code : FaultCode) (addr : Addr) (write : Bool) (opc : Byte) :
    (s.faultEntry code addr write opc).aliasValid = s.aliasValid := rfl
@[simp] theorem State.faultEntry_faultCode (s : State) (code : FaultCode) (addr : Addr) (write : Bool) (opc : Byte) :
    (s.faultEntry code addr write opc).faultCode = code.bits := rfl
@[simp] theorem State.faultEntry_idx (s : State) (code : FaultCode) (addr : Addr) (write : Bool) (opc : Byte) :
    (s.faultEntry code addr write opc).idx = s.idx := rfl
@[simp] theorem State.faultEntry_mem (s : State) (code : FaultCode) (addr : Addr) (write : Bool) (opc : Byte) :
    (s.faultEntry code addr write opc).mem = s.mem := rfl
@[simp] theorem State.faultEntry_latch (s : State) (code : FaultCode) (addr : Addr) (write : Bool) (opc : Byte) :
    (s.faultEntry code addr write opc).latch = none := rfl
@[simp] theorem State.faultEntry_inputs (s : State) (code : FaultCode) (addr : Addr) (write : Bool) (opc : Byte) :
    (s.faultEntry code addr write opc).inputs = s.inputs := rfl
@[simp] theorem State.faultEntry_readData (s : State) (code : FaultCode) (addr : Addr) (write : Bool) (opc : Byte) :
    (s.faultEntry code addr write opc).readData = s.readData := rfl

/-! ### `State.commandFault` -/

@[simp] theorem State.commandFault_params (s : State) (code : FaultCode) (opc : Byte) :
    (s.commandFault code opc).params = s.params := rfl
@[simp] theorem State.commandFault_arg0 (s : State) (code : FaultCode) (opc : Byte) :
    (s.commandFault code opc).arg0 = s.arg0 := rfl
@[simp] theorem State.commandFault_arg1 (s : State) (code : FaultCode) (opc : Byte) :
    (s.commandFault code opc).arg1 = s.arg1 := rfl
@[simp] theorem State.commandFault_arg2 (s : State) (code : FaultCode) (opc : Byte) :
    (s.commandFault code opc).arg2 = s.arg2 := rfl
@[simp] theorem State.commandFault_arg3 (s : State) (code : FaultCode) (opc : Byte) :
    (s.commandFault code opc).arg3 = s.arg3 := rfl
@[simp] theorem State.commandFault_res0 (s : State) (code : FaultCode) (opc : Byte) :
    (s.commandFault code opc).res0 = s.res0 := rfl
@[simp] theorem State.commandFault_res1 (s : State) (code : FaultCode) (opc : Byte) :
    (s.commandFault code opc).res1 = s.res1 := rfl
@[simp] theorem State.commandFault_prng (s : State) (code : FaultCode) (opc : Byte) :
    (s.commandFault code opc).prng = s.prng := rfl
@[simp] theorem State.commandFault_aliasN (s : State) (code : FaultCode) (opc : Byte) :
    (s.commandFault code opc).aliasN = s.aliasN := rfl
@[simp] theorem State.commandFault_seedLen (s : State) (code : FaultCode) (opc : Byte) :
    (s.commandFault code opc).seedLen = s.seedLen := rfl
@[simp] theorem State.commandFault_flen (s : State) (code : FaultCode) (opc : Byte) :
    (s.commandFault code opc).flen = s.flen := rfl
@[simp] theorem State.commandFault_fcount (s : State) (code : FaultCode) (opc : Byte) :
    (s.commandFault code opc).fcount = s.fcount := rfl
@[simp] theorem State.commandFault_faultInfo (s : State) (code : FaultCode) (opc : Byte) :
    (s.commandFault code opc).faultInfo = faultInfoWord 0x00000018#32 true opc := rfl
@[simp] theorem State.commandFault_fault (s : State) (code : FaultCode) (opc : Byte) :
    (s.commandFault code opc).fault = true := rfl
@[simp] theorem State.commandFault_seeded (s : State) (code : FaultCode) (opc : Byte) :
    (s.commandFault code opc).seeded = s.seeded := rfl
@[simp] theorem State.commandFault_aliasValid (s : State) (code : FaultCode) (opc : Byte) :
    (s.commandFault code opc).aliasValid = s.aliasValid := rfl
@[simp] theorem State.commandFault_faultCode (s : State) (code : FaultCode) (opc : Byte) :
    (s.commandFault code opc).faultCode = code.bits := rfl
@[simp] theorem State.commandFault_idx (s : State) (code : FaultCode) (opc : Byte) :
    (s.commandFault code opc).idx = s.idx := rfl
@[simp] theorem State.commandFault_mem (s : State) (code : FaultCode) (opc : Byte) :
    (s.commandFault code opc).mem = s.mem := rfl
@[simp] theorem State.commandFault_latch (s : State) (code : FaultCode) (opc : Byte) :
    (s.commandFault code opc).latch = none := rfl
@[simp] theorem State.commandFault_inputs (s : State) (code : FaultCode) (opc : Byte) :
    (s.commandFault code opc).inputs = s.inputs := rfl
@[simp] theorem State.commandFault_readData (s : State) (code : FaultCode) (opc : Byte) :
    (s.commandFault code opc).readData = s.readData := rfl

/-! ### `State.seedWith` -/

@[simp] theorem State.seedWith_params (s : State) (g : Prng) : (s.seedWith g).params = s.params := rfl
@[simp] theorem State.seedWith_arg0 (s : State) (g : Prng) : (s.seedWith g).arg0 = s.arg0 := rfl
@[simp] theorem State.seedWith_arg1 (s : State) (g : Prng) : (s.seedWith g).arg1 = s.arg1 := rfl
@[simp] theorem State.seedWith_arg2 (s : State) (g : Prng) : (s.seedWith g).arg2 = s.arg2 := rfl
@[simp] theorem State.seedWith_arg3 (s : State) (g : Prng) : (s.seedWith g).arg3 = s.arg3 := rfl
@[simp] theorem State.seedWith_res0 (s : State) (g : Prng) : (s.seedWith g).res0 = s.res0 := rfl
@[simp] theorem State.seedWith_res1 (s : State) (g : Prng) : (s.seedWith g).res1 = s.res1 := rfl
@[simp] theorem State.seedWith_prng (s : State) (g : Prng) : (s.seedWith g).prng = g := rfl
@[simp] theorem State.seedWith_aliasN (s : State) (g : Prng) : (s.seedWith g).aliasN = s.aliasN := rfl
@[simp] theorem State.seedWith_seedLen (s : State) (g : Prng) : (s.seedWith g).seedLen = s.seedLen := rfl
@[simp] theorem State.seedWith_flen (s : State) (g : Prng) : (s.seedWith g).flen = s.flen := rfl
@[simp] theorem State.seedWith_fcount (s : State) (g : Prng) : (s.seedWith g).fcount = s.fcount := rfl
@[simp] theorem State.seedWith_faultInfo (s : State) (g : Prng) : (s.seedWith g).faultInfo = s.faultInfo := rfl
@[simp] theorem State.seedWith_fault (s : State) (g : Prng) : (s.seedWith g).fault = s.fault := rfl
@[simp] theorem State.seedWith_seeded (s : State) (g : Prng) : (s.seedWith g).seeded = true := rfl
@[simp] theorem State.seedWith_aliasValid (s : State) (g : Prng) : (s.seedWith g).aliasValid = s.aliasValid := rfl
@[simp] theorem State.seedWith_faultCode (s : State) (g : Prng) : (s.seedWith g).faultCode = s.faultCode := rfl
@[simp] theorem State.seedWith_idx (s : State) (g : Prng) : (s.seedWith g).idx = s.idx := rfl
@[simp] theorem State.seedWith_mem (s : State) (g : Prng) : (s.seedWith g).mem = s.mem := rfl
@[simp] theorem State.seedWith_latch (s : State) (g : Prng) : (s.seedWith g).latch = s.latch := rfl
@[simp] theorem State.seedWith_inputs (s : State) (g : Prng) : (s.seedWith g).inputs = s.inputs := rfl
@[simp] theorem State.seedWith_readData (s : State) (g : Prng) : (s.seedWith g).readData = s.readData := rfl

/-! ### `State.withSelection` -/

@[simp] theorem State.withSelection_params (s : State) (sel : Selection) :
    (s.withSelection sel).params = s.params := rfl
@[simp] theorem State.withSelection_arg0 (s : State) (sel : Selection) : (s.withSelection sel).arg0 = s.arg0 := rfl
@[simp] theorem State.withSelection_arg1 (s : State) (sel : Selection) : (s.withSelection sel).arg1 = s.arg1 := rfl
@[simp] theorem State.withSelection_arg2 (s : State) (sel : Selection) : (s.withSelection sel).arg2 = s.arg2 := rfl
@[simp] theorem State.withSelection_arg3 (s : State) (sel : Selection) : (s.withSelection sel).arg3 = s.arg3 := rfl
@[simp] theorem State.withSelection_res0 (s : State) (sel : Selection) :
    (s.withSelection sel).res0 = BitVec.ofNat 64 sel.degree := rfl
@[simp] theorem State.withSelection_res1 (s : State) (sel : Selection) :
    (s.withSelection sel).res1 = if sel.fast then 1#64 else 0#64 := rfl
@[simp] theorem State.withSelection_prng (s : State) (sel : Selection) : (s.withSelection sel).prng = s.prng := rfl
@[simp] theorem State.withSelection_aliasN (s : State) (sel : Selection) :
    (s.withSelection sel).aliasN = s.aliasN := rfl
@[simp] theorem State.withSelection_seedLen (s : State) (sel : Selection) :
    (s.withSelection sel).seedLen = s.seedLen := rfl
@[simp] theorem State.withSelection_flen (s : State) (sel : Selection) : (s.withSelection sel).flen = s.flen := rfl
@[simp] theorem State.withSelection_fcount (s : State) (sel : Selection) :
    (s.withSelection sel).fcount = s.fcount := rfl
@[simp] theorem State.withSelection_faultInfo (s : State) (sel : Selection) :
    (s.withSelection sel).faultInfo = s.faultInfo := rfl
@[simp] theorem State.withSelection_fault (s : State) (sel : Selection) : (s.withSelection sel).fault = s.fault := rfl
@[simp] theorem State.withSelection_seeded (s : State) (sel : Selection) :
    (s.withSelection sel).seeded = s.seeded := rfl
@[simp] theorem State.withSelection_aliasValid (s : State) (sel : Selection) :
    (s.withSelection sel).aliasValid = s.aliasValid := rfl
@[simp] theorem State.withSelection_faultCode (s : State) (sel : Selection) :
    (s.withSelection sel).faultCode = s.faultCode := rfl
@[simp] theorem State.withSelection_idx (s : State) (sel : Selection) :
    (s.withSelection sel).idx = idxOfSet sel.set := rfl
@[simp] theorem State.withSelection_mem (s : State) (sel : Selection) : (s.withSelection sel).mem = s.mem := rfl
@[simp] theorem State.withSelection_latch (s : State) (sel : Selection) : (s.withSelection sel).latch = s.latch := rfl
@[simp] theorem State.withSelection_inputs (s : State) (sel : Selection) :
    (s.withSelection sel).inputs = s.inputs := rfl
@[simp] theorem State.withSelection_readData (s : State) (sel : Selection) :
    (s.withSelection sel).readData = s.readData := rfl

/-! ### `State.respond` -/

@[simp] theorem State.respond_params (s : State) (v : Word) : (s.respond v).params = s.params := rfl
@[simp] theorem State.respond_arg0 (s : State) (v : Word) : (s.respond v).arg0 = s.arg0 := rfl
@[simp] theorem State.respond_arg1 (s : State) (v : Word) : (s.respond v).arg1 = s.arg1 := rfl
@[simp] theorem State.respond_arg2 (s : State) (v : Word) : (s.respond v).arg2 = s.arg2 := rfl
@[simp] theorem State.respond_arg3 (s : State) (v : Word) : (s.respond v).arg3 = s.arg3 := rfl
@[simp] theorem State.respond_res0 (s : State) (v : Word) : (s.respond v).res0 = s.res0 := rfl
@[simp] theorem State.respond_res1 (s : State) (v : Word) : (s.respond v).res1 = s.res1 := rfl
@[simp] theorem State.respond_prng (s : State) (v : Word) : (s.respond v).prng = s.prng := rfl
@[simp] theorem State.respond_aliasN (s : State) (v : Word) : (s.respond v).aliasN = s.aliasN := rfl
@[simp] theorem State.respond_seedLen (s : State) (v : Word) : (s.respond v).seedLen = s.seedLen := rfl
@[simp] theorem State.respond_flen (s : State) (v : Word) : (s.respond v).flen = s.flen := rfl
@[simp] theorem State.respond_fcount (s : State) (v : Word) : (s.respond v).fcount = s.fcount := rfl
@[simp] theorem State.respond_faultInfo (s : State) (v : Word) : (s.respond v).faultInfo = s.faultInfo := rfl
@[simp] theorem State.respond_fault (s : State) (v : Word) : (s.respond v).fault = s.fault := rfl
@[simp] theorem State.respond_seeded (s : State) (v : Word) : (s.respond v).seeded = s.seeded := rfl
@[simp] theorem State.respond_aliasValid (s : State) (v : Word) : (s.respond v).aliasValid = s.aliasValid := rfl
@[simp] theorem State.respond_faultCode (s : State) (v : Word) : (s.respond v).faultCode = s.faultCode := rfl
@[simp] theorem State.respond_idx (s : State) (v : Word) : (s.respond v).idx = s.idx := rfl
@[simp] theorem State.respond_mem (s : State) (v : Word) : (s.respond v).mem = s.mem := rfl
@[simp] theorem State.respond_latch (s : State) (v : Word) : (s.respond v).latch = s.latch := rfl
@[simp] theorem State.respond_inputs (s : State) (v : Word) : (s.respond v).inputs = s.inputs := rfl
@[simp] theorem State.respond_readData (s : State) (v : Word) : (s.respond v).readData = v := rfl

/-! ### `State.withInputs` -/

@[simp] theorem State.withInputs_params (s : State) (rest : List Event) : (s.withInputs rest).params = s.params := rfl
@[simp] theorem State.withInputs_arg0 (s : State) (rest : List Event) : (s.withInputs rest).arg0 = s.arg0 := rfl
@[simp] theorem State.withInputs_arg1 (s : State) (rest : List Event) : (s.withInputs rest).arg1 = s.arg1 := rfl
@[simp] theorem State.withInputs_arg2 (s : State) (rest : List Event) : (s.withInputs rest).arg2 = s.arg2 := rfl
@[simp] theorem State.withInputs_arg3 (s : State) (rest : List Event) : (s.withInputs rest).arg3 = s.arg3 := rfl
@[simp] theorem State.withInputs_res0 (s : State) (rest : List Event) : (s.withInputs rest).res0 = s.res0 := rfl
@[simp] theorem State.withInputs_res1 (s : State) (rest : List Event) : (s.withInputs rest).res1 = s.res1 := rfl
@[simp] theorem State.withInputs_prng (s : State) (rest : List Event) : (s.withInputs rest).prng = s.prng := rfl
@[simp] theorem State.withInputs_aliasN (s : State) (rest : List Event) : (s.withInputs rest).aliasN = s.aliasN := rfl
@[simp] theorem State.withInputs_seedLen (s : State) (rest : List Event) :
    (s.withInputs rest).seedLen = s.seedLen := rfl
@[simp] theorem State.withInputs_flen (s : State) (rest : List Event) : (s.withInputs rest).flen = s.flen := rfl
@[simp] theorem State.withInputs_fcount (s : State) (rest : List Event) : (s.withInputs rest).fcount = s.fcount := rfl
@[simp] theorem State.withInputs_faultInfo (s : State) (rest : List Event) :
    (s.withInputs rest).faultInfo = s.faultInfo := rfl
@[simp] theorem State.withInputs_fault (s : State) (rest : List Event) : (s.withInputs rest).fault = s.fault := rfl
@[simp] theorem State.withInputs_seeded (s : State) (rest : List Event) : (s.withInputs rest).seeded = s.seeded := rfl
@[simp] theorem State.withInputs_aliasValid (s : State) (rest : List Event) :
    (s.withInputs rest).aliasValid = s.aliasValid := rfl
@[simp] theorem State.withInputs_faultCode (s : State) (rest : List Event) :
    (s.withInputs rest).faultCode = s.faultCode := rfl
@[simp] theorem State.withInputs_idx (s : State) (rest : List Event) : (s.withInputs rest).idx = s.idx := rfl
@[simp] theorem State.withInputs_mem (s : State) (rest : List Event) : (s.withInputs rest).mem = s.mem := rfl
@[simp] theorem State.withInputs_latch (s : State) (rest : List Event) : (s.withInputs rest).latch = s.latch := rfl
@[simp] theorem State.withInputs_inputs (s : State) (rest : List Event) : (s.withInputs rest).inputs = rest := rfl
@[simp] theorem State.withInputs_readData (s : State) (rest : List Event) :
    (s.withInputs rest).readData = s.readData := rfl

/-! ### `State.withFetchWord` -/

@[simp] theorem State.withFetchWord_params (s : State) (nbits w : Nat) :
    (s.withFetchWord nbits w).params = s.params := rfl
@[simp] theorem State.withFetchWord_arg0 (s : State) (nbits w : Nat) : (s.withFetchWord nbits w).arg0 = s.arg0 := rfl
@[simp] theorem State.withFetchWord_arg1 (s : State) (nbits w : Nat) : (s.withFetchWord nbits w).arg1 = s.arg1 := rfl
@[simp] theorem State.withFetchWord_arg2 (s : State) (nbits w : Nat) : (s.withFetchWord nbits w).arg2 = s.arg2 := rfl
@[simp] theorem State.withFetchWord_arg3 (s : State) (nbits w : Nat) : (s.withFetchWord nbits w).arg3 = s.arg3 := rfl
@[simp] theorem State.withFetchWord_res0 (s : State) (nbits w : Nat) : (s.withFetchWord nbits w).res0 = s.res0 := rfl
@[simp] theorem State.withFetchWord_res1 (s : State) (nbits w : Nat) : (s.withFetchWord nbits w).res1 = s.res1 := rfl
@[simp] theorem State.withFetchWord_prng (s : State) (nbits w : Nat) : (s.withFetchWord nbits w).prng = s.prng := rfl
@[simp] theorem State.withFetchWord_aliasN (s : State) (nbits w : Nat) :
    (s.withFetchWord nbits w).aliasN = s.aliasN := rfl
@[simp] theorem State.withFetchWord_seedLen (s : State) (nbits w : Nat) :
    (s.withFetchWord nbits w).seedLen = s.seedLen := rfl
@[simp] theorem State.withFetchWord_flen (s : State) (nbits w : Nat) : (s.withFetchWord nbits w).flen = s.flen := rfl
@[simp] theorem State.withFetchWord_fcount (s : State) (nbits w : Nat) :
    (s.withFetchWord nbits w).fcount = s.fcount := rfl
@[simp] theorem State.withFetchWord_faultInfo (s : State) (nbits w : Nat) :
    (s.withFetchWord nbits w).faultInfo = s.faultInfo := rfl
@[simp] theorem State.withFetchWord_fault (s : State) (nbits w : Nat) : (s.withFetchWord nbits w).fault = false := rfl
@[simp] theorem State.withFetchWord_seeded (s : State) (nbits w : Nat) :
    (s.withFetchWord nbits w).seeded = s.seeded := rfl
@[simp] theorem State.withFetchWord_aliasValid (s : State) (nbits w : Nat) :
    (s.withFetchWord nbits w).aliasValid = s.aliasValid := rfl
@[simp] theorem State.withFetchWord_faultCode (s : State) (nbits w : Nat) :
    (s.withFetchWord nbits w).faultCode = s.faultCode := rfl
@[simp] theorem State.withFetchWord_idx (s : State) (nbits w : Nat) : (s.withFetchWord nbits w).idx = s.idx := rfl
@[simp] theorem State.withFetchWord_mem (s : State) (nbits w : Nat) : (s.withFetchWord nbits w).mem = s.mem := rfl
@[simp] theorem State.withFetchWord_latch (s : State) (nbits w : Nat) :
    (s.withFetchWord nbits w).latch = some (BitVec.ofNat 64 (w % 2 ^ nbits)) := rfl
@[simp] theorem State.withFetchWord_inputs (s : State) (nbits w : Nat) :
    (s.withFetchWord nbits w).inputs = Event.deviceTurn :: s.inputs := rfl
@[simp] theorem State.withFetchWord_readData (s : State) (nbits w : Nat) :
    (s.withFetchWord nbits w).readData = s.readData := rfl

/-! ### `State.deviceReset` and `State.resetWith` -/

@[simp] theorem State.deviceReset_params (s : State) : s.deviceReset.params = s.params := rfl
@[simp] theorem State.deviceReset_arg0 (s : State) : s.deviceReset.arg0 = 0#64 := rfl
@[simp] theorem State.deviceReset_arg1 (s : State) : s.deviceReset.arg1 = 0#64 := rfl
@[simp] theorem State.deviceReset_arg2 (s : State) : s.deviceReset.arg2 = 0#64 := rfl
@[simp] theorem State.deviceReset_arg3 (s : State) : s.deviceReset.arg3 = 0#64 := rfl
@[simp] theorem State.deviceReset_res0 (s : State) : s.deviceReset.res0 = 0#64 := rfl
@[simp] theorem State.deviceReset_res1 (s : State) : s.deviceReset.res1 = 0#64 := rfl
@[simp] theorem State.deviceReset_prng (s : State) : s.deviceReset.prng = ⟨0#64, 0#64, 0#64, 0#64⟩ := rfl
@[simp] theorem State.deviceReset_aliasN (s : State) : s.deviceReset.aliasN = 0#64 := rfl
@[simp] theorem State.deviceReset_seedLen (s : State) : s.deviceReset.seedLen = 0#64 := rfl
@[simp] theorem State.deviceReset_flen (s : State) : s.deviceReset.flen = 0#64 := rfl
@[simp] theorem State.deviceReset_fcount (s : State) : s.deviceReset.fcount = 0#64 := rfl
@[simp] theorem State.deviceReset_faultInfo (s : State) : s.deviceReset.faultInfo = 0#64 := rfl
@[simp] theorem State.deviceReset_fault (s : State) : s.deviceReset.fault = false := rfl
@[simp] theorem State.deviceReset_seeded (s : State) : s.deviceReset.seeded = false := rfl
@[simp] theorem State.deviceReset_aliasValid (s : State) : s.deviceReset.aliasValid = false := rfl
@[simp] theorem State.deviceReset_faultCode (s : State) : s.deviceReset.faultCode = 0#8 := rfl
@[simp] theorem State.deviceReset_idx (s : State) : s.deviceReset.idx = 0 := rfl
@[simp] theorem State.deviceReset_mem (s : State) : s.deviceReset.mem = [] := rfl
@[simp] theorem State.deviceReset_latch (s : State) : s.deviceReset.latch = none := rfl
@[simp] theorem State.deviceReset_inputs (s : State) : s.deviceReset.inputs = s.inputs := rfl
@[simp] theorem State.deviceReset_readData (s : State) : s.deviceReset.readData = s.readData := rfl
@[simp] theorem State.resetWith_params (p : Params) : (State.resetWith p).params = p := rfl
@[simp] theorem State.resetWith_arg0 (p : Params) : (State.resetWith p).arg0 = 0#64 := rfl
@[simp] theorem State.resetWith_arg1 (p : Params) : (State.resetWith p).arg1 = 0#64 := rfl
@[simp] theorem State.resetWith_arg2 (p : Params) : (State.resetWith p).arg2 = 0#64 := rfl
@[simp] theorem State.resetWith_arg3 (p : Params) : (State.resetWith p).arg3 = 0#64 := rfl
@[simp] theorem State.resetWith_res0 (p : Params) : (State.resetWith p).res0 = 0#64 := rfl
@[simp] theorem State.resetWith_res1 (p : Params) : (State.resetWith p).res1 = 0#64 := rfl
@[simp] theorem State.resetWith_prng (p : Params) : (State.resetWith p).prng = ⟨0#64, 0#64, 0#64, 0#64⟩ := rfl
@[simp] theorem State.resetWith_aliasN (p : Params) : (State.resetWith p).aliasN = 0#64 := rfl
@[simp] theorem State.resetWith_seedLen (p : Params) : (State.resetWith p).seedLen = 0#64 := rfl
@[simp] theorem State.resetWith_flen (p : Params) : (State.resetWith p).flen = 0#64 := rfl
@[simp] theorem State.resetWith_fcount (p : Params) : (State.resetWith p).fcount = 0#64 := rfl
@[simp] theorem State.resetWith_faultInfo (p : Params) : (State.resetWith p).faultInfo = 0#64 := rfl
@[simp] theorem State.resetWith_fault (p : Params) : (State.resetWith p).fault = false := rfl
@[simp] theorem State.resetWith_seeded (p : Params) : (State.resetWith p).seeded = false := rfl
@[simp] theorem State.resetWith_aliasValid (p : Params) : (State.resetWith p).aliasValid = false := rfl
@[simp] theorem State.resetWith_faultCode (p : Params) : (State.resetWith p).faultCode = 0#8 := rfl
@[simp] theorem State.resetWith_idx (p : Params) : (State.resetWith p).idx = 0 := rfl
@[simp] theorem State.resetWith_mem (p : Params) : (State.resetWith p).mem = [] := rfl
@[simp] theorem State.resetWith_latch (p : Params) : (State.resetWith p).latch = none := rfl
@[simp] theorem State.resetWith_inputs (p : Params) : (State.resetWith p).inputs = [] := rfl
@[simp] theorem State.resetWith_readData (p : Params) : (State.resetWith p).readData = 0#64 := rfl

/-! ### BUSY -/

@[simp] theorem State.busy_complete (s : State) : s.complete.busy = false := rfl

@[simp] theorem State.busy_faultEntry (s : State) (code : FaultCode) (addr : Addr) (write : Bool) (opc : Byte) :
    (s.faultEntry code addr write opc).busy = false := rfl

theorem State.busy_eq_true_iff (s : State) : s.busy = true ↔ ∃ c, s.latch = some c := Option.isSome_iff_exists

theorem State.busy_eq_false_iff (s : State) : s.busy = false ↔ s.latch = none := by
  cases h : s.latch <;> simp [State.busy, h]

/-- Resetting twice is resetting once. -/
theorem State.deviceReset_deviceReset (s : State) : s.deviceReset.deviceReset = s.deviceReset := rfl

end Sys2Proof.Machine
end

