-- ==== Sys2Proof/Laws/Memory.lean ====
section
/-! SUPPORT. The laws of memory: a read after a write, what a write leaves alone, and the canonical form, for bytes,
RAM cells and runs of cells. -/

namespace Sys2Proof.Machine

/-! ### Bytes -/

theorem readByte_writeByte_same (m : List Host.Cell) (a : Nat) (v : Byte) :
    Memory.readByte (Memory.writeByte m a v) a = some v := by
  induction m with
  | nil => simp [Memory.writeByte, Memory.readByte]
  | cons c rest ih =>
    obtain ⟨k, b⟩ := c
    simp only [Memory.writeByte]
    split_ifs with h1 h2
    · simp [Memory.readByte]
    · simp [Memory.readByte]
    · simp [Memory.readByte, h2, ih]

theorem readByte_writeByte_other (m : List Host.Cell) (a x : Nat) (v : Byte) (hx : x ≠ a) :
    Memory.readByte (Memory.writeByte m a v) x = Memory.readByte m x := by
  induction m with
  | nil => simp [Memory.writeByte, Memory.readByte, hx]
  | cons c rest ih =>
    obtain ⟨k, b⟩ := c
    simp only [Memory.writeByte]
    split_ifs with h1 h2
    · simp [Memory.readByte, hx]
    · subst h2; simp [Memory.readByte, hx]
    · simp only [Memory.readByte, ih]

theorem readByte_writeByte (m : List Host.Cell) (a x : Nat) (v : Byte) :
    Memory.readByte (Memory.writeByte m a v) x = if x = a then some v else Memory.readByte m x := by
  split_ifs with h
  · subst h; exact readByte_writeByte_same m x v
  · exact readByte_writeByte_other m a x v h

theorem mem_writeByte {m : List Host.Cell} {a : Nat} {v : Byte} {c : Host.Cell}
    (hc : c ∈ Memory.writeByte m a v) : c = (a, v) ∨ c ∈ m := by
  induction m with
  | nil => simpa [Memory.writeByte] using hc
  | cons d rest ih =>
    obtain ⟨k, b⟩ := d
    simp only [Memory.writeByte] at hc
    split_ifs at hc with h1 h2
    · simpa using hc
    · rcases List.mem_cons.1 hc with h | h
      · exact .inl h
      · exact .inr (List.mem_cons_of_mem _ h)
    · rcases List.mem_cons.1 hc with h | h
      · exact .inr (h ▸ List.mem_cons_self)
      · exact (ih h).imp_right (List.mem_cons_of_mem _)

theorem writeByte_wf {m : List Host.Cell} (a : Nat) (v : Byte) (h : Memory.wf m) :
    Memory.wf (Memory.writeByte m a v) := by
  induction m with
  | nil => simp [Memory.writeByte, Memory.wf]
  | cons d rest ih =>
    obtain ⟨k, b⟩ := d
    have hr : Memory.wf rest := (List.pairwise_cons.1 h).2
    have hk : ∀ c ∈ rest, k < c.1 := (List.pairwise_cons.1 h).1
    simp only [Memory.writeByte]
    split_ifs with h1 h2
    · refine List.pairwise_cons.2 ⟨fun c hc => ?_, h⟩
      rcases List.mem_cons.1 hc with rfl | hc
      · exact h1
      · exact h1.trans (hk c hc)
    · subst h2; exact List.pairwise_cons.2 ⟨hk, hr⟩
    · refine List.pairwise_cons.2 ⟨fun c hc => ?_, ih hr⟩
      rcases mem_writeByte hc with rfl | hc
      · simp only; omega
      · exact hk c hc

/-- A listed address reads as its byte, in a memory of canonical form. -/
theorem readByte_of_mem {m : List Host.Cell} {a : Nat} {v : Byte} (h : Memory.wf m) (hc : (a, v) ∈ m) :
    Memory.readByte m a = some v := by
  induction m with
  | nil => cases hc
  | cons d rest ih =>
    obtain ⟨k, b⟩ := d
    rcases List.mem_cons.1 hc with h1 | h1
    · cases h1; simp [Memory.readByte]
    · have : k < a := (List.pairwise_cons.1 h).1 _ h1
      simp only [Memory.readByte]
      rw [if_neg (by omega)]
      exact ih (List.pairwise_cons.1 h).2 h1

/-- A byte that reads is listed. -/
theorem mem_of_readByte {m : List Host.Cell} {a : Nat} {v : Byte} (h : Memory.readByte m a = some v) :
    (a, v) ∈ m := by
  induction m with
  | nil => simp [Memory.readByte] at h
  | cons d rest ih =>
    obtain ⟨k, b⟩ := d
    simp only [Memory.readByte] at h
    split_ifs at h with hk
    · cases h; subst hk; exact List.mem_cons_self
    · exact List.mem_cons_of_mem _ (ih h)

/-- Equal memories are equal data: two memories of canonical form that read the same everywhere are one list. -/
theorem memory_ext {m m' : List Host.Cell} (h : Memory.wf m) (h' : Memory.wf m')
    (hr : ∀ x, Memory.readByte m x = Memory.readByte m' x) : m = m' := by
  have hlt : ∀ {l : List Host.Cell}, Memory.wf l → l.Nodup := fun hl =>
    hl.imp fun hcd he => by simp [he] at hcd
  refine List.Perm.eq_of_pairwise (fun c d _ _ h1 h2 => absurd h1 (by omega)) h h'
    ((List.perm_ext_iff_of_nodup (hlt h) (hlt h')).2 fun c => ?_)
  obtain ⟨a, v⟩ := c
  constructor
  · intro hc; exact mem_of_readByte (hr a ▸ readByte_of_mem h hc)
  · intro hc; exact mem_of_readByte ((hr a).symm ▸ readByte_of_mem h' hc)

/-! ### Runs of bytes -/

theorem readByte_writeBytes_outside (m : List Host.Cell) (a : Nat) (bs : List Byte) (x : Nat)
    (hx : x < a ∨ a + bs.length ≤ x) :
    Memory.readByte (Memory.writeBytes m a bs) x = Memory.readByte m x := by
  induction bs generalizing m a with
  | nil => rfl
  | cons b rest ih =>
    simp only [List.length_cons] at hx
    rw [Memory.writeBytes, ih _ _ (by omega), readByte_writeByte_other _ _ _ _ (by omega)]

theorem readByte_writeBytes_inside (m : List Host.Cell) (a : Nat) (bs : List Byte) (k : Nat) (hk : k < bs.length) :
    Memory.readByte (Memory.writeBytes m a bs) (a + k) = some bs[k] := by
  induction bs generalizing m a k with
  | nil => simp at hk
  | cons b rest ih =>
    rw [Memory.writeBytes]
    cases k with
    | zero =>
      rw [readByte_writeBytes_outside _ _ _ _ (by omega)]
      simpa using readByte_writeByte_same m a b
    | succ k =>
      have := ih (Memory.writeByte m a b) (a + 1) k (by simpa using hk)
      simpa [Nat.add_comm, Nat.add_left_comm, Nat.add_assoc] using this

theorem writeBytes_wf {m : List Host.Cell} (a : Nat) (bs : List Byte) (h : Memory.wf m) :
    Memory.wf (Memory.writeBytes m a bs) := by
  induction bs generalizing m a with
  | nil => exact h
  | cons b rest ih => exact ih _ (writeByte_wf a b h)

/-- A run of bytes reads as `bs` exactly when each of its bytes does. -/
theorem readBytes_eq_some_iff (m : List Host.Cell) (a n : Nat) (bs : List Byte) :
    Memory.readBytes m a n = some bs ↔
      bs.length = n ∧ ∀ k (h : k < bs.length), Memory.readByte m (a + k) = some bs[k] := by
  induction n generalizing a bs with
  | zero =>
    constructor
    · intro h; cases h; simp
    · rintro ⟨h, -⟩; rw [List.length_eq_zero_iff.1 h]; rfl
  | succ n ih =>
    simp only [Memory.readBytes]
    constructor
    · intro h
      split at h
      · next b bs' hb hbs =>
        cases h
        obtain ⟨hl, hr⟩ := (ih _ _).1 hbs
        refine ⟨by simp [hl], fun k hk => ?_⟩
        cases k with
        | zero => simpa using hb
        | succ k =>
          have := hr k (by simpa using hk)
          simpa [Nat.add_comm, Nat.add_left_comm, Nat.add_assoc] using this
      · cases h
    · rintro ⟨hl, hr⟩
      obtain _ | ⟨b, bs⟩ := bs
      · simp at hl
      · have h0 : Memory.readByte m a = some b := hr 0 (by simp)
        have h1 : Memory.readBytes m (a + 1) n = some bs := by
          refine (ih _ _).2 ⟨by simpa using hl, fun k hk => ?_⟩
          have := hr (k + 1) (by simpa using hk)
          simpa [Nat.add_comm, Nat.add_left_comm, Nat.add_assoc] using this
        simp [h0, h1]

/-- A run of bytes depends on those bytes alone. -/
theorem readBytes_congr {m m' : List Host.Cell} {a n : Nat}
    (h : ∀ x, a ≤ x → x < a + n → Memory.readByte m' x = Memory.readByte m x) :
    Memory.readBytes m' a n = Memory.readBytes m a n := by
  induction n generalizing a with
  | zero => rfl
  | succ n ih =>
    simp only [Memory.readBytes]
    rw [h a (by omega) (by omega), ih (fun x h1 h2 => h x (by omega) (by omega))]

/-! ### Cells -/

/-- The eight bytes an entry is kept as give the entry back. -/
theorem leValue_entryBytes (w : Word) : BitVec.ofNat 64 (leValue (entryBytes w)) = w := by
  apply BitVec.eq_of_toNat_eq
  simp only [entryBytes, leValue, BitVec.extractLsb'_toNat, BitVec.toNat_ofNat, Nat.shiftRight_eq_div_pow]
  have := w.isLt
  omega

@[simp] theorem entryBytes_length (w : Word) : (entryBytes w).length = 8 := rfl

theorem readByteCell_write_same (m : List Host.Cell) (r : Ram) (i : Nat) (b : Byte) :
    readByteCell (writeByteCell m r i b) r i = .ok b := by
  simp [readByteCell, writeByteCell, readByte_writeByte_same]

theorem readWordCell_write_same (m : List Host.Cell) (r : Ram) (i : Nat) (w : Word) :
    readWordCell (writeWordCell m r i w) r i = .ok w := by
  have : Memory.readBytes (writeWordCell m r i w) (r.addr i) 8 = some (entryBytes w) :=
    (readBytes_eq_some_iff _ _ _ _).2 ⟨rfl, fun k hk => readByte_writeBytes_inside m _ _ k hk⟩
  simp [readWordCell, this, leValue_entryBytes]

theorem readByteCell_eq_ok_iff (m : List Host.Cell) (r : Ram) (i : Nat) (b : Byte) :
    readByteCell m r i = .ok b ↔ Memory.readByte m (r.addr i) = some b := by
  unfold readByteCell
  split <;> simp_all

theorem readByteCell_congr {m m' : List Host.Cell} {r : Ram} {i : Nat}
    (h : Memory.readByte m' (r.addr i) = Memory.readByte m (r.addr i)) :
    readByteCell m' r i = readByteCell m r i := by
  simp [readByteCell, h]

theorem readWordCell_congr {m m' : List Host.Cell} {r : Ram} {i : Nat}
    (h : ∀ x, r.addr i ≤ x → x < r.addr i + 8 → Memory.readByte m' x = Memory.readByte m x) :
    readWordCell m' r i = readWordCell m r i := by
  simp [readWordCell, readBytes_congr h]

/-- A read of a byte cell never ends in a device fault. -/
theorem readByteCell_error {m : List Host.Cell} {r : Ram} {i : Nat} {e : Stop} (h : readByteCell m r i = .error e) :
    e = .uninit r i ∧ Memory.readByte m (r.addr i) = none := by
  unfold readByteCell at h
  split at h
  · cases h
  · next hn => exact ⟨by cases h; rfl, hn⟩

/-- A read of an entry never ends in a device fault. -/
theorem readWordCell_error {m : List Host.Cell} {r : Ram} {i : Nat} {e : Stop} (h : readWordCell m r i = .error e) :
    e = .uninit r i ∧ Memory.readBytes m (r.addr i) 8 = none := by
  unfold readWordCell at h
  split at h
  · cases h
  · next hn => exact ⟨by cases h; rfl, hn⟩

/-! ### Runs of cells -/

theorem readByteCells_eq_ok_iff (m : List Host.Cell) (r : Ram) (i n : Nat) (bs : List Byte) :
    readByteCells m r i n = .ok bs ↔
      bs.length = n ∧ ∀ k (h : k < bs.length), readByteCell m r (i + k) = .ok bs[k] := by
  induction n generalizing i bs with
  | zero =>
    constructor
    · intro h; cases h; simp
    · rintro ⟨h, -⟩; rw [List.length_eq_zero_iff.1 h]; rfl
  | succ n ih =>
    simp only [readByteCells]
    constructor
    · intro h
      cases hb : readByteCell m r i with
      | error e => rw [hb] at h; cases h
      | ok b =>
        cases hbs : readByteCells m r (i + 1) n with
        | error e => rw [hb, hbs] at h; cases h
        | ok bs' =>
          rw [hb, hbs] at h
          cases h
          obtain ⟨hl, hr⟩ := (ih _ _).1 hbs
          refine ⟨by simp [hl], fun k hk => ?_⟩
          cases k with
          | zero => simpa using hb
          | succ k =>
            have := hr k (by simpa using hk)
            simpa [Nat.add_comm, Nat.add_left_comm, Nat.add_assoc] using this
    · rintro ⟨hl, hr⟩
      obtain _ | ⟨b, bs⟩ := bs
      · simp at hl
      · have h0 : readByteCell m r i = .ok b := hr 0 (by simp)
        have h1 : readByteCells m r (i + 1) n = .ok bs := by
          refine (ih _ _).2 ⟨by simpa using hl, fun k hk => ?_⟩
          have := hr (k + 1) (by simpa using hk)
          simpa [Nat.add_comm, Nat.add_left_comm, Nat.add_assoc] using this
        rw [h0, h1]; rfl

theorem readWordCells_eq_ok_iff (m : List Host.Cell) (r : Ram) (i n : Nat) (ws : List Word) :
    readWordCells m r i n = .ok ws ↔
      ws.length = n ∧ ∀ k (h : k < ws.length), readWordCell m r (i + k) = .ok ws[k] := by
  induction n generalizing i ws with
  | zero =>
    constructor
    · intro h; cases h; simp
    · rintro ⟨h, -⟩; rw [List.length_eq_zero_iff.1 h]; rfl
  | succ n ih =>
    simp only [readWordCells]
    constructor
    · intro h
      cases hb : readWordCell m r i with
      | error e => rw [hb] at h; cases h
      | ok b =>
        cases hbs : readWordCells m r (i + 1) n with
        | error e => rw [hb, hbs] at h; cases h
        | ok bs' =>
          rw [hb, hbs] at h
          cases h
          obtain ⟨hl, hr⟩ := (ih _ _).1 hbs
          refine ⟨by simp [hl], fun k hk => ?_⟩
          cases k with
          | zero => simpa using hb
          | succ k =>
            have := hr k (by simpa using hk)
            simpa [Nat.add_comm, Nat.add_left_comm, Nat.add_assoc] using this
    · rintro ⟨hl, hr⟩
      obtain _ | ⟨b, bs⟩ := ws
      · simp at hl
      · have h0 : readWordCell m r i = .ok b := hr 0 (by simp)
        have h1 : readWordCells m r (i + 1) n = .ok bs := by
          refine (ih _ _).2 ⟨by simpa using hl, fun k hk => ?_⟩
          have := hr (k + 1) (by simpa using hk)
          simpa [Nat.add_comm, Nat.add_left_comm, Nat.add_assoc] using this
        rw [h0, h1]; rfl

/-- Reading a run of byte cells ends early only in UninitRead, on an unwritten cell of the run. -/
theorem readByteCells_error {m : List Host.Cell} {r : Ram} {i n : Nat} {e : Stop}
    (h : readByteCells m r i n = .error e) :
    ∃ k < n, e = .uninit r (i + k) ∧ Memory.readByte m (r.addr (i + k)) = none := by
  induction n generalizing i with
  | zero => cases h
  | succ n ih =>
    simp only [readByteCells] at h
    cases hb : readByteCell m r i with
    | error e' =>
      rw [hb] at h
      cases h
      exact ⟨0, by omega, readByteCell_error hb⟩
    | ok b =>
      cases hbs : readByteCells m r (i + 1) n with
      | ok bs => rw [hb, hbs] at h; cases h
      | error e' =>
        rw [hb, hbs] at h
        cases h
        obtain ⟨k, hk, hk'⟩ := ih hbs
        exact ⟨k + 1, by omega, by rwa [show i + (k + 1) = i + 1 + k by omega]⟩

/-- Reading a run of entries ends early only in UninitRead, on an entry of the run that is not written. -/
theorem readWordCells_error {m : List Host.Cell} {r : Ram} {i n : Nat} {e : Stop}
    (h : readWordCells m r i n = .error e) :
    ∃ k < n, e = .uninit r (i + k) ∧ Memory.readBytes m (r.addr (i + k)) 8 = none := by
  induction n generalizing i with
  | zero => cases h
  | succ n ih =>
    simp only [readWordCells] at h
    cases hb : readWordCell m r i with
    | error e' =>
      rw [hb] at h
      cases h
      exact ⟨0, by omega, readWordCell_error hb⟩
    | ok b =>
      cases hbs : readWordCells m r (i + 1) n with
      | ok bs => rw [hb, hbs] at h; cases h
      | error e' =>
        rw [hb, hbs] at h
        cases h
        obtain ⟨k, hk, hk'⟩ := ih hbs
        exact ⟨k + 1, by omega, by rwa [show i + (k + 1) = i + 1 + k by omega]⟩

/-- Writing byte cells is writing their bytes, for a RAM whose cell is one byte. -/
theorem writeByteCells_eq (m : List Host.Cell) (r : Ram) (i : Nat) (bs : List Byte) (h1 : r.cellBytes = 1) :
    writeByteCells m r i bs = Memory.writeBytes m (r.addr i) bs := by
  induction bs generalizing m i with
  | nil => rfl
  | cons b rest ih =>
    rw [writeByteCells, ih, Memory.writeBytes, writeByteCell]
    congr 1
    simp [Ram.addr, h1, Nat.add_assoc]

theorem readByte_writeWordCells_outside (m : List Host.Cell) (r : Ram) (i : Nat) (ws : List Word) (x : Nat)
    (h8 : r.cellBytes = 8) (hx : x < r.addr i ∨ r.addr i + 8 * ws.length ≤ x) :
    Memory.readByte (writeWordCells m r i ws) x = Memory.readByte m x := by
  induction ws generalizing m i with
  | nil => rfl
  | cons w rest ih =>
    have ha : r.addr (i + 1) = r.addr i + 8 := by simp [Ram.addr, h8]; omega
    simp only [List.length_cons] at hx
    rw [writeWordCells, ih _ _ (by omega), writeWordCell, readByte_writeBytes_outside _ _ _ _ (by simp; omega)]

theorem readWordCell_writeWordCells_inside (m : List Host.Cell) (r : Ram) (i : Nat) (ws : List Word) (k : Nat)
    (h8 : r.cellBytes = 8) (hk : k < ws.length) :
    readWordCell (writeWordCells m r i ws) r (i + k) = .ok ws[k] := by
  induction ws generalizing m i k with
  | nil => simp at hk
  | cons w rest ih =>
    rw [writeWordCells]
    cases k with
    | zero =>
      have ha : r.addr (i + 1) = r.addr i + 8 := by simp [Ram.addr, h8]; omega
      have : readWordCell (writeWordCells (writeWordCell m r i w) r (i + 1) rest) r (i + 0) =
          readWordCell (writeWordCell m r i w) r i :=
        readWordCell_congr fun x _ h2 => readByte_writeWordCells_outside _ _ _ _ _ h8 (by simp at h2; omega)
      rw [this, readWordCell_write_same]; rfl
    | succ k =>
      have := ih (writeWordCell m r i w) (i + 1) k (by simpa using hk)
      simpa [Nat.add_comm, Nat.add_left_comm, Nat.add_assoc] using this

theorem writeByteCells_wf {m : List Host.Cell} (r : Ram) (i : Nat) (bs : List Byte) (h : Memory.wf m) :
    Memory.wf (writeByteCells m r i bs) := by
  induction bs generalizing m i with
  | nil => exact h
  | cons b rest ih => exact ih _ (writeByte_wf _ b h)

theorem writeWordCells_wf {m : List Host.Cell} (r : Ram) (i : Nat) (ws : List Word) (h : Memory.wf m) :
    Memory.wf (writeWordCells m r i ws) := by
  induction ws generalizing m i with
  | nil => exact h
  | cons w rest ih => exact ih _ (writeBytes_wf _ _ h)

/-- Cells of two different RAMs never share a byte, within the sizes R6 allows: the windows of R61 are disjoint. -/
theorem Ram.addr_disjoint (p : Params) (hp : p.Legal) (r r' : Ram) (hr : r ≠ r') (i i' : Nat)
    (hi : i < r.cells p) (hi' : i' < r'.cells p) (k k' : Nat) (hk : k < r.cellBytes) (hk' : k' < r'.cellBytes) :
    r.addr i + k ≠ r'.addr i' + k' := by
  obtain ⟨⟨_, h1⟩, ⟨_, h2⟩, ⟨_, h3⟩, ⟨_, h4⟩⟩ := hp
  cases r <;> cases r' <;> first | exact absurd rfl hr | skip
  all_goals simp only [Ram.addr, Ram.base, Ram.cellBytes, Ram.cells] at *; omega

end Sys2Proof.Machine
end

