-- ==== Sys2Proof/Laws/Commands.lean ====
section
/-! SUPPORT. What the shared operations of the commands can do: how a command ends, each operand check, fault entry. -/

namespace Sys2Proof.Machine

/-! ### How a command ends -/

/-- A command that answers a next state completed or took fault entry, and nothing else. -/
theorem finish_next_iff {i : Instr} {s t : State} {r : Except Stop State} :
    finish i s r = .next t ↔
      (∃ u, r = .ok u ∧ t = u.complete) ∨ (∃ code, r = .error (.device code) ∧ t = s.commandFault code (opcodeOf i)) := by
  rcases r with (code | ⟨ram, k⟩) | u <;> simp [finish, eq_comm]

/-- A command that stops the run read an unwritten cell. -/
theorem finish_fault_iff {i : Instr} {s : State} {r : Except Stop State} {f : Fault} :
    finish i s r = .fault f ↔ ∃ ram k, r = .error (.uninit ram k) ∧ f = .uninitRead ram k := by
  rcases r with (code | ⟨ram, k⟩) | u <;> simp [finish, eq_comm]

/-- A command is never refused. -/
theorem finish_ne_refused {i : Instr} {s : State} {r : Except Stop State} {q : Refusal} :
    finish i s r ≠ .refused q := by
  rcases r with (code | ⟨ram, k⟩) | u <;> simp [finish]

@[simp] theorem finish_ok (i : Instr) (s u : State) : finish i s (.ok u) = .next u.complete := rfl

@[simp] theorem finish_device (i : Instr) (s : State) (code : FaultCode) :
    finish i s (.error (.device code)) = .next (s.commandFault code (opcodeOf i)) := rfl

@[simp] theorem finish_uninit (i : Instr) (s : State) (ram : Ram) (k : Nat) :
    finish i s (.error (.uninit ram k)) = .fault (.uninitRead ram k) := rfl

/-! ### Computations that may end early -/

@[simp] theorem ok_bind {α β : Type} (a : α) (f : α → Except Stop β) : (Except.ok a >>= f) = f a := rfl

@[simp] theorem error_bind {α β : Type} (e : Stop) (f : α → Except Stop β) :
    ((Except.error e : Except Stop α) >>= f) = .error e := rfl

@[simp] theorem pure_eq_ok {α : Type} (a : α) : (pure a : Except Stop α) = .ok a := rfl

/-- A sequence that answers went through its first part. -/
theorem bind_eq_ok_iff {α β : Type} {x : Except Stop α} {f : α → Except Stop β} {b : β} :
    (x >>= f) = .ok b ↔ ∃ a, x = .ok a ∧ f a = .ok b := by
  cases x <;> simp

/-- A sequence that ends early ended in its first part or in the rest. -/
theorem bind_eq_error_iff {α β : Type} {x : Except Stop α} {f : α → Except Stop β} {e : Stop} :
    (x >>= f) = .error e ↔ x = .error e ∨ ∃ a, x = .ok a ∧ f a = .error e := by
  cases x <;> simp

/-! ### Checks and operands -/

@[simp] theorem require_eq_ok_iff {b : Bool} {code : FaultCode} {u : Unit} : require b code = .ok u ↔ b = true := by
  cases b <;> simp [require]

@[simp] theorem require_eq_error_iff {b : Bool} {code : FaultCode} {e : Stop} :
    require b code = .error e ↔ b = false ∧ e = .device code := by
  cases b <;> simp [require, eq_comm]

@[simp] theorem require_true (code : FaultCode) : require true code = .ok () := rfl

@[simp] theorem require_false (code : FaultCode) : require false code = .error (.device code) := rfl

/-- A u32 operand is legal exactly when its high half is zero, which is when its value is below 2^32 (R93). -/
theorem operandU32_eq_ok_iff {w : Word} {v : Word32} :
    operandU32 w = .ok v ↔ w.toNat < 2 ^ 32 ∧ v = w.setWidth 32 := by
  have h : w.extractLsb' 32 32 = 0#32 ↔ w.toNat < 2 ^ 32 := by
    rw [← BitVec.toNat_inj]
    simp only [BitVec.extractLsb'_toNat, Nat.shiftRight_eq_div_pow, BitVec.toNat_ofNat]
    have := w.isLt
    omega
  unfold operandU32
  split_ifs with hw
  · have := h.1 hw
    simp only [Except.ok.injEq, this, true_and, eq_comm]
  · have := mt h.2 hw
    simp [-Nat.reducePow, this]

theorem operandU32_eq_error_iff {w : Word} {e : Stop} :
    operandU32 w = .error e ↔ 2 ^ 32 ≤ w.toNat ∧ e = .device .operand := by
  have := @operandU32_eq_ok_iff w (w.setWidth 32)
  unfold operandU32 at *
  split_ifs at * <;> simp_all [eq_comm]

theorem operandRange_eq_ok_iff {w : Word} {lo hi n : Nat} :
    operandRange w lo hi = .ok n ↔ lo ≤ w.toNat ∧ w.toNat ≤ hi ∧ n = w.toNat := by
  unfold operandRange
  split_ifs with h
  · simp; omega
  · simp [eq_comm]; omega

theorem operandRange_eq_error_iff {w : Word} {lo hi : Nat} {e : Stop} :
    operandRange w lo hi = .error e ↔ (w.toNat < lo ∨ hi < w.toNat) ∧ e = .device .operand := by
  unfold operandRange
  split_ifs with h <;> simp [h, eq_comm]

/-- The checks (a) to (c) of R201. -/
theorem operandFragments_eq_ok_iff {s : State} {fl fc : Nat} :
    operandFragments s = .ok (fl, fc) ↔
      (1 ≤ s.flen.toNat ∧ s.flen.toNat ≤ s.params.flenMax) ∧ (1 ≤ s.fcount.toNat ∧ s.fcount.toNat ≤ s.params.nMax) ∧
      s.fcount.toNat * s.flen.toNat ≤ s.params.fragBytes ∧ fl = s.flen.toNat ∧ fc = s.fcount.toNat := by
  simp only [operandFragments, bind_eq_ok_iff, operandRange_eq_ok_iff, require_eq_ok_iff, decide_eq_true_eq, pure_eq_ok,
    Except.ok.injEq, Prod.mk.injEq]
  constructor
  · rintro ⟨_, ⟨h1, h2, rfl⟩, _, ⟨h3, h4, rfl⟩, _, h5, rfl, rfl⟩
    exact ⟨⟨h1, h2⟩, ⟨h3, h4⟩, h5, rfl, rfl⟩
  · rintro ⟨⟨h1, h2⟩, ⟨h3, h4⟩, h5, rfl, rfl⟩
    exact ⟨_, ⟨h1, h2, rfl⟩, _, ⟨h3, h4, rfl⟩, (), h5, rfl, rfl⟩

/-- Every failure of the checks of R201 is E_OPERAND. -/
theorem operandFragments_error {s : State} {e : Stop} (h : operandFragments s = .error e) : e = .device .operand := by
  simp only [operandFragments, bind_eq_error_iff, operandRange_eq_error_iff, require_eq_error_iff] at h
  rcases h with h | ⟨_, -, h | ⟨_, -, h | ⟨_, -, h⟩⟩⟩
  · exact h.2
  · exact h.2
  · exact h.2
  · cases h

theorem operandIndexSet_eq_ok_iff {s : State} {n : Nat} {u : Unit} :
    operandIndexSet s n = .ok u ↔ s.idx < 2 ^ n := by
  rw [operandIndexSet, require_eq_ok_iff, decide_eq_true_eq, Nat.div_eq_zero_iff]
  have : (2 : Nat) ^ n ≠ 0 := by positivity
  tauto

/-! ### Fault entry -/

theorem getLsbD_bitAt (k : Nat) (b : Bool) (i : Nat) :
    (bitAt k b).getLsbD i = (b && decide (k = i) && decide (i < 64)) := by
  unfold bitAt
  cases b
  · simp
  · simp only [if_true, BitVec.getLsbD_shiftLeft, BitVec.getLsbD_one, Bool.true_and]
    by_cases h : i < 64 <;> by_cases h2 : k = i <;> simp [h, h2]
    omega

theorem getElem_bitAt (k : Nat) (b : Bool) (i : Nat) (h : i < 64) : (bitAt k b)[i] = (b && decide (k = i)) := by
  rw [← BitVec.getLsbD_eq_getElem, getLsbD_bitAt]; simp [h]

/-- FAULT_INFO's fields as fault entry packs them (R38). -/
theorem faultInfoWord_fields (addr : Addr) (write : Bool) (opc : Byte) :
    (faultInfoWord addr write opc).extractLsb' 0 32 = addr ∧
    (faultInfoWord addr write opc).getLsbD 32 = write ∧
    (faultInfoWord addr write opc).extractLsb' 33 7 = 0#7 ∧
    (faultInfoWord addr write opc).extractLsb' 40 8 = opc ∧
    (faultInfoWord addr write opc).extractLsb' 48 16 = 0#16 := by
  refine ⟨?_, ?_, ?_, ?_, ?_⟩
  · ext i hi
    simp [faultInfoWord, BitVec.getElem_extractLsb', getElem_bitAt, hi, show i < 40 by omega, show ¬ 32 = i by omega,
      show i < 64 by omega]
  · simp [faultInfoWord, getElem_bitAt]
  · ext i hi
    simp [faultInfoWord, BitVec.getElem_extractLsb', getLsbD_bitAt, show 33 + i < 40 by omega, show ¬ 32 = 33 + i by omega,
      BitVec.getLsbD_of_ge addr (33 + i) (by omega)]
  · ext i hi
    simp [faultInfoWord, BitVec.getElem_extractLsb', getElem_bitAt, hi, show ¬ 32 = 40 + i by omega,
      show 40 + i < 64 by omega, BitVec.getLsbD_of_ge addr (40 + i) (by omega)]
  · ext i hi
    simp [faultInfoWord, BitVec.getElem_extractLsb', getElem_bitAt, show ¬ 32 = 48 + i by omega,
      show 48 + i < 64 by omega, show 48 + i - 40 = i + 8 by omega, BitVec.getLsbD_of_ge addr (48 + i) (by omega)]

/-- STATUS's fields as the host reads them (R24). -/
theorem statusWord_fields (s : State) :
    s.statusWord.getLsbD 0 = s.busy ∧ s.statusWord.getLsbD 1 = s.fault ∧ s.statusWord.getLsbD 2 = s.seeded ∧
    s.statusWord.getLsbD 3 = s.aliasValid ∧ s.statusWord.extractLsb' 4 4 = 0#4 ∧
    s.statusWord.extractLsb' 8 8 = s.faultCode ∧ s.statusWord.extractLsb' 16 48 = 0#48 := by
  refine ⟨?_, ?_, ?_, ?_, ?_, ?_, ?_⟩
  · simp [State.statusWord, getElem_bitAt]
  · simp [State.statusWord, getElem_bitAt]
  · simp [State.statusWord, getElem_bitAt]
  · simp [State.statusWord, getElem_bitAt]
  · ext i hi
    simp [State.statusWord, BitVec.getElem_extractLsb', getElem_bitAt, show 4 + i < 64 by omega, show 4 + i < 8 by omega,
      show ¬ 0 = 4 + i by omega, show ¬ 1 = 4 + i by omega, show ¬ 2 = 4 + i by omega, show ¬ 3 = 4 + i by omega]
  · ext i hi
    simp [State.statusWord, BitVec.getElem_extractLsb', getElem_bitAt, hi, show 8 + i < 64 by omega,
      show ¬ 0 = 8 + i by omega, show ¬ 1 = 8 + i by omega, show ¬ 2 = 8 + i by omega, show ¬ 3 = 8 + i by omega]
  · ext i hi
    simp [State.statusWord, BitVec.getElem_extractLsb', getElem_bitAt, show 16 + i < 64 by omega,
      show ¬ 0 = 16 + i by omega, show ¬ 1 = 16 + i by omega, show ¬ 2 = 16 + i by omega, show ¬ 3 = 16 + i by omega,
      show 16 + i - 8 = i + 8 by omega]

/-- The codes of R230 lie in 1..7. -/
theorem FaultCode.bits_range (c : FaultCode) : 1#8 ≤ c.bits ∧ c.bits ≤ 7#8 := by cases c <;> decide

end Sys2Proof.Machine
end

