-- ==== Sys2Proof/Laws/Bus.lean ====
section
/-! SUPPORT. What an access can reach, and what reading and writing a target can do. -/

namespace Sys2Proof.Machine

theorem cellAt_eq_some_iff {p : Params} {r : Ram} {off width : Nat} {t : Target} :
    cellAt p r off width = some t ↔
      width = r.cellBytes ∧ off % r.cellBytes = 0 ∧ off / r.cellBytes < r.cells p ∧ t = .cell r (off / r.cellBytes) := by
  unfold cellAt
  split_ifs with h
  · simp [h, eq_comm]
  · refine ⟨(fun h' => nomatch h'), ?_⟩
    rintro ⟨h1, h2, h3, -⟩
    exact h ⟨h1, h2, h3⟩

/-- An access reaches a register, an existing RAM cell at its own address, or a word of IDX. -/
theorem targetAt_cases {p : Params} {addr : Addr} {width : Nat} {t : Target} (h : targetAt p addr width = some t) :
    (∃ r, t = .reg r ∧ width = 8 ∧ regAt addr.toNat = some r) ∨
    (∃ r i, t = .cell r i ∧ width = r.cellBytes ∧ i < r.cells p ∧ addr.toNat = r.addr i) ∨
    (∃ w, t = .idxWord w ∧ width = 8 ∧ w < (p.nMax + 63) / 64 ∧ addr.toNat = 0x05000000 + 8 * w) := by
  have hdm := Nat.div_add_mod addr.toNat (2 ^ 24)
  unfold targetAt at h
  simp only at h
  split at h
  case h_1 hw =>
    split_ifs at h with h8
    obtain ⟨r, hr, rfl⟩ := Option.map_eq_some_iff.1 h
    exact .inl ⟨r, rfl, h8, by rwa [show addr.toNat = addr.toNat % 2 ^ 24 by omega]⟩
  case h_6 hw =>
    split_ifs at h with h8
    cases h
    exact .inr (.inr ⟨_, rfl, h8.1, h8.2.2, by omega⟩)
  case h_9 => cases h
  all_goals
    next hw =>
    obtain ⟨h1, h2, h3, rfl⟩ := cellAt_eq_some_iff.1 h
    refine .inr (.inl ⟨_, _, rfl, h1, h3, ?_⟩)
    simp only [Ram.addr, Ram.base, Ram.cellBytes] at *
    omega

/-- A legal access reaches what the address map gives, and a legal write a writable target (R65). -/
theorem legalTarget_eq_some_iff {p : Params} {addr : Addr} {width : Nat} {write : Bool} {t : Target} :
    legalTarget p addr width write = some t ↔ targetAt p addr width = some t ∧ (write = true → t.writable = true) := by
  unfold legalTarget
  cases h : targetAt p addr width with
  | none => simp
  | some t' =>
    cases write <;> cases hw : t'.writable <;> simp [hw]
    · rintro rfl; simp [hw]
    · rintro rfl; exact hw

/-- Reading a target never ends in a device fault. -/
theorem readTarget_error {s : State} {t : Target} {e : Stop} (h : s.readTarget t = .error e) :
    ∃ r i, t = .cell r i ∧ e = .uninit r i := by
  cases t with
  | reg r => cases h
  | idxWord w => cases h
  | cell r i =>
    refine ⟨r, i, rfl, ?_⟩
    simp only [State.readTarget] at h
    cases r <;> simp only at h
    all_goals first
      | exact (readWordCell_error h).1
      | (cases hb : readByteCell s.mem _ i with
         | ok b => rw [hb] at h; cases h
         | error e' => rw [hb] at h; cases h; exact (readByteCell_error hb).1)

/-- A read that answers a next state changed nothing but the value given to the host. -/
theorem readResponse_next {s u : State} {t : Target} (h : readResponse s t = .next u) :
    ∃ v, s.readTarget t = .ok v ∧ u = s.respond v := by
  unfold readResponse at h
  split at h
  · next v hv => cases h; exact ⟨v, hv, rfl⟩
  · cases h
  · next hc =>
    obtain ⟨r, i, -, he⟩ := readTarget_error hc
    cases he

end Sys2Proof.Machine
end

