-- ==== Sys2Proof/Laws/Exec.lean ====
section
/-! SUPPORT. How every command ends, and the device's turn. -/

namespace Sys2Proof.Machine

/-- Every meaning is a computation on the state before the command, closed by `finish`. -/
theorem exec_eq_finish (i : Instr) (s : State) : ∃ r, exec i s = finish i s r := by
  cases i
  case nop => exact ⟨.ok s, rfl⟩
  case prngSeedWords => exact ⟨.ok (s.seedWith ⟨s.arg0, s.arg1, s.arg2, s.arg3⟩), rfl⟩
  all_goals exact ⟨_, rfl⟩

/-- A command that answers a next state completed or took fault entry. -/
theorem exec_next {i : Instr} {s t : State} (h : exec i s = .next t) :
    (∃ u : State, t = u.complete) ∨ (∃ code, t = s.commandFault code (opcodeOf i)) := by
  obtain ⟨r, hr⟩ := exec_eq_finish i s
  rw [hr] at h
  exact (finish_next_iff.1 h).imp (fun ⟨u, _, hu⟩ => ⟨u, hu⟩) (fun ⟨c, _, hc⟩ => ⟨c, hc⟩)

/-- What a turn of the device can be. -/
theorem deviceTurn_eq (s : State) :
    deviceTurn s = .next s ∨ (∃ i, deviceTurn s = exec i s) ∨
      (∃ c, deviceTurn s = .next (s.commandFault .illegal (opcField c))) := by
  unfold deviceTurn
  split
  · exact .inl rfl
  · split
    · exact .inr (.inl ⟨_, rfl⟩)
    · exact .inr (.inr ⟨_, rfl⟩)

end Sys2Proof.Machine
end

