-- ==== Sys2Proof/Laws/Generator.lean ====
section
/-! SUPPORT. The generator's step as a linear map over GF(2): it commutes with the exclusive or of states, a jump is a
polynomial in it, and products of such polynomials are compositions (R111, R122). -/

namespace Sys2Proof.Machine

theorem rotl64_xor (a b : Word) (k : Nat) (h0 : 0 < k) (h : k < 64) :
    rotl64 (a ^^^ b) k = rotl64 a k ^^^ rotl64 b k := by
  ext i hi
  simp only [rotl64, shl64, shr64, BitVec.getElem_or, BitVec.getElem_xor, BitVec.getElem_shiftLeft,
    BitVec.getElem_ushiftRight, BitVec.getLsbD_xor]
  by_cases hk : i < k
  · simp [hk]
  · simp [hk, BitVec.getLsbD_of_ge a (64 - k + i) (by omega), BitVec.getLsbD_of_ge b (64 - k + i) (by omega)]

theorem shl64_xor (a b : Word) (k : Nat) : shl64 (a ^^^ b) k = shl64 a k ^^^ shl64 b k :=
  BitVec.shiftLeft_xor_distrib a b k

/-! ### The exclusive or of states -/

/-- The all-zero state. -/
abbrev Prng.zero : Prng := ⟨0#64, 0#64, 0#64, 0#64⟩

theorem Prng.xor_comm (a b : Prng) : a.xor b = b.xor a := by simp [Prng.xor, BitVec.xor_comm]

theorem Prng.xor_assoc (a b c : Prng) : (a.xor b).xor c = a.xor (b.xor c) := by simp [Prng.xor, BitVec.xor_assoc]

@[simp] theorem Prng.xor_zero (a : Prng) : a.xor Prng.zero = a := by simp [Prng.xor]

@[simp] theorem Prng.zero_xor (a : Prng) : Prng.zero.xor a = a := by simp [Prng.xor]

@[simp] theorem Prng.xor_self (a : Prng) : a.xor a = Prng.zero := by simp [Prng.xor]

theorem Prng.xor_left_comm (a b c : Prng) : a.xor (b.xor c) = b.xor (a.xor c) := by
  rw [← Prng.xor_assoc, Prng.xor_comm a, Prng.xor_assoc]

@[simp] theorem Prng.xor_cancel_left (a b : Prng) : a.xor (a.xor b) = b := by simp [← Prng.xor_assoc]

/-- The step, field by field (R111). -/
theorem next_snd (g : Prng) :
    (next g).2 = ⟨g.s0 ^^^ (g.s3 ^^^ g.s1), g.s1 ^^^ (g.s2 ^^^ g.s0), (g.s2 ^^^ g.s0) ^^^ shl64 g.s1 17,
      rotl64 (g.s3 ^^^ g.s1) 45⟩ := rfl

/-- The step commutes with the exclusive or of states (R111). -/
theorem next_xor (a b : Prng) : (next (a.xor b)).2 = (next a).2.xor (next b).2 := by
  have h : (a.s3 ^^^ b.s3) ^^^ (a.s1 ^^^ b.s1) = (a.s3 ^^^ a.s1) ^^^ (b.s3 ^^^ b.s1) := by ac_rfl
  have h3 : rotl64 ((a.s3 ^^^ b.s3) ^^^ (a.s1 ^^^ b.s1)) 45 = rotl64 (a.s3 ^^^ a.s1) 45 ^^^ rotl64 (b.s3 ^^^ b.s1) 45 := by
    rw [h, rotl64_xor _ _ 45 (by decide) (by decide)]
  have h2 := shl64_xor a.s1 b.s1 17
  rw [next_snd, next_snd, next_snd]
  unfold Prng.xor
  dsimp only
  rw [h3, h2]
  generalize shl64 a.s1 17 = x
  generalize shl64 b.s1 17 = y
  generalize rotl64 (a.s3 ^^^ a.s1) 45 = u
  generalize rotl64 (b.s3 ^^^ b.s1) 45 = v
  rw [Prng.mk.injEq]
  exact ⟨by ac_rfl, by ac_rfl, by ac_rfl, rfl⟩

@[simp] theorem next_zero : (next Prng.zero).2 = Prng.zero := by decide

/-! ### Draws one after another -/

theorem afterDraws_add (m n : Nat) (g : Prng) : afterDraws g (m + n) = afterDraws (afterDraws g m) n := by
  induction m generalizing g with
  | zero => simp [afterDraws]
  | succ m ih => rw [Nat.succ_add, afterDraws, afterDraws, ih]

theorem afterDraws_succ' (n : Nat) (g : Prng) : afterDraws g (n + 1) = (next (afterDraws g n)).2 := by
  rw [afterDraws_add]; rfl

theorem afterDraws_xor (n : Nat) (a b : Prng) :
    afterDraws (a.xor b) n = (afterDraws a n).xor (afterDraws b n) := by
  induction n generalizing a b with
  | zero => rfl
  | succ n ih => rw [afterDraws, next_xor, ih]; rfl

/-! ### Polynomials in the step -/

/-- The exclusive or of the states after `k` draws, over the `k < n` whose bit in `p` is 1: the value at `g` of the
polynomial in the step whose coefficients are the bits of `p`. -/
def stepPoly : Nat → Nat → Prng → Prng
  | 0, _, _ => Prng.zero
  | n + 1, p, g => (if p.testBit 0 then g else Prng.zero).xor (stepPoly n (p / 2) (next g).2)

theorem stepPoly_state_xor (n p : Nat) (a b : Prng) :
    stepPoly n p (a.xor b) = (stepPoly n p a).xor (stepPoly n p b) := by
  induction n generalizing p a b with
  | zero => simp [stepPoly]
  | succ n ih =>
    simp only [stepPoly, next_xor, ih]
    split <;> simp [Prng.xor_assoc, Prng.xor_left_comm]

theorem stepPoly_xor (n p q : Nat) (g : Prng) : stepPoly n (p ^^^ q) g = (stepPoly n p g).xor (stepPoly n q g) := by
  induction n generalizing p q g with
  | zero => simp [stepPoly]
  | succ n ih =>
    have hd : (p ^^^ q) / 2 = p / 2 ^^^ q / 2 := Nat.xor_div_two
    simp only [stepPoly, hd, ih, Nat.testBit_xor]
    cases p.testBit 0 <;> cases q.testBit 0 <;> simp [Prng.xor_assoc, Prng.xor_left_comm]

/-- A polynomial in the step commutes with the step. -/
theorem stepPoly_next (n p : Nat) (g : Prng) : stepPoly n p (next g).2 = (next (stepPoly n p g)).2 := by
  induction n generalizing p g with
  | zero => simp [stepPoly]
  | succ n ih =>
    simp only [stepPoly, next_xor, ih]
    split <;> simp

/-- Coefficients above the highest bit add nothing. -/
theorem stepPoly_succ_of_lt (n p : Nat) (g : Prng) (h : p < 2 ^ n) : stepPoly (n + 1) p g = stepPoly n p g := by
  induction n generalizing p g with
  | zero =>
    obtain rfl : p = 0 := by simpa using h
    simp [stepPoly]
  | succ n ih =>
    rw [stepPoly, ih _ _ (by rw [pow_succ] at h; omega)]
    rfl

/-- Twice a polynomial's bits is the polynomial after one more step. -/
theorem stepPoly_double (n p : Nat) (g : Prng) (h : p < 2 ^ n) :
    stepPoly (n + 1) (2 * p) g = (next (stepPoly (n + 1) p g)).2 := by
  rw [stepPoly_succ_of_lt n p g h, ← stepPoly_next, stepPoly]
  simp

/-- The loop of R122 adds to T the polynomial whose coefficients are the jump bits. -/
theorem jumpBits_eq (l : List Bool) (t g : Prng) :
    (jumpBits l (t, g)).1 = t.xor (stepPoly l.length (l.foldr (fun b p => 2 * p + b.toNat) 0) g) := by
  induction l generalizing t g with
  | nil => simp [jumpBits, stepPoly]
  | cons b rest ih =>
    rw [jumpBits, jumpBit, ih]
    simp only [List.length_cons, List.foldr_cons, stepPoly]
    generalize rest.foldr (fun b p => 2 * p + b.toNat) 0 = p
    rw [← Prng.xor_assoc]
    have h1 : (2 * p + b.toNat).testBit 0 = b := by cases b <;> simp [Nat.testBit_zero]
    have h2 : (2 * p + b.toNat) / 2 = p := by cases b <;> simp only [Bool.toNat_true, Bool.toNat_false] <;> omega
    rw [h1, h2]
    cases b <;> simp

/-- The bits of a word put together again. -/
theorem foldr_bits (w n q : Nat) :
    ((List.range n).map w.testBit).foldr (fun b p => 2 * p + b.toNat) q = w % 2 ^ n + 2 ^ n * q := by
  induction n generalizing q with
  | zero => simp [Nat.mod_one]
  | succ n ih =>
    rw [List.range_succ, List.map_append, List.foldr_append, List.map_singleton, List.foldr_cons, List.foldr_nil, ih,
      Nat.mod_pow_succ, Nat.testBit_eq_decide_div_mod_eq, pow_succ]
    have : w / 2 ^ n % 2 < 2 := Nat.mod_lt _ (by decide)
    rcases (by omega : w / 2 ^ n % 2 = 0 ∨ w / 2 ^ n % 2 = 1) with h | h <;> simp [h] <;> ring

/-- A jump is the value of a polynomial in the step, its coefficients the 256 bits of the jump constant (R122). -/
theorem jumpBy_eq_stepPoly (g : Prng) (j0 j1 j2 j3 : Word) :
    jumpBy g [j0, j1, j2, j3] =
      stepPoly 256 (j0.toNat + 2 ^ 64 * (j1.toNat + 2 ^ 64 * (j2.toNat + 2 ^ 64 * j3.toNat))) g := by
  have hw : ∀ (w : Word) (q : Nat),
      ((List.range 64).map w.getLsbD).foldr (fun b p => 2 * p + b.toNat) q = w.toNat + 2 ^ 64 * q := by
    intro w q
    have := foldr_bits w.toNat 64 q
    rwa [Nat.mod_eq_of_lt w.isLt] at this
  have hl : (jumpBitList [j0, j1, j2, j3]).length = 256 := by simp [jumpBitList]
  rw [jumpBy, jumpBits_eq, hl, Prng.zero_xor]
  refine congrArg (fun p => stepPoly 256 p g) ?_
  simp only [jumpBitList, List.flatMap_cons, List.flatMap_nil, List.append_nil, List.foldr_append, hw, Nat.mul_zero, Nat.add_zero]

end Sys2Proof.Machine
end

