-- ==== Sys2Proof/Laws/Idx.lean ====
section
/-! SUPPORT. IDX bit by bit: the bitmap of a set (R184), and a word of it read and written by the host (R45). -/

namespace Sys2Proof.Machine

/-- `IDX[k] = 1` exactly when `k` is in the set (R184). -/
theorem testBit_idxOfSet (set : List Nat) (k : Nat) : (idxOfSet set).testBit k = decide (k ∈ set) := by
  have gen : ∀ (l : List Nat) (acc : Nat),
      (l.foldl (fun acc k => acc ||| 2 ^ k) acc).testBit k = (acc.testBit k || decide (k ∈ l)) := by
    intro l
    induction l with
    | nil => simp
    | cons a rest ih =>
      intro acc
      simp only [List.foldl_cons, ih, Nat.testBit_or, Nat.testBit_two_pow, List.mem_cons]
      by_cases h : k = a <;> simp [h, eq_comm]
  simpa [idxOfSet] using gen set 0

/-- A set of indexes below `n` has a bitmap below 2^n. -/
theorem idxOfSet_lt (set : List Nat) (n : Nat) (h : ∀ k ∈ set, k < n) : idxOfSet set < 2 ^ n := by
  refine Nat.lt_pow_two_of_testBit _ fun k hk => ?_
  rw [testBit_idxOfSet]
  simp only [decide_eq_false_iff_not]
  intro hm
  exact absurd (h k hm) (by omega)

/-- Bit `b` of word `w` is `IDX[64w + b]`, and 0 at N_MAX and above (R45, R63). -/
theorem getLsbD_idxReadWord (nMax idx w b : Nat) (hb : b < 64) :
    (idxReadWord nMax idx w).getLsbD b = (decide (64 * w + b < nMax) && idx.testBit (64 * w + b)) := by
  rw [idxReadWord, BitVec.getLsbD_ofNat, Nat.testBit_div_two_pow, Nat.testBit_mod_two_pow, Nat.add_comm b]
  simp [hb]

/-- After a host write of word `w`, bit `k` is `v`'s where the word holds it, and as before elsewhere; 0 at N_MAX and
above (R45, R64). -/
theorem testBit_idxWriteWord (nMax idx w k : Nat) (v : Word) :
    (idxWriteWord nMax idx w v).testBit k =
      (decide (k < nMax) && if k / 64 = w then v.getLsbD (k % 64) else idx.testBit k) := by
  have hv := v.isLt
  have hlow : idx % 2 ^ (64 * w) < 2 ^ (64 * w) := Nat.mod_lt _ (by positivity)
  have hmid : v.toNat + 2 ^ 64 * (idx / 2 ^ (64 * w + 64)) =
      2 ^ 64 * (idx / 2 ^ (64 * w + 64)) + v.toNat := by omega
  have hsum : idx % 2 ^ (64 * w) + 2 ^ (64 * w) * v.toNat + 2 ^ (64 * w + 64) * (idx / 2 ^ (64 * w + 64)) =
      2 ^ (64 * w) * (2 ^ 64 * (idx / 2 ^ (64 * w + 64)) + v.toNat) + idx % 2 ^ (64 * w) := by
    rw [pow_add]; ring
  unfold idxWriteWord
  rw [hsum, Nat.testBit_mod_two_pow, Nat.testBit_two_pow_mul_add _ hlow]
  congr 1
  by_cases h1 : k < 64 * w
  · rw [if_pos h1, if_neg (by omega), Nat.testBit_mod_two_pow]
    simp [h1]
  · rw [if_neg h1, Nat.testBit_two_pow_mul_add _ hv]
    by_cases h2 : k - 64 * w < 64
    · rw [if_pos h2, if_pos (by omega), show k % 64 = k - 64 * w by omega]
      rfl
    · rw [if_neg h2, if_neg (by omega), Nat.testBit_div_two_pow]
      congr 1; omega

/-- A host write keeps the bits at N_MAX and above clear (R45). -/
theorem idxWriteWord_lt (nMax idx w : Nat) (v : Word) : idxWriteWord nMax idx w v < 2 ^ nMax :=
  Nat.mod_lt _ (by positivity)

end Sys2Proof.Machine
end

