-- ==== Sys2Proof/Laws/Mixer.lean ====
section
/-! SUPPORT. The mixer byte by byte (R202). -/

namespace Sys2Proof.Machine

/-- A byte of the mix, when every selected fragment's byte is written: the exclusive or over the selected fragments. -/
theorem mixByte_eq_ok (m : List Host.Cell) (idx flen j : Nat) (f : Nat → Byte) (n k : Nat) (acc : Byte)
    (h : ∀ i, k ≤ i → i < k + n → idx.testBit i = true → readByteCell m .frag (i * flen + j) = .ok (f i)) :
    mixByte m idx flen j n k acc =
      .ok (((List.range' k n).filter idx.testBit).foldl (fun a i => a ^^^ f i) acc) := by
  induction n generalizing k acc with
  | zero => rfl
  | succ n ih =>
    have ih' := fun acc => ih (k + 1) acc (fun i h1 h2 h3 => h i (by omega) (by omega) h3)
    rw [mixByte, List.range'_succ, List.filter_cons]
    split_ifs with hb
    · rw [h k le_rfl (by omega) hb, ok_bind, ih', List.foldl_cons]
    · exact ih' acc

/-- A byte of the mix ends early only on an unwritten byte of a selected fragment. -/
theorem mixByte_error {m : List Host.Cell} {idx flen j n k : Nat} {acc : Byte} {e : Stop}
    (h : mixByte m idx flen j n k acc = .error e) :
    ∃ i, k ≤ i ∧ i < k + n ∧ idx.testBit i = true ∧ e = .uninit .frag (i * flen + j) ∧
      Memory.readByte m (Ram.frag.addr (i * flen + j)) = none := by
  induction n generalizing k acc with
  | zero => cases h
  | succ n ih =>
    rw [mixByte] at h
    split_ifs at h with hb
    · rcases bind_eq_error_iff.1 h with h | ⟨b, -, h⟩
      · exact ⟨k, le_rfl, by omega, hb, readByteCell_error h⟩
      · obtain ⟨i, h1, h2, h3⟩ := ih h
        exact ⟨i, by omega, by omega, h3⟩
    · obtain ⟨i, h1, h2, h3⟩ := ih h
      exact ⟨i, by omega, by omega, h3⟩

/-- A run of bytes of the mix, given each of them. -/
theorem mixBytes_eq_ok_iff (m : List Host.Cell) (idx flen fcount n j : Nat) (o : List Byte) :
    mixBytes m idx flen fcount n j = .ok o ↔
      o.length = n ∧ ∀ k (h : k < o.length), mixByte m idx flen (j + k) fcount 0 0#8 = .ok o[k] := by
  induction n generalizing j o with
  | zero =>
    constructor
    · intro h; cases h; simp
    · rintro ⟨h, -⟩; rw [List.length_eq_zero_iff.1 h]; rfl
  | succ n ih =>
    simp only [mixBytes, bind_eq_ok_iff, pure_eq_ok, Except.ok.injEq]
    constructor
    · rintro ⟨b, hb, bs, hbs, rfl⟩
      obtain ⟨hl, hr⟩ := (ih _ _).1 hbs
      refine ⟨by simp [hl], fun k hk => ?_⟩
      cases k with
      | zero => simpa using hb
      | succ k =>
        have := hr k (by simpa using hk)
        simpa [Nat.add_comm, Nat.add_left_comm, Nat.add_assoc] using this
    · rintro ⟨hl, hr⟩
      obtain _ | ⟨b, bs⟩ := o
      · simp at hl
      · refine ⟨b, hr 0 (by simp), bs, (ih _ _).2 ⟨by simpa using hl, fun k hk => ?_⟩, rfl⟩
        have := hr (k + 1) (by simpa using hk)
        simpa [Nat.add_comm, Nat.add_left_comm, Nat.add_assoc] using this

/-- The mix has FLEN bytes (R202). -/
theorem mixFragments_length {m : List Host.Cell} {idx flen fcount : Nat} {o : List Byte}
    (h : mixFragments m idx flen fcount = .ok o) : o.length = flen :=
  ((mixBytes_eq_ok_iff _ _ _ _ _ _ _).1 h).1

/-- The mix ends early only in UninitRead, on a byte of a selected fragment. -/
theorem mixBytes_error {m : List Host.Cell} {idx flen fcount n j : Nat} {e : Stop}
    (h : mixBytes m idx flen fcount n j = .error e) :
    ∃ i k, i < fcount ∧ idx.testBit i = true ∧ j ≤ k ∧ k < j + n ∧ e = .uninit .frag (i * flen + k) ∧
      Memory.readByte m (Ram.frag.addr (i * flen + k)) = none := by
  induction n generalizing j with
  | zero => cases h
  | succ n ih =>
    rw [mixBytes] at h
    rcases bind_eq_error_iff.1 h with h | ⟨b, -, h⟩
    · obtain ⟨i, -, h2, h3, h4⟩ := mixByte_error h
      exact ⟨i, j, by omega, h3, le_rfl, by omega, h4⟩
    · rcases bind_eq_error_iff.1 h with h | ⟨bs, -, h⟩
      · obtain ⟨i, k, h1, h2, h3, h4, h5⟩ := ih h
        exact ⟨i, k, h1, h2, by omega, by omega, h5⟩
      · cases h

end Sys2Proof.Machine
end

