-- ==== Sys2Proof/Laws/PerInstr.lean ====
section
/-! SUPPORT. Facts about each instruction as syntax, one lemma a constructor: the form of its command word. -/

namespace Sys2Proof.Laws.EncodingForm

/-- The command word of `i` has RSV zero and an OPC that is not reserved, and the OPC lies in its sub-block's group of
R94: 0x00 the system command, 0x01 to 0x0F the generator, 0x10 to 0x17 the alias sampler, 0x18 to 0x1F the selector,
0x20 to 0x27 the mixer. -/
def Statement (i : Instr) : Prop :=
  i.WellFormed = true ∧ CommandWord.WellFormed (encode i) = true ∧
  match i with
  | .nop => encode i = 0#64
  | .aliasBuild | .aliasSample | .aliasSampleRng => 0x10#64 ≤ encode i ∧ encode i ≤ 0x17#64
  | .select => 0x18#64 ≤ encode i ∧ encode i ≤ 0x1F#64
  | .mix | .part => 0x20#64 ≤ encode i ∧ encode i ≤ 0x27#64
  | _ => 0x01#64 ≤ encode i ∧ encode i ≤ 0x0F#64

theorem nop : Statement .nop := by unfold Statement; decide
theorem prngSeedWords : Statement .prngSeedWords := by unfold Statement; decide
theorem prngSeedBytes32 : Statement .prngSeedBytes32 := by unfold Statement; decide
theorem prngSeedHash : Statement .prngSeedHash := by unfold Statement; decide
theorem prngSeedU32 : Statement .prngSeedU32 := by unfold Statement; decide
theorem prngNext : Statement .prngNext := by unfold Statement; decide
theorem prngNextDouble : Statement .prngNextDouble := by unfold Statement; decide
theorem prngNextInt : Statement .prngNextInt := by unfold Statement; decide
theorem prngNextByte : Statement .prngNextByte := by unfold Statement; decide
theorem prngNextBytes : Statement .prngNextBytes := by unfold Statement; decide
theorem prngJump : Statement .prngJump := by unfold Statement; decide
theorem prngLongJump : Statement .prngLongJump := by unfold Statement; decide
theorem aliasBuild : Statement .aliasBuild := by unfold Statement; decide
theorem aliasSample : Statement .aliasSample := by unfold Statement; decide
theorem aliasSampleRng : Statement .aliasSampleRng := by unfold Statement; decide
theorem select : Statement .select := by unfold Statement; decide
theorem mix : Statement .mix := by unfold Statement; decide
theorem part : Statement .part := by unfold Statement; decide

end Sys2Proof.Laws.EncodingForm
end

