-- ==== Sys2Proof/Tests/Slice0.lean ====
section
/-! SUPPORT. The model's own tests: ill-formed terms that the checks refuse, words written out bit by bit that decode to
their commands, one step of each command against 95_test_vectors.md and the examples of the rules, and for every
statement with hypotheses a witness that meets them (`witness_<statement>`). -/

namespace Sys2Proof.Tests

-- One kernel evaluation at a time: side by side, their threads' stacks alone would pass the memory limit of a check.
set_option Elab.async false

open Sys2Proof.Machine

/-! ### Helpers -/

/-- The outcome is a next state of which `p` holds. -/
def nextIs (o : Host.Outcome State Fault Refusal) (p : State → Bool) : Bool :=
  match o with
  | .next t => p t
  | _ => false

/-- The outcome is the model fault `f`. -/
def stopsWith (o : Host.Outcome State Fault Refusal) (f : Fault) : Bool :=
  match o with
  | .fault g => g == f
  | _ => false

theorem eq_fault_of_stopsWith {o : Host.Outcome State Fault Refusal} {f : Fault} (h : stopsWith o f = true) :
    o = .fault f := by
  cases o <;> simp_all [stopsWith]

theorem exists_next_of_nextIs {o : Host.Outcome State Fault Refusal} {p : State → Bool} (h : nextIs o p = true) :
    ∃ t, o = .next t ∧ p t = true := by
  cases o <;> simp_all [nextIs]

/-- `WeightsLegal` by evaluation. -/
theorem weightsLegal_of_all {w : List Word}
    (h : (w.all (fun x => F64.ge x F64.zero && x != F64.inf) && F64.lt F64.zero (w.foldl F64.add F64.zero) &&
      w.foldl F64.add F64.zero != F64.inf) = true) : WeightsLegal w := by
  simpa [WeightsLegal, and_assoc] using h

/-- The generator seeded with the words 1, 2, 3, 4 (R125's example). -/
def words1234 : State := { State.reset with prng := ⟨1#64, 2#64, 3#64, 4#64⟩, seeded := true }

/-- The generator seeded by PRNG_SEED_HASH "Wolf" (R127's example). -/
def wolf : State :=
  { State.reset with
    prng := ⟨0xea858afbf837aae7#64, 0x14617e89a36524ac#64, 0xed28f7de921f7798#64, 0xe72810fd8839a462#64⟩
    seeded := true }

/-- A generator whose next draw is 2^64 − 1025, the largest that maps below 1.0 (95_test_vectors.md 3.1). -/
def drawLargest : State := { State.reset with prng := ⟨0#64, 0x1c9f49f49f49f49f#64, 0#64, 0#64⟩, seeded := true }

/-- A generator whose next draw is 2^64 − 1024, the smallest that maps to 1.0 (95_test_vectors.md 3.1). -/
def drawTooLarge : State := { State.reset with prng := ⟨0#64, 0xccd82d82d82d82d8#64, 0#64, 0#64⟩, seeded := true }

/-- A generator whose first draw is 0 and whose second is 2^64 − 1: S[1] becomes S[1] ^ S[2] ^ S[0] (R111). -/
def secondTooLarge : State := { State.reset with prng := ⟨0#64, 0#64, 0x4fc71c71c71c71c7#64, 0#64⟩, seeded := true }

/-- WEIGHT holds 1, 2, 4, 8 and ARG0 is 4 (R156's example). -/
def fourWeights : State :=
  { State.reset with
    mem := writeWordCells [] .weight 0
      [0x3ff0000000000000#64, 0x4000000000000000#64, 0x4010000000000000#64, 0x4020000000000000#64]
    arg0 := 4#64 }

/-- The tables of R156's example, on the "Wolf" generator. -/
def fourTables : State :=
  { wolf with
    mem := writeWordCells
      (writeWordCells [] .prob 0
        [0x3fd1111111111111#64, 0x3fe1111111111111#64, 0x3fd5555555555554#64, 0x3ff0000000000000#64])
      .aliasTab 0 [2#64, 3#64, 3#64, 0#64]
    aliasN := 4#64, aliasValid := true }

/-- FRAG holds the fragments of R205's example, FLEN = 4, FCOUNT = 3, the set {0, 2} in IDX. -/
def threeFragments : State :=
  { State.reset with
    mem := writeByteCells [] .frag 0
      [0x01#8, 0x02#8, 0x03#8, 0x04#8, 0x10#8, 0x20#8, 0x30#8, 0x40#8, 0xff#8, 0x00#8, 0xff#8, 0x00#8]
    flen := 4#64, fcount := 3#64, idx := 0x5 }

/-- "hello world" loaded with FLEN = 6, FCOUNT = 2 and its checksum (R206's example). -/
def helloWorld : State :=
  { State.reset with
    mem := writeByteCells [] .frag 0
      [0x68#8, 0x65#8, 0x6c#8, 0x6c#8, 0x6f#8, 0x20#8, 0x77#8, 0x6f#8, 0x72#8, 0x6c#8, 0x64#8, 0x00#8]
    flen := 6#64, fcount := 2#64, arg2 := 0x0d4a1185#64 }

/-- SEED_BUF holds "Wolf" and SEED_LEN is 4 (R127's example). -/
def wolfBytes : State :=
  { State.reset with mem := writeByteCells [] .seedBuf 0 [0x57#8, 0x6f#8, 0x6c#8, 0x66#8], seedLen := 4#64 }

/-- SEED_BUF holds 0x00, …, 0x1f and SEED_LEN is 32 (R126's example). -/
def thirtyTwoBytes : State :=
  { State.reset with
    mem := writeByteCells [] .seedBuf 0 ((List.range 32).map (BitVec.ofNat 8)), seedLen := 32#64 }

/-- SELECT of (10, 9, 0x0167aa07), R186's example. -/
def selectTen : State := { State.reset with arg0 := 10#64, arg1 := 9#64, arg2 := 0x0167aa07#64 }

/-- OUT's first bytes. -/
def outBytes (s : State) (n : Nat) : Option (List Byte) := Memory.readBytes s.mem 0x07000000 n

/-! ### Ill-formed terms -/

/-- A reserved bit set is refused, the lowest and the highest one (R90, R95). -/
theorem test_wf_refuses_rsv :
    CommandWord.WellFormed 0x0000000000000100#64 = false ∧ CommandWord.WellFormed 0x8000000000000000#64 = false := by
  decide

/-- Every reserved OPC is refused (R95). -/
theorem test_wf_refuses_reserved_opc :
    ([0x05#64, 0x06#64, 0x07#64, 0x0F#64, 0x13#64, 0x17#64, 0x19#64, 0x1F#64, 0x22#64, 0xFF#64].any
      CommandWord.WellFormed) = false := by decide

/-- Every command's own word is accepted. -/
theorem test_wf_accepts_commands : Instr.all.all (fun i => i.WellFormed && CommandWord.WellFormed (encode i)) = true := by
  decide

/-- N_MAX of 0 and above 2^21 are refused (R6). -/
theorem test_params_refuse_nMax :
    ¬ Params.Legal { Config.params with nMax := 0 } ∧ ¬ Params.Legal { Config.params with nMax := 2 ^ 21 + 1 } := by decide

/-- FLEN_MAX of 0 and above 2^24 are refused (R6). -/
theorem test_params_refuse_flenMax :
    ¬ Params.Legal { Config.params with flenMax := 0 } ∧
    ¬ Params.Legal { Config.params with flenMax := 2 ^ 24 + 1, fragBytes := 2 ^ 24 + 1 } := by decide

/-- FRAG_BYTES below FLEN_MAX and above 2^24 are refused (R6). -/
theorem test_params_refuse_fragBytes :
    ¬ Params.Legal { Config.params with fragBytes := 4095 } ∧
    ¬ Params.Legal { Config.params with fragBytes := 2 ^ 24 + 1 } := by decide

/-- SEED_MAX below 32 and above 2^24 are refused (R6). -/
theorem test_params_refuse_seedMax :
    ¬ Params.Legal { Config.params with seedMax := 31 } ∧ ¬ Params.Legal { Config.params with seedMax := 2 ^ 24 + 1 } := by
  decide

/-- The parameters of `State.reset`, the smallest and the largest legal ones are accepted (R6). -/
theorem test_params_accepted :
    Params.Legal Config.params ∧ Params.Legal ⟨1, 1, 1, 32⟩ ∧ Params.Legal ⟨2 ^ 21, 2 ^ 24, 2 ^ 24, 2 ^ 24⟩ := by decide

/-! ### Decoding, words written out from R90 and R94 -/

/-- OPC in bits [7:0], one command of each family. -/
theorem test_decode_families :
    decode 0b0000000000000000000000000000000000000000000000000000000000000000#64 = .ok .nop ∧
    decode 0b0000000000000000000000000000000000000000000000000000000000000011#64 = .ok .prngSeedHash ∧
    decode 0b0000000000000000000000000000000000000000000000000000000000001010#64 = .ok .prngNextInt ∧
    decode 0b0000000000000000000000000000000000000000000000000000000000010010#64 = .ok .aliasSampleRng ∧
    decode 0b0000000000000000000000000000000000000000000000000000000000011000#64 = .ok .select ∧
    decode 0b0000000000000000000000000000000000000000000000000000000000100001#64 = .ok .part := ⟨rfl, rfl, rfl, rfl, rfl, rfl⟩

/-- The rest of the opcode map, word by word (R94). -/
theorem test_decode_rest :
    decode 0x01#64 = .ok .prngSeedWords ∧ decode 0x02#64 = .ok .prngSeedBytes32 ∧ decode 0x04#64 = .ok .prngSeedU32 ∧
    decode 0x08#64 = .ok .prngNext ∧ decode 0x09#64 = .ok .prngNextDouble ∧ decode 0x0B#64 = .ok .prngNextByte ∧
    decode 0x0C#64 = .ok .prngNextBytes ∧ decode 0x0D#64 = .ok .prngJump ∧ decode 0x0E#64 = .ok .prngLongJump ∧
    decode 0x10#64 = .ok .aliasBuild ∧ decode 0x11#64 = .ok .aliasSample ∧ decode 0x20#64 = .ok .mix :=
  ⟨rfl, rfl, rfl, rfl, rfl, rfl, rfl, rfl, rfl, rfl, rfl, rfl⟩

/-- A reserved bit and a reserved OPC are refused by name (R91, R95). -/
theorem test_decode_refuses :
    decode 0x0000000000000100#64 = .error .reservedBits ∧ decode 0x0000000000000005#64 = .error .reservedOpcode ∧
    decode 0x00000000000000FF#64 = .error .reservedOpcode := ⟨rfl, rfl, rfl⟩

/-- Every row's word, placed by `withFetchWord`, is run by the first step after reset. -/
theorem test_fetch_word_runs :
    Instr.all.all (fun i => decodeTableWord 64 (opcodeOf i).toNat == some i &&
      nextIs (step (State.reset.withFetchWord 64 (opcodeOf i).toNat)) (fun t => t.latch == none && t.inputs == [])) =
      true := by decide +kernel

/-! ### Functions, check values of the rules -/

/-- `sha256("abc")` (R118). -/
theorem test_sha256_abc :
    pack256 (sha256 [0x61#8, 0x62#8, 0x63#8]) =
      ⟨0xba7816bf8f01cfea#64, 0x414140de5dae2223#64, 0xb00361a396177a9c#64, 0xb410ff61f20015ad#64⟩ := by decide +kernel

/-- The mapping of draws to [0, 1) (95_test_vectors.md 3.1). -/
theorem test_double_mapping :
    [0x0#64, 0x1#64, 0x800#64, 0x20000000000000#64, 0x8000000000000000#64, 0xfffffffffffff7ff#64].map drawDouble =
      [0x0#64, 0x3bf0000000000000#64, 0x3ca0000000000000#64, 0x3f40000000000000#64, 0x3fe0000000000000#64,
        0x3fefffffffffffff#64] := by decide +kernel

/-! ### Commands, one step each -/

/-- NOP leaves STATUS at 0 (R220's example). -/
theorem test_nop : nextIs (exec .nop { State.reset with latch := some 0#64 }) (fun t => t.statusWord == 0#64) = true := by
  decide +kernel

/-- 95_test_vectors.md 3.1. -/
theorem test_seed_words :
    nextIs (exec .prngSeedWords { State.reset with arg0 := 1#64, arg1 := 2#64, arg2 := 3#64, arg3 := 4#64 })
      (fun t => t.prng == ⟨1#64, 2#64, 3#64, 4#64⟩ && t.seeded) = true := by decide +kernel

/-- R126's example: first byte most significant. -/
theorem test_seed_bytes32 :
    nextIs (exec .prngSeedBytes32 thirtyTwoBytes)
      (fun t => t.prng == ⟨0x0001020304050607#64, 0x08090a0b0c0d0e0f#64, 0x1011121314151617#64, 0x18191a1b1c1d1e1f#64⟩) =
      true := by decide +kernel

/-- R127's example "Wolf". -/
theorem test_seed_hash : nextIs (exec .prngSeedHash wolfBytes) (fun t => t.prng == wolf.prng && t.seeded) = true := by
  decide +kernel

/-- R127's corner case SEED_LEN = 0. -/
theorem test_seed_hash_empty :
    nextIs (exec .prngSeedHash State.reset)
      (fun t => t.prng == ⟨0xe3b0c44298fc1c14#64, 0x9afbf4c8996fb924#64, 0x27ae41e4649b934c#64, 0xa495991b7852b855#64⟩) =
      true := by decide +kernel

/-- R128's example. -/
theorem test_seed_u32 :
    nextIs (exec .prngSeedU32 { State.reset with arg0 := 0x598c84dc#64 })
      (fun t => t.prng == ⟨0x530c1f0542883298#64, 0x051e4efa4adbf209#64, 0xc7f9d8e794fb62fd#64, 0x3fd4b48739694080#64⟩) =
      true := by decide +kernel

/-- R129's example. -/
theorem test_next :
    nextIs (exec .prngNext words1234)
      (fun t => t.res0 == 0x2d00#64 && t.prng == ⟨0x7#64, 0x0#64, 0x40002#64, 0x0000c00000000000#64⟩) = true := by
  decide +kernel

/-- A draw after reset: STATUS and FAULT_INFO (95_test_vectors.md 3.1). -/
theorem test_next_unseeded :
    nextIs (exec .prngNext State.reset)
      (fun t => t.statusWord == 0x0202#64 && t.faultInfo == 0x0000080100000018#64) = true := by decide +kernel

/-- R130's example. -/
theorem test_next_double : nextIs (exec .prngNextDouble wolf) (fun t => t.res0 == 0x3fe233e31b8c7724#64) = true := by
  decide +kernel

/-- The draw 2^64 − 1024 is E_RANGE and S stays (R130). -/
theorem test_next_double_range :
    nextIs (exec .prngNextDouble drawTooLarge) (fun t => t.statusWord == 0x0506#64 && t.prng == drawTooLarge.prng) = true := by
  decide +kernel

/-- `nextInt(1, 10)` of "Wolf" (R131). -/
theorem test_next_int :
    nextIs (exec .prngNextInt { wolf with arg0 := 1#64, arg1 := 10#64 }) (fun t => t.res0 == 6#64) = true := by
  decide +kernel

/-- The widest legal range (95_test_vectors.md 3.1). -/
theorem test_next_int_widest :
    nextIs (exec .prngNextInt { wolf with arg0 := 1#64, arg1 := 0xffffffffffffffff#64 })
      (fun t => t.res0 == 0x919f18dc63b92001#64) = true := by decide +kernel

/-- R132's example. -/
theorem test_next_byte : nextIs (exec .prngNextByte wolf) (fun t => t.res0 == 0x91#64) = true := by decide +kernel

/-- The first four bytes of R133's example. -/
theorem test_next_bytes :
    nextIs (exec .prngNextBytes { wolf with arg0 := 4#64 })
      (fun t => outBytes t 4 == some [0x91#8, 0x6e#8, 0xc6#8, 0x5c#8] && outBytes t 5 == none) = true := by decide +kernel

/-- R134's example. -/
theorem test_jump :
    nextIs (exec .prngJump words1234)
      (fun t => t.prng == ⟨0x8c7a153956b5f3d1#64, 0x701f1a713401d85e#64, 0x6527f66a65469085#64, 0x8386b786c4408050#64⟩) =
      true := by decide +kernel

/-- R135's example. -/
theorem test_long_jump :
    nextIs (exec .prngLongJump words1234)
      (fun t => t.prng == ⟨0x096a8eb71295a400#64, 0xdbf84991e50f4516#64, 0x534ee745810d2a0e#64, 0x31655ca1a2215bf1#64⟩) =
      true := by decide +kernel

/-- R156's example: both tables. -/
theorem test_alias_build :
    nextIs (exec .aliasBuild fourWeights)
      (fun t => (List.range 4).all (fun i =>
        readWordCell t.mem .prob i == readWordCell fourTables.mem .prob i &&
        readWordCell t.mem .aliasTab i == readWordCell fourTables.mem .aliasTab i) && t.aliasN == 4#64 && t.aliasValid) =
      true := by decide +kernel

/-- Weights −1, 2: E_OPERAND (95_test_vectors.md 3.2). -/
theorem test_alias_build_negative :
    nextIs (exec .aliasBuild { State.reset with
        mem := writeWordCells [] .weight 0 [0xbff0000000000000#64, 0x4000000000000000#64], arg0 := 2#64 })
      (fun t => t.statusWord == 0x0402#64 && t.aliasN == 0#64) = true := by decide +kernel

/-- r1 = 0, r2 = PROB[0]: the alias (R157's example). -/
theorem test_alias_sample :
    nextIs (exec .aliasSample { fourTables with arg0 := 0#64, arg1 := 0x3fd1111111111111#64 }) (fun t => t.res0 == 2#64) =
      true := by decide +kernel

/-- r1 = 1.0: E_OPERAND (R157). -/
theorem test_alias_sample_operand :
    nextIs (exec .aliasSample { fourTables with arg0 := 0x3ff0000000000000#64 }) (fun t => t.faultCode == 0x04#8) = true := by
  decide +kernel

/-- The first sample of R158's example. -/
theorem test_alias_sample_rng : nextIs (exec .aliasSampleRng fourTables) (fun t => t.res0 == 3#64) = true := by
  decide +kernel

/-- Neither built nor seeded: E_NOTABLE comes first (R239). -/
theorem test_alias_sample_rng_priority :
    nextIs (exec .aliasSampleRng State.reset) (fun t => t.faultCode == 0x03#8) = true := by decide +kernel

/-- R186's example: the set {0, 2, 3, 5, 6, 8}. -/
theorem test_select :
    nextIs (exec .select selectTen) (fun t => t.idx == 0x16d && t.res0 == 6#64 && t.res1 == 0#64) = true := by
  decide +kernel

/-- seqNum = seqLen is still a pure fragment (R183). -/
theorem test_select_pure :
    nextIs (exec .select { selectTen with arg0 := 9#64 }) (fun t => t.idx == 0x100 && t.res0 == 1#64 && t.res1 == 1#64) =
      true := by decide +kernel

/-- R205's example. -/
theorem test_mix :
    nextIs (exec .mix threeFragments)
      (fun t => outBytes t 4 == some [0xfe#8, 0x02#8, 0xfc#8, 0x04#8] && t.res0 == 2#64 && t.idx == 0x5) = true := by
  decide +kernel

/-- A bit of IDX at FCOUNT is E_OPERAND (95_test_vectors.md 3.4). -/
theorem test_mix_index : nextIs (exec .mix { threeFragments with idx := 0x8 }) (fun t => t.faultCode == 0x04#8) = true := by
  decide +kernel

/-- R206's example, seqNum 7. -/
theorem test_part :
    nextIs (exec .part { helloWorld with arg0 := 7#64 })
      (fun t => outBytes t 6 == some [0x1f#8, 0x0a#8, 0x1e#8, 0x00#8, 0x0b#8, 0x20#8] && t.res0 == 2#64 && t.idx == 0x3) =
      true := by decide +kernel

/-- R206's example, seqNum 2: a pure part. -/
theorem test_part_pure :
    nextIs (exec .part { helloWorld with arg0 := 2#64 })
      (fun t => outBytes t 6 == some [0x77#8, 0x6f#8, 0x72#8, 0x6c#8, 0x64#8, 0x00#8] && t.res1 == 1#64) = true := by
  decide +kernel

/-! ### Bus and faults (95_test_vectors.md 3.5) -/

/-- A reserved bit and a reserved OPC at the device step. -/
theorem test_illegal_words :
    nextIs (step (State.reset.withFetchWord 64 0x100))
      (fun t => t.statusWord == 0x0102#64 && t.faultInfo == 0x0000000100000018#64) = true ∧
    nextIs (step (State.reset.withFetchWord 64 0x05)) (fun t => t.faultInfo == 0x0000050100000018#64) = true := by
  decide +kernel

/-- A write of RES0 and a byte read of STATUS are E_BUS. -/
theorem test_bus_faults :
    (hostWrite State.reset 0x40#32 8 0#64).statusWord = 0x0602#64 ∧
    (hostWrite State.reset 0x40#32 8 0#64).faultInfo = 0x0000000100000040#64 ∧
    nextIs (hostRead State.reset 0x10#32 1) (fun t => t.faultInfo == 0x0000000000000010#64) = true := by decide +kernel

/-- A read of RES0 while BUSY = 1 is E_BUSY and drops the command. -/
theorem test_busy_fault :
    nextIs (hostRead { State.reset with latch := some 0#64 } 0x40#32 8)
      (fun t => t.statusWord == 0x0702#64 && t.faultInfo == 0x0000000000000040#64 && t.latch == none) = true := by
  decide +kernel

/-- PARAMS0 with N_MAX = 1024, FLEN_MAX = 4096. -/
theorem test_read_params0 : nextIs (hostRead State.reset 0x00#32 8) (fun t => t.readData == 0x0000100000000400#64) = true := by
  decide +kernel

/-- Memory after reset is canonical. -/
theorem test_reset_memory_wf : Memory.wf State.reset.mem := by decide

/-! ### Witnesses: states and operands that meet the hypotheses of the statements, clause by clause -/

theorem witness_DecodeAgreesWithEncode : decode 0x0C#64 = .ok .prngNextBytes := rfl

/-- A reserved bit, the lowest and the highest, and both ends of each reserved range; then both schedules. -/
theorem witness_IllegalWordTakesFault :
    ([0x0000000000000100#64, 0x8000000000000000#64].all (fun c => c.extractLsb' 8 56 != 0#56) &&
      [0x05#64, 0x06#64, 0x07#64, 0x0F#64].all (fun c => [0x05#8, 0x06#8, 0x07#8, 0x0F#8].contains (c.setWidth 8)) &&
      [0x13#64, 0x17#64].all (fun c => 0x13#8 ≤ c.setWidth 8 && c.setWidth 8 ≤ 0x17#8) &&
      [0x19#64, 0x1F#64].all (fun c => 0x19#8 ≤ c.setWidth 8 && c.setWidth 8 ≤ 0x1F#8) &&
      [0x22#64, 0xFF#64].all (fun c => 0x22#8 ≤ c.setWidth 8)) = true ∧
    (let s := { State.reset with latch := some 0x05#64 };
      s.inputs = [] ∧ s.fault = false ∧ s.latch = some 0x05#64 ∧
      (0x05#64).setWidth 8 ∈ [0x05#8, 0x06#8, 0x07#8, 0x0F#8]) ∧
    (let s := { State.reset with latch := some 0xFF#64, inputs := [.deviceTurn, .reset] };
      s.inputs = .deviceTurn :: [.reset] ∧ s.fault = false ∧ s.latch = some 0xFF#64 ∧
      0x22#8 ≤ (0xFF#64).setWidth 8) := by decide

theorem witness_StepRunsDecodedCommand :
    { words1234 with latch := some 0x08#64 }.fault = false ∧
    { words1234 with latch := some 0x08#64 }.latch = some 0x08#64 ∧ decode 0x08#64 = .ok .prngNext ∧
    words1234.inputs = [] ∧ { words1234 with inputs := [.deviceTurn, .reset] }.inputs = [.deviceTurn, .reset] :=
  ⟨rfl, rfl, rfl, rfl, rfl⟩

theorem witness_FetchWordRuns : decodeTableWord 64 0x21 = some .part ∧ decodeTableWord 8 0x00 = some .nop := ⟨rfl, rfl⟩

theorem witness_StepFollowsSchedule :
    { State.reset with inputs := [.busRead 0x10#32 8] }.inputs = [.busRead 0x10#32 8] ∧
    { State.reset with inputs := [.busWrite 0x18#32 8 0#64] }.inputs = [.busWrite 0x18#32 8 0#64] ∧
    { State.reset with inputs := [.hostLocal] }.inputs = [.hostLocal] ∧
    { wolf with inputs := [.reset] }.inputs = [.reset] ∧
    { words1234 with latch := some 0x08#64, inputs := [.deviceTurn] }.inputs = [.deviceTurn] ∧
    State.reset.inputs = [] ∧ State.reset.latch = none ∧
    { State.reset with fault := true, latch := some 0#64 }.fault = true := ⟨rfl, rfl, rfl, rfl, rfl, rfl, rfl, rfl⟩

theorem witness_HandshakeRunsCommand :
    { State.reset with inputs := [.busWrite 0x00000018#32 8 0x01#64, .deviceTurn] }.fault = false ∧
    { State.reset with inputs := [.busWrite 0x00000018#32 8 0x01#64, .deviceTurn] }.latch = none ∧
    decode 0x01#64 = .ok .prngSeedWords := ⟨rfl, rfl, rfl⟩

theorem witness_ResetLeavesResetValues :
    { fourTables with fault := true, latch := some 0#64, inputs := [.reset, .deviceTurn] }.inputs =
      .reset :: [.deviceTurn] := rfl

theorem witness_CommandsIgnoreSchedule : ∃ t, exec .prngNext words1234 = .next t ∧ (t.res0 == 0x2d00#64) = true :=
  exists_next_of_nextIs (by decide +kernel)

theorem witness_PollingOrderIrrelevant :
    { words1234 with latch := some 0x08#64 }.fault = false ∧
    ∃ t, step { words1234 with latch := some 0x08#64, inputs := [.deviceTurn, .hostLocal] } = .next t ∧
      (t.res0 == 0x2d00#64) = true := ⟨rfl, exists_next_of_nextIs (by decide +kernel)⟩

/-- A command and a host read that stop. -/
theorem witness_StopsOnlyOnUnwrittenCell :
    step (State.withFetchWord { State.reset with flen := 1#64, fcount := 1#64, idx := 1 } 64 0x20) =
      .fault (.uninitRead .frag 0) ∧
    step { State.reset with inputs := [.busRead 0x02001FF8#32 8] } = .fault (.uninitRead .weight 1023) :=
  ⟨eq_fault_of_stopsWith (by decide +kernel), eq_fault_of_stopsWith (by decide +kernel)⟩

/-- The overflow threshold and one unit below it; then operands for the clauses: sums that are 0 and not, a divisor 0,
NaN and infinite operands. -/
theorem witness_RoundingIsNearestEven :
    (0 < 1 ∧ 0 ≤ F64.value 0x8000000000000000#64) ∧ F64.roundUnits ((2 ^ 54 - 1) * 2 ^ 2044) 1 = F64.infBits ∧
    F64.roundUnits ((2 ^ 54 - 1) * 2 ^ 2044 - 1) 1 = F64.infBits - 1 ∧
    FiniteF64 0x0000000000000001#64 ∧ FiniteF64 0xffefffffffffffff#64 ∧ F64.value 0x0000000000000001#64 ≠ 0 ∧
    F64.value 0x3ff0000000000000#64 + F64.value 0xbff0000000000000#64 = 0 ∧
    F64.units 0x8000000000000000#64 = 0 ∧ F64.isNaN 0xfff0000000000001#64 = true ∧ F64.isInf F64.inf = true ∧
    F64.isInf 0xfff0000000000000#64 = true ∧ F64.units F64.inf ≠ 0 := by
  refine ⟨?_, ?_, ?_, ?_, ?_, ?_, ?_, ?_, ?_, ?_, ?_, ?_⟩ <;> decide +kernel

/-- The least and the greatest `d` (−0.0 too), the least and the greatest `m`. -/
theorem witness_ScaledDrawStaysBelow :
    Uniform 0x0000000000000000#64 ∧ Uniform 0x8000000000000000#64 ∧ Uniform 0x3fefffffffffffff#64 ∧
    (1 ≤ 1 ∧ 1 ≤ 2 ^ 64 - 1) ∧ (1 ≤ 2 ^ 64 - 1 ∧ 2 ^ 64 - 1 ≤ 2 ^ 64 - 1) := by decide +kernel

theorem witness_NextDoubleInUnitInterval :
    2 ^ 64 - 1024 ≤ (next drawTooLarge.prng).1.toNat ∧ (next drawLargest.prng).1.toNat = 2 ^ 64 - 1025 := by
  decide +kernel

theorem witness_NopOnlyClearsBusy :
    (let s := { State.reset with latch := some 0x0000000000000100#64 };
      s.inputs = [] ∧ s.fault = false ∧ s.latch = some 0x0000000000000100#64) := by decide

/-- SEED_LEN not 32; the 32 bytes written; and the last byte unwritten. -/
theorem witness_SeedBytes32PacksBytes :
    wolfBytes.seedLen.toNat ≠ 32 ∧
    (thirtyTwoBytes.seedLen.toNat = 32 ∧
      ∀ k < 32, readByteCell thirtyTwoBytes.mem .seedBuf k = .ok ((fun k => BitVec.ofNat 8 k) k)) ∧
    (let s := { thirtyTwoBytes with mem := thirtyTwoBytes.mem.take 31 };
      s.seedLen.toNat = 32 ∧ 31 < 32 ∧ (∀ k < 31, ∃ b, readByteCell s.mem .seedBuf k = .ok b) ∧
      Memory.readByte s.mem (Ram.seedBuf.addr 31) = none) := by
  refine ⟨by decide, ⟨by decide, by decide +kernel⟩, by decide, by decide, fun k hk => ⟨BitVec.ofNat 8 k, ?_⟩,
    by decide +kernel⟩
  revert k
  decide +kernel

/-- SEED_LEN at SEED_MAX + 1; at 0; at the four bytes written; and one beyond them. -/
theorem witness_SeedHashHashesBytes :
    (let s := { State.reset with seedLen := 1025#64 }; s.params.seedMax < s.seedLen.toNat) ∧
    (State.reset.seedLen.toNat ≤ State.reset.params.seedMax ∧ ([] : List Byte).length = State.reset.seedLen.toNat) ∧
    (let b := [0x57#8, 0x6f#8, 0x6c#8, 0x66#8];
      wolfBytes.seedLen.toNat ≤ wolfBytes.params.seedMax ∧ b.length = wolfBytes.seedLen.toNat ∧
      ∀ k (h : k < b.length), readByteCell wolfBytes.mem .seedBuf k = .ok b[k]) ∧
    (let s := { wolfBytes with seedLen := 5#64 };
      s.seedLen.toNat ≤ s.params.seedMax ∧ 4 < s.seedLen.toNat ∧
      (∀ k < 4, ∃ b, readByteCell s.mem .seedBuf k = .ok b) ∧ Memory.readByte s.mem (Ram.seedBuf.addr 4) = none) := by
  refine ⟨by decide, by decide, ⟨by decide, by decide, by decide +kernel⟩, by decide, by decide,
    fun k hk => ⟨[0x57#8, 0x6f#8, 0x6c#8, 0x66#8].getD k 0#8, ?_⟩, by decide +kernel⟩
  revert k
  decide +kernel

theorem witness_SeedU32HashesInteger :
    2 ^ 32 ≤ { State.reset with arg0 := 0x100000000#64 }.arg0.toNat ∧
    { State.reset with arg0 := 0xffffffff#64 }.arg0.toNat < 2 ^ 32 := by decide

theorem witness_NextReturnsDraw : State.reset.seeded = false ∧ words1234.seeded = true := ⟨rfl, rfl⟩

theorem witness_NextDoubleReturnsDouble :
    State.reset.seeded = false ∧ (drawTooLarge.seeded = true ∧ ¬ DrawOk (next drawTooLarge.prng).1) ∧
    drawLargest.seeded = true ∧ DrawOk (next drawLargest.prng).1 := by decide +kernel

/-- Unseeded; low = high + 1; the full range; and low = high, the widest ranges with the largest draw and one beyond. -/
theorem witness_NextIntReturnsScaledDraw :
    State.reset.seeded = false ∧
    (let s := { wolf with arg0 := 7#64, arg1 := 6#64 }; s.seeded = true ∧ s.arg1.toNat < s.arg0.toNat) ∧
    (let s := { wolf with arg0 := 0#64, arg1 := 0xffffffffffffffff#64 };
      s.seeded = true ∧ s.arg0.toNat = 0 ∧ s.arg1.toNat = 2 ^ 64 - 1) ∧
    (let s := { drawTooLarge with arg0 := 5#64, arg1 := 5#64 };
      s.seeded = true ∧ s.arg0.toNat ≤ s.arg1.toNat ∧ (s.arg0.toNat ≠ 0 ∨ s.arg1.toNat ≠ 2 ^ 64 - 1) ∧
      ¬ DrawOk (next s.prng).1) ∧
    (let s := { drawLargest with arg0 := 0#64, arg1 := 0xfffffffffffffffe#64 };
      s.seeded = true ∧ s.arg0.toNat ≤ s.arg1.toNat ∧ (s.arg0.toNat ≠ 0 ∨ s.arg1.toNat ≠ 2 ^ 64 - 1) ∧
      DrawOk (next s.prng).1) ∧
    (let s := { drawLargest with arg0 := 1#64, arg1 := 0xffffffffffffffff#64 };
      s.seeded = true ∧ s.arg0.toNat ≤ s.arg1.toNat ∧ (s.arg0.toNat ≠ 0 ∨ s.arg1.toNat ≠ 2 ^ 64 - 1) ∧
      DrawOk (next s.prng).1) := by decide +kernel

theorem witness_NextByteReturnsByte :
    State.reset.seeded = false ∧ (drawTooLarge.seeded = true ∧ ¬ DrawOk (next drawTooLarge.prng).1) ∧
    drawLargest.seeded = true ∧ DrawOk (next drawLargest.prng).1 := by decide +kernel

/-- Unseeded; count = FLEN_MAX + 1; the last of two draws too large; count = 0 and count = 1. -/
theorem witness_NextBytesFillsOut :
    State.reset.seeded = false ∧
    (let s := { wolf with arg0 := 4097#64 }; s.seeded = true ∧ s.params.flenMax < s.arg0.toNat) ∧
    (let s := { secondTooLarge with arg0 := 2#64 };
      s.seeded = true ∧ s.arg0.toNat ≤ s.params.flenMax ∧ 1 < s.arg0.toNat ∧ ¬ DrawOk (nthDraw s.prng 1)) ∧
    (let s := { drawTooLarge with arg0 := 0#64 };
      s.seeded = true ∧ s.arg0.toNat ≤ s.params.flenMax ∧ ∀ k < s.arg0.toNat, DrawOk (nthDraw s.prng k)) ∧
    (let s := { secondTooLarge with arg0 := 1#64 };
      s.seeded = true ∧ s.arg0.toNat ≤ s.params.flenMax ∧ ∀ k < s.arg0.toNat, DrawOk (nthDraw s.prng k)) := by decide +kernel

theorem witness_JumpsAdvanceState : State.reset.seeded = false ∧ words1234.seeded = true := ⟨rfl, rfl⟩

/-- The hypotheses met by a drawing command, by ALIAS_SAMPLE_RNG with a table, and other commands that fault. -/
theorem witness_UnseededRaisedByDrawsOnly :
    State.reset.seeded = false ∧
    ({ fourTables with seeded := false }.seeded = false ∧ { fourTables with seeded := false }.aliasValid = true) ∧
    State.reset.fault = false ∧ (∃ t, exec .select State.reset = .next t ∧ t.fault = true) ∧
    ∃ t, exec .aliasSample State.reset = .next t ∧ t.fault = true :=
  ⟨rfl, ⟨rfl, rfl⟩, rfl, exists_next_of_nextIs (by decide +kernel), exists_next_of_nextIs (by decide +kernel)⟩

/-- n = 0; n = N_MAX + 1; the fifth weight unwritten; four legal weights; and two weights that are all zero. -/
theorem witness_AliasBuildWritesTables :
    State.reset.arg0.toNat < 1 ∧
    (let s := { State.reset with arg0 := 1025#64 }; s.params.nMax < s.arg0.toNat) ∧
    (let s := { fourWeights with arg0 := 5#64 };
      1 ≤ s.arg0.toNat ∧ s.arg0.toNat ≤ s.params.nMax ∧ 4 < s.arg0.toNat ∧
      (∀ i < 4, ∃ w, readWordCell s.mem .weight i = .ok w) ∧
      readWordCell s.mem .weight 4 = .error (.uninit .weight 4)) ∧
    (let w := [0x3ff0000000000000#64, 0x4000000000000000#64, 0x4010000000000000#64, 0x4020000000000000#64];
      1 ≤ fourWeights.arg0.toNat ∧ fourWeights.arg0.toNat ≤ fourWeights.params.nMax ∧
      w.length = fourWeights.arg0.toNat ∧ (∀ i (h : i < w.length), readWordCell fourWeights.mem .weight i = .ok w[i]) ∧
      WeightsLegal w ∧ fourWeights.params.Legal) ∧
    (let w := [0#64, 0#64];
      let s := { State.reset with mem := writeWordCells [] .weight 0 w, arg0 := 2#64 };
      1 ≤ s.arg0.toNat ∧ s.arg0.toNat ≤ s.params.nMax ∧ w.length = s.arg0.toNat ∧
      (∀ i (h : i < w.length), readWordCell s.mem .weight i = .ok w[i]) ∧ ¬ WeightsLegal w) := by
  refine ⟨by decide, by decide, ⟨by decide, by decide, by decide, fun i hi => ⟨[0x3ff0000000000000#64,
    0x4000000000000000#64, 0x4010000000000000#64, 0x4020000000000000#64].getD i 0#64, ?_⟩, by decide +kernel⟩,
    ⟨by decide, by decide, by decide, by decide +kernel, weightsLegal_of_all (by decide +kernel), by decide⟩,
    by decide, by decide, by decide, by decide +kernel, fun h => absurd h.2.1 (by decide +kernel)⟩
  revert i
  decide +kernel

theorem witness_BuildFollowsPairingLoop :
    [0x3ff0000000000000#64, 0#64] ≠ ([] : List Word) ∧ WeightsLegal [0x0000000000000001#64] ∧
    WeightsLegal [0x7fefffffffffffff#64] :=
  ⟨by decide, weightsLegal_of_all (by decide +kernel), weightsLegal_of_all (by decide +kernel)⟩

/-- One positive weight, and −0.0 beside it. -/
theorem witness_BuildProbInUnitInterval :
    WeightsLegal [0x3ff0000000000000#64] ∧ WeightsLegal [0x8000000000000000#64, 0x3ff0000000000000#64] ∧ 2 ≤ 2 ^ 21 :=
  ⟨weightsLegal_of_all (by decide +kernel), weightsLegal_of_all (by decide +kernel), by decide⟩

/-- No table; r1 = 1.0; r2 a NaN; and r1 = −0.0 with the largest r2 below 1.0. -/
theorem witness_AliasSampleReturnsIndex :
    State.reset.aliasValid = false ∧
    (let s := { fourTables with arg0 := 0x3ff0000000000000#64 };
      s.aliasValid = true ∧ ¬ (Uniform s.arg0 ∧ Uniform s.arg1)) ∧
    (let s := { fourTables with arg1 := 0x7ff8000000000000#64 };
      s.aliasValid = true ∧ ¬ (Uniform s.arg0 ∧ Uniform s.arg1)) ∧
    (let s := { fourTables with arg0 := 0x8000000000000000#64, arg1 := 0x3fefffffffffffff#64 };
      s.aliasValid = true ∧ s.TablesUsable ∧ Uniform s.arg0 ∧ Uniform s.arg1) := by decide +kernel

/-- No table; not seeded; the first draw too large; the second one; and neither. -/
theorem witness_AliasSampleRngTakesTwoDraws :
    State.reset.aliasValid = false ∧
    (let s := { fourTables with seeded := false }; s.aliasValid = true ∧ s.seeded = false) ∧
    (let s := { fourTables with prng := drawTooLarge.prng };
      s.aliasValid = true ∧ s.seeded = true ∧ ¬ DrawOk (nthDraw s.prng 0)) ∧
    (let s := { fourTables with prng := secondTooLarge.prng };
      s.aliasValid = true ∧ s.seeded = true ∧ ¬ DrawOk (nthDraw s.prng 1)) ∧
    (fourTables.aliasValid = true ∧ fourTables.seeded = true ∧ fourTables.TablesUsable ∧
      DrawOk (nthDraw fourTables.prng 0) ∧ DrawOk (nthDraw fourTables.prng 1)) := by decide +kernel

/-- seqLen = 0; seqNum = 2^32; checksum = 2^32; and both ends of [1, seqLen] with seqLen = N_MAX. -/
theorem witness_SelectPureFragment :
    ¬ SelectLegal State.reset ∧ ¬ SelectLegal { selectTen with arg0 := 0x100000000#64 } ∧
    ¬ SelectLegal { selectTen with arg2 := 0x100000000#64 } ∧ ¬ SelectLegal { selectTen with arg1 := 1025#64 } ∧
    (let s := { selectTen with arg0 := 1#64, arg1 := 1024#64 };
      SelectLegal s ∧ 1 ≤ s.arg0.toNat ∧ s.arg0.toNat ≤ s.arg1.toNat) ∧
    (let s := { selectTen with arg0 := 1024#64, arg1 := 1024#64 };
      SelectLegal s ∧ 1 ≤ s.arg0.toNat ∧ s.arg0.toNat ≤ s.arg1.toNat) := by decide

/-- seqNum = seqLen + 1 with every draw of the private generator below the limit, and seqNum = 0. No seed is known that
gives the private generator a draw of 2^64 − 1024 or more (one in 2^54, R235), so the E_RANGE clause has no witness. -/
theorem witness_SelectDrawsSet :
    SelectLegal selectTen ∧ ¬ (1 ≤ selectTen.arg0.toNat ∧ selectTen.arg0.toNat ≤ selectTen.arg1.toNat) ∧
    (∀ k < 2 + 9, DrawOk (nthDraw (pack256 (sha256 (be32 (selectTen.arg0.setWidth 32) ++
      be32 (selectTen.arg2.setWidth 32)))) k)) ∧
    SelectLegal { selectTen with arg0 := 0#64 } ∧ ¬ (1 ≤ (0#64).toNat ∧ (0#64).toNat ≤ (9#64).toNat) := by decide +kernel

theorem witness_SelectSetHasDegree :
    selectTen.params.Legal ∧ selectTen.fault = false ∧ ∃ t, exec .select selectTen = .next t ∧ (!t.fault) = true :=
  ⟨by decide, rfl, exists_next_of_nextIs (by decide +kernel)⟩

/-- A faulting and a completing SELECT, on the reset state and on one with tables and a seeded generator. -/
theorem witness_SelectIgnoresUserState :
    (let s' := { fourTables with arg0 := 10#64, arg1 := 9#64, arg2 := 0x0167aa07#64 };
      s'.params.nMax = selectTen.params.nMax ∧ s'.arg0 = selectTen.arg0 ∧ s'.arg1 = selectTen.arg1 ∧
      s'.arg2 = selectTen.arg2 ∧ selectTen.fault = false ∧ s'.fault = false) ∧
    (∃ t, exec .select selectTen = .next t ∧ (t.idx == 0x16d) = true) ∧
    ∃ t, exec .select State.reset = .next t ∧ t.fault = true :=
  ⟨by decide, exists_next_of_nextIs (by decide +kernel), exists_next_of_nextIs (by decide +kernel)⟩

/-- FLEN = 0; a bit of IDX at FCOUNT; all selected bytes written; and the last selected byte unwritten. -/
theorem witness_MixXorsSelectedFragments :
    ¬ FragmentsLegal State.reset ∧
    (let s := { threeFragments with idx := 0x8 }; s.fcount.toNat ≤ 3 ∧ s.idx.testBit 3 = true) ∧
    (let s := threeFragments;
      let f : Nat → Nat → Byte := fun k j => [0x01#8, 0x02#8, 0x03#8, 0x04#8, 0x10#8, 0x20#8, 0x30#8, 0x40#8, 0xff#8,
        0x00#8, 0xff#8, 0x00#8].getD (k * 4 + j) 0#8;
      FragmentsLegal s ∧ (∀ k, s.fcount.toNat ≤ k → s.idx.testBit k = false) ∧
      ∀ k < s.fcount.toNat, s.idx.testBit k = true → ∀ j < s.flen.toNat,
        readByteCell s.mem .frag (k * s.flen.toNat + j) = .ok (f k j)) ∧
    (let s := { threeFragments with mem := threeFragments.mem.take 11 };
      FragmentsLegal s ∧ (∀ k, s.fcount.toNat ≤ k → s.idx.testBit k = false) ∧ 2 < s.fcount.toNat ∧
      s.idx.testBit 2 = true ∧ 3 < s.flen.toNat ∧
      Memory.readByte s.mem (Ram.frag.addr (2 * s.flen.toNat + 3)) = none) := by
  have hb : ∀ k, 3 ≤ k → Nat.testBit 0x5 k = false := fun k hk =>
    Nat.testBit_lt_two_pow (lt_of_lt_of_le (by decide : 0x5 < 2 ^ 3) (Nat.pow_le_pow_right (by decide) hk))
  exact ⟨by decide, by decide, ⟨by decide, hb, by decide +kernel⟩, by decide, hb, by decide, by decide, by decide,
    by decide +kernel⟩

/-- Two disjoint sets; and a set with one of its fragments. -/
theorem witness_MixIsSelfInverse :
    (0x1 &&& 0x4 = 0 ∧ mixFragments threeFragments.mem 0x1 4 3 = .ok [0x01#8, 0x02#8, 0x03#8, 0x04#8] ∧
      mixFragments threeFragments.mem 0x4 4 3 = .ok [0xff#8, 0x00#8, 0xff#8, 0x00#8]) ∧
    2 < 3 ∧ Nat.testBit 0x5 2 = true ∧
    mixFragments threeFragments.mem 0x5 4 3 = .ok [0xfe#8, 0x02#8, 0xfc#8, 0x04#8] ∧
    mixFragments threeFragments.mem (0x5 ^^^ 2 ^ 2) 4 3 = .ok [0x01#8, 0x02#8, 0x03#8, 0x04#8] := by decide +kernel

/-- Each operand check failing; and seqNum at both ends of [1, FCOUNT]. -/
theorem witness_PartPureFragment :
    2 ^ 32 ≤ { helloWorld with arg0 := 0x100000000#64 }.arg0.toNat ∧
    2 ^ 32 ≤ { helloWorld with arg2 := 0x100000000#64 }.arg2.toNat ∧
    ¬ FragmentsLegal { helloWorld with fcount := 0#64 } ∧ ¬ FragmentsLegal { helloWorld with flen := 4097#64 } ∧
    (let s := { helloWorld with arg0 := 1#64 };
      let f : Nat → Byte := fun j => [0x68#8, 0x65#8, 0x6c#8, 0x6c#8, 0x6f#8, 0x20#8].getD j 0#8;
      s.arg0.toNat < 2 ^ 32 ∧ s.arg2.toNat < 2 ^ 32 ∧ FragmentsLegal s ∧ 1 ≤ s.arg0.toNat ∧
      s.arg0.toNat ≤ s.fcount.toNat ∧
      ∀ j < s.flen.toNat, readByteCell s.mem .frag ((s.arg0.toNat - 1) * s.flen.toNat + j) = .ok (f j)) ∧
    (let s := { helloWorld with arg0 := 2#64 };
      let f : Nat → Byte := fun j => [0x77#8, 0x6f#8, 0x72#8, 0x6c#8, 0x64#8, 0x00#8].getD j 0#8;
      s.arg0.toNat < 2 ^ 32 ∧ s.arg2.toNat < 2 ^ 32 ∧ FragmentsLegal s ∧ 1 ≤ s.arg0.toNat ∧
      s.arg0.toNat ≤ s.fcount.toNat ∧
      ∀ j < s.flen.toNat, readByteCell s.mem .frag ((s.arg0.toNat - 1) * s.flen.toNat + j) = .ok (f j)) := by
  refine ⟨?_, ?_, ?_, ?_, ?_, ?_⟩ <;> decide +kernel

/-- A SELECT that faults, one that completes and a MIX that completes after it, and a MIX that stops. -/
theorem witness_PartIsSelectThenMix :
    helloWorld.params.Legal ∧ FragmentsLegal helloWorld ∧ helloWorld.fault = false ∧
    (∃ t, exec .select { helloWorld with arg0 := 0x100000000#64, arg1 := helloWorld.fcount } = .next t ∧ t.fault = true) ∧
    (∃ t, exec .select { helloWorld with arg0 := 7#64, arg1 := helloWorld.fcount } = .next t ∧
      (!t.fault && nextIs (exec .mix t) (fun u => u.res0 == 2#64)) = true) ∧
    (∃ t, exec .select { helloWorld with arg0 := 7#64, arg1 := helloWorld.fcount, mem := [] } = .next t ∧
      (!t.fault && stopsWith (exec .mix t) (.uninitRead .frag 0)) = true) :=
  ⟨by decide, by decide, rfl, exists_next_of_nextIs (by decide +kernel), exists_next_of_nextIs (by decide +kernel),
    exists_next_of_nextIs (by decide +kernel)⟩

theorem witness_CommandFaultsArePrecise :
    State.reset.fault = false ∧ ∃ t, exec .mix State.reset = .next t ∧ t.fault = true :=
  ⟨rfl, exists_next_of_nextIs (by decide +kernel)⟩

theorem witness_CommandsKeepOperands : ∃ t, exec .mix threeFragments = .next t ∧ (t.res0 == 2#64) = true :=
  exists_next_of_nextIs (by decide +kernel)

theorem witness_ResultsAndFlagsFrame : ∃ t, exec .aliasBuild fourWeights = .next t ∧ t.aliasValid = true :=
  exists_next_of_nextIs (by decide +kernel)

/-- A command that writes OUT and the one that writes the tables. -/
theorem witness_MemoryFrame :
    (∃ t, exec .prngNextBytes { wolf with arg0 := 2#64 } = .next t ∧ (t.mem != wolf.mem) = true) ∧
    ∃ t, exec .aliasBuild fourWeights = .next t ∧ (t.mem != fourWeights.mem) = true :=
  ⟨exists_next_of_nextIs (by decide +kernel), exists_next_of_nextIs (by decide +kernel)⟩

theorem witness_PrngChangesOnlyByItsCommands :
    (∃ t, step { words1234 with latch := some 0x08#64 } = .next t ∧ (t.prng != words1234.prng) = true) ∧
    ∃ t, step { words1234 with inputs := [.reset] } = .next t ∧ (t.prng != words1234.prng) = true :=
  ⟨exists_next_of_nextIs (by decide +kernel), exists_next_of_nextIs (by decide +kernel)⟩

/-- The first offset past the registers, a wrong width, a misaligned address, the first byte past each kind of window,
the first unmapped address, and writes of a read-only register, table and OUT. -/
theorem witness_IllegalAccessTakesBusFault :
    State.reset.params.Legal ∧ State.reset.fault = false ∧ State.reset.latch = none ∧
    ¬ accessLegal Config.params 0x98 8 false ∧ ¬ accessLegal Config.params 0x10 1 false ∧
    ¬ accessLegal Config.params 0x02000004 8 false ∧ ¬ accessLegal Config.params 0x01000400 1 false ∧
    ¬ accessLegal Config.params 0x02002000 8 false ∧ ¬ accessLegal Config.params 0x05000080 8 false ∧
    ¬ accessLegal Config.params 0x08000000 8 false ∧ ¬ accessLegal Config.params 0x40 8 true ∧
    ¬ accessLegal Config.params 0x03000000 8 true ∧ ¬ accessLegal Config.params 0x07000000 1 true := by
  refine ⟨?_, ?_, ?_, ?_, ?_, ?_, ?_, ?_, ?_, ?_, ?_, ?_, ?_⟩ <;> decide

/-- An access that is not a 64-bit read of STATUS: another address, and STATUS with another width. -/
theorem witness_BusyAccessTakesBusyFault :
    { State.reset with latch := some 0#64 }.fault = false ∧ { State.reset with latch := some 0#64 }.latch = some 0#64 ∧
    (0x40#32 ≠ 0x00000010#32) ∧ 1 ≠ 8 := by decide

/-- A step of a faulted device, a frozen write, and an illegal read. -/
theorem witness_FrozenUntilReset :
    { State.reset with fault := true }.fault = true ∧
    (∃ t, step { State.reset with fault := true, inputs := [.busWrite 0x18#32 8 0#64] } = .next t ∧
      (t.latch == none) = true) ∧
    State.reset.params.Legal ∧ ¬ accessLegal Config.params 0x98 8 false :=
  ⟨rfl, exists_next_of_nextIs (by decide +kernel), by decide, by decide⟩

theorem witness_RegistersReadAtTheirOffsets :
    State.reset.params.Legal ∧ State.reset.latch = none ∧ { State.reset with fault := true }.fault = true := by decide

theorem witness_StatusFieldsRead : 0 < 64 ∧ 63 < 64 := by decide

/-- The first cell of SEED_BUF written and the last one not; the last WEIGHT entry written and one of which no byte is;
the last word of IDX; on an idle device and on a faulted one. -/
theorem witness_CellsReadAtTheirAddresses :
    (let s := wolfBytes;
      s.params.Legal ∧ s.latch = none ∧ 0 < Ram.seedBuf.cells s.params ∧
      Memory.readByte s.mem (Ram.seedBuf.base + 0) = some 0x57#8 ∧ 1023 < Ram.seedBuf.cells s.params ∧
      Memory.readByte s.mem (Ram.seedBuf.base + 1023) = none) ∧
    (let s := { fourWeights with fault := true };
      s.params.Legal ∧ s.fault = true ∧ 3 < Ram.weight.cells s.params ∧
      readWordCell s.mem .weight 3 = .ok 0x4020000000000000#64 ∧ 1023 < Ram.weight.cells s.params ∧
      Memory.readByte s.mem (Ram.weight.base + 8 * 1023 + 7) = none ∧ 15 < (s.params.nMax + 63) / 64) := by
  decide +kernel

/-- A register, the first byte of SEED_BUF, the last WEIGHT entry, the last word of IDX and the last byte of FRAG. -/
theorem witness_ReadAfterWrite :
    State.reset.params.Legal ∧ State.reset.fault = false ∧ State.reset.latch = none ∧
    accessLegal Config.params 0x20 8 true ∧ accessLegal Config.params 0x01000000 1 true ∧
    accessLegal Config.params 0x02001FF8 8 true ∧ accessLegal Config.params 0x05000078 8 true ∧
    accessLegal Config.params 0x0600FFFF 1 true ∧ (0x20#32 ≠ 0x00000018#32) := by
  refine ⟨?_, ?_, ?_, ?_, ?_, ?_, ?_, ?_, ?_⟩ <;> decide

theorem witness_ReadsHaveNoSideEffect :
    State.reset.params.Legal ∧ State.reset.latch = none ∧ accessLegal Config.params 0x90 8 false ∧
    ∃ t, hostRead State.reset 0x90#32 8 = .next t ∧ (t.readData == 0#64) = true :=
  ⟨by decide, rfl, by decide, exists_next_of_nextIs (by decide +kernel)⟩

theorem witness_InvariantsHoldAtReset : Params.Legal ⟨1, 1, 1, 32⟩ := by decide

theorem witness_StepKeepsInvariant :
    State.Inv { fourTables with latch := some 0x12#64 } ∧
    ∃ t, step { fourTables with latch := some 0x12#64 } = .next t ∧ (t.res0 == 3#64) = true :=
  ⟨by decide +kernel, exists_next_of_nextIs (by decide +kernel)⟩

theorem witness_StepKeepsEntriesWhole :
    State.Inv { fourWeights with latch := some 0x10#64 } ∧ State.EntriesWhole { fourWeights with latch := some 0x10#64 } ∧
    ∃ t, step { fourWeights with latch := some 0x10#64 } = .next t ∧ t.aliasValid = true :=
  ⟨by decide +kernel, by decide +kernel, exists_next_of_nextIs (by decide +kernel)⟩

theorem witness_StepKeepsTablesUsable :
    State.Inv { fourTables with latch := some 0x12#64 } ∧ State.TablesUsable { fourTables with latch := some 0x12#64 } ∧
    ∃ t, step { fourTables with latch := some 0x12#64 } = .next t ∧ t.aliasValid = true :=
  ⟨by decide +kernel, by decide +kernel, exists_next_of_nextIs (by decide +kernel)⟩

end Sys2Proof.Tests
end

section
/-! SUPPORT for O12: roundTiesToEven of `roundUnits`, the fields of an encoding, and one equation per operation and
kind of operand; then the clauses of `Obligations.RoundingIsNearestEven` and the obligation from them (R10). -/

namespace Sys2Proof.Machine

namespace F64

/-! ### The rounding -/

theorem oneUnits_pos : 0 < oneUnits := by unfold oneUnits; positivity

theorem unitsOf_le_of_le {a b : Nat} (h : a ≤ b) (hb : b < infBits) : unitsOf a ≤ unitsOf b := by
  rcases h.eq_or_lt with rfl | hlt
  · exact le_rfl
  · exact (unitsOf_lt_of_lt hlt hb).le

/-- Overflow: +∞ exactly from halfway between the greatest finite magnitude and 2^1024 up. -/
theorem roundUnits_eq_infBits_iff (num den : Nat) (hd : 0 < den) :
    roundUnits num den = infBits ↔ (2 ^ 54 - 1) * 2 ^ 2044 * den ≤ num := by
  have hpos : 0 < infBits := by decide
  have hodd : (infBits - 1) % 2 = 1 := by decide
  have hmid : unitsOf (infBits - 1) + unitsOf (infBits - 1 + 1) = 2 * ((2 ^ 54 - 1) * 2 ^ 2044) := by decide +kernel
  have hle := roundUnits_le_inf num den
  have hiff := roundUnits_le_iff num den (infBits - 1) hd (by omega)
  rw [hmid, mul_assoc] at hiff
  generalize (2 ^ 54 - 1) * 2 ^ 2044 * den = threshold at *
  omega

/-- No exact value lies beyond the midpoint of its rounding and a greater finite magnitude, and on it only when the
rounding is even. -/
theorem le_midpoint_of_roundUnits_lt {num den other : Nat} (hd : 0 < den) (hlt : roundUnits num den < other)
    (ho : other < infBits) :
    2 * num ≤ (unitsOf (roundUnits num den) + unitsOf other) * den ∧
    (2 * num = (unitsOf (roundUnits num den) + unitsOf other) * den → roundUnits num den % 2 = 0) := by
  have hnear := (roundUnits_le_iff num den _ hd (hlt.trans ho)).1 le_rfl
  have hmono : (unitsOf (roundUnits num den) + unitsOf (roundUnits num den + 1)) * den ≤
      (unitsOf (roundUnits num den) + unitsOf other) * den :=
    Nat.mul_le_mul_right _ (Nat.add_le_add_left (unitsOf_le_of_le hlt ho) _)
  omega

/-- No exact value lies below the midpoint of its rounding and a smaller magnitude, and on it only when the rounding is
even. -/
theorem midpoint_le_of_lt_roundUnits {num den other : Nat} (hd : 0 < den) (hlt : other < roundUnits num den)
    (hm : roundUnits num den < infBits) :
    (unitsOf other + unitsOf (roundUnits num den)) * den ≤ 2 * num ∧
    (2 * num = (unitsOf other + unitsOf (roundUnits num den)) * den → roundUnits num den % 2 = 0) := by
  have hnear := mt (roundUnits_le_iff num den (roundUnits num den - 1) hd (by omega)).2 (by omega)
  rw [Nat.sub_add_cancel (by omega : 1 ≤ roundUnits num den)] at hnear
  have hmono : (unitsOf other + unitsOf (roundUnits num den)) * den ≤
      (unitsOf (roundUnits num den - 1) + unitsOf (roundUnits num den)) * den :=
    Nat.mul_le_mul_right _ (Nat.add_le_add_right (unitsOf_le_of_le (by omega) (by omega)) _)
  omega

/-- A value on the nearer side of the midpoint of two points is no farther from the one on that side; as far from both
only at the midpoint. -/
theorem natAbs_sub_le_of_le_midpoint {x near far : Nat} (h : near < far ∧ 2 * x ≤ near + far ∨
    far < near ∧ far + near ≤ 2 * x) :
    ((x : Int) - near).natAbs ≤ ((x : Int) - far).natAbs ∧
    (((x : Int) - near).natAbs = ((x : Int) - far).natAbs → 2 * x = near + far) := by
  omega

/-- `roundUnits` is roundTiesToEven with its overflow (R10). -/
theorem nearestEven_roundUnits (num den : Nat) (hd : 0 < den) : NearestEven num den (roundUnits num den) := by
  refine ⟨roundUnits_le_inf num den, roundUnits_eq_infBits_iff num den hd, fun hm other ho => ?_⟩
  rcases Nat.lt_trichotomy (roundUnits num den) other with hlt | rfl | hgt
  · obtain ⟨hle, heven⟩ := le_midpoint_of_roundUnits_lt hd hlt ho
    have hunits := Nat.mul_lt_mul_of_pos_right (unitsOf_lt_of_lt hlt ho) hd
    rw [Nat.add_mul] at hle heven
    obtain ⟨hdist, hmid⟩ := natAbs_sub_le_of_le_midpoint (.inl ⟨hunits, hle⟩)
    exact ⟨hdist, fun heq _ => heven (hmid heq)⟩
  · exact ⟨le_rfl, fun _ h => absurd rfl h⟩
  · obtain ⟨hle, heven⟩ := midpoint_le_of_lt_roundUnits hd hgt hm
    have hunits := Nat.mul_lt_mul_of_pos_right (unitsOf_lt_of_lt hgt hm) hd
    rw [Nat.add_mul] at hle heven
    obtain ⟨hdist, hmid⟩ := natAbs_sub_le_of_le_midpoint (.inr ⟨hunits, hle⟩)
    exact ⟨hdist, fun heq _ => heven ((hmid heq).trans (Nat.add_comm _ _))⟩

/-- A rounded magnitude with a sign put to it is the value rounded once. -/
theorem roundedOnce_withSign (s : Bool) (num den : Nat) (hd : 0 < den) :
    RoundedOnce s num den (withSign s (roundUnits num den)) := by
  have hle := roundUnits_le_inf num den
  rw [RoundedOnce, sign_withSign s _ hle, magBits_withSign s _ hle]
  exact ⟨rfl, nearestEven_roundUnits num den hd⟩

/-! ### The fields of an encoding -/

/-- The magnitude encoding is the exponent field over the significand field. -/
theorem magBits_eq_fields (d : Word) :
    magBits d = 2 ^ 52 * (d.extractLsb' 52 11).toNat + (d.extractLsb' 0 52).toNat := by
  simp only [magBits, BitVec.extractLsb'_toNat, Nat.shiftRight_eq_div_pow]
  omega

theorem isNaN_iff_fields (d : Word) :
    isNaN d = true ↔ (d.extractLsb' 52 11).toNat = 2047 ∧ d.extractLsb' 0 52 ≠ 0#52 := by
  have hexp := (d.extractLsb' 52 11).isLt
  have hfrac := (d.extractLsb' 0 52).isLt
  rw [isNaN, decide_eq_true_iff, magBits_eq_fields, infBits, ne_eq, ← BitVec.toNat_inj, BitVec.toNat_ofNat]
  omega

theorem isInf_iff_fields (d : Word) :
    isInf d = true ↔ (d.extractLsb' 52 11).toNat = 2047 ∧ d.extractLsb' 0 52 = 0#52 := by
  have hexp := (d.extractLsb' 52 11).isLt
  have hfrac := (d.extractLsb' 0 52).isLt
  rw [isInf, beq_iff_eq, magBits_eq_fields, infBits, ← BitVec.toNat_inj, BitVec.toNat_ofNat]
  omega

/-- The units of an encoding from its fields: subnormal with exponent field 0, else with the hidden bit. -/
theorem units_eq_fields (d : Word) :
    units d = if (d.extractLsb' 52 11).toNat = 0 then (d.extractLsb' 0 52).toNat
      else (2 ^ 52 + (d.extractLsb' 0 52).toNat) * 2 ^ ((d.extractLsb' 52 11).toNat - 1) := by
  have hfrac := (d.extractLsb' 0 52).isLt
  rw [units, magBits_eq_fields, unitsOf, Nat.mul_add_div (by decide), Nat.div_eq_of_lt hfrac, Nat.add_zero,
    Nat.mul_add_mod, Nat.mod_eq_of_lt hfrac]

theorem finiteF64_iff_magBits_lt (d : Word) : FiniteF64 d ↔ magBits d < infBits := by
  have hfrac := (d.extractLsb' 0 52).isLt
  rw [magBits_eq_fields, infBits]
  omega

theorem isNaN_of_finite {d : Word} (h : FiniteF64 d) : isNaN d = false := by
  rw [finiteF64_iff_magBits_lt] at h
  simpa [isNaN] using h.le

theorem isInf_of_finite {d : Word} (h : FiniteF64 d) : isInf d = false := by
  rw [finiteF64_iff_magBits_lt] at h
  simpa [isInf] using h.ne

theorem isNaN_of_isInf {d : Word} (h : isInf d = true) : isNaN d = false := by
  rw [isInf, beq_iff_eq] at h
  simp [isNaN, h]

theorem sign_eq_decide (d : Word) : sign d = decide (2 ^ 63 ≤ d.toNat) := BitVec.getLsbD_last d

/-- An encoding is its sign and its magnitude. -/
theorem eq_of_sign_eq_of_magBits_eq {a b : Word} (hs : sign a = sign b) (hm : magBits a = magBits b) : a = b := by
  rw [sign_eq_decide, sign_eq_decide, decide_eq_decide] at hs
  unfold magBits at hm
  have ha := a.isLt
  have hb := b.isLt
  exact BitVec.eq_of_toNat_eq (by omega)

@[simp] theorem isNaN_nan : isNaN nan = true := by decide

@[simp] theorem isInf_withSign_infBits (s : Bool) : isInf (withSign s infBits) = true := by
  simp [isInf, magBits_withSign s infBits le_rfl]

@[simp] theorem sign_withSign_infBits (s : Bool) : sign (withSign s infBits) = s := sign_withSign s infBits le_rfl

/-! ### One equation per operation and kind of operand -/

theorem add_finite {a b : Word} (ha : FiniteF64 a) (hb : FiniteF64 b) :
    add a b = if value a + value b = 0 then withSign (sign a && sign b) 0
      else withSign (decide (value a + value b < 0)) (roundUnits (value a + value b).natAbs 1) := by
  simp [add, isNaN_of_finite ha, isNaN_of_finite hb, isInf_of_finite ha, isInf_of_finite hb]

theorem add_inf_left {a b : Word} (ha : isInf a = true) (hb : isNaN b = false) :
    add a b = if isInf b && sign a != sign b then nan else a := by
  simp [add, ha, isNaN_of_isInf ha, hb]

theorem add_inf_right {a b : Word} (ha : FiniteF64 a) (hb : isInf b = true) : add a b = b := by
  simp [add, isNaN_of_finite ha, isInf_of_finite ha, isNaN_of_isInf hb, hb]

theorem mul_finite {a b : Word} (ha : FiniteF64 a) (hb : FiniteF64 b) :
    mul a b = withSign (sign a != sign b) (roundUnits (units a * units b) oneUnits) := by
  simp [mul, isNaN_of_finite ha, isNaN_of_finite hb, isInf_of_finite ha, isInf_of_finite hb]

theorem mul_inf {a b : Word} (h : isInf a = true ∨ isInf b = true) (ha : isNaN a = false) (hb : isNaN b = false) :
    mul a b = if units a = 0 ∨ units b = 0 then nan else withSign (sign a != sign b) infBits := by
  simp [mul, ha, hb, h]

theorem div_finite {a b : Word} (ha : FiniteF64 a) (hb : FiniteF64 b) :
    div a b = if units b = 0 then (if units a = 0 then nan else withSign (sign a != sign b) infBits)
      else withSign (sign a != sign b) (roundUnits (units a * oneUnits) (units b)) := by
  simp [div, isNaN_of_finite ha, isNaN_of_finite hb, isInf_of_finite ha, isInf_of_finite hb]

theorem div_inf_left {a b : Word} (ha : isInf a = true) (hb : isNaN b = false) :
    div a b = if isInf b then nan else withSign (sign a != sign b) infBits := by
  simp [div, ha, isNaN_of_isInf ha, hb]

theorem div_inf_right {a b : Word} (ha : FiniteF64 a) (hb : isInf b = true) :
    div a b = withSign (sign a != sign b) 0 := by
  simp [div, isNaN_of_finite ha, isInf_of_finite ha, isNaN_of_isInf hb, hb]

/-- A NaN operand makes every result a NaN. -/
theorem ops_nan {a b : Word} (h : isNaN a = true ∨ isNaN b = true) : add a b = nan ∧ mul a b = nan ∧ div a b = nan := by
  simp [add, mul, div, h]

/-- Comparisons are false on a NaN. -/
theorem lt_ge_nan {a b : Word} (h : isNaN a = true ∨ isNaN b = true) : lt a b = false ∧ ge a b = false := by
  rcases h with h | h <;> simp [lt, ge, h]

theorem lt_iff {a b : Word} (ha : isNaN a = false) (hb : isNaN b = false) : lt a b = true ↔ value a < value b := by
  simp [lt, ha, hb]

theorem ge_iff {a b : Word} (ha : isNaN a = false) (hb : isNaN b = false) : ge a b = true ↔ value b ≤ value a := by
  simp [ge, ha, hb]

theorem trunc_bounds (d : Word) : trunc d * 2 ^ 1074 ≤ units d ∧ units d < (trunc d + 1) * 2 ^ 1074 :=
  ⟨Nat.div_mul_le_self _ _, (Nat.div_lt_iff_lt_mul oneUnits_pos).1 (Nat.lt_succ_self _)⟩

/-! ### The clauses of the obligation -/

/-- `fadd` of finite operands: the exact sum rounded once, and the sign of an exact zero sum. -/
theorem add_finite_rounded {a b : Word} (ha : FiniteF64 a) (hb : FiniteF64 b) :
    (value a + value b ≠ 0 → RoundedOnce (decide (value a + value b < 0)) (value a + value b).natAbs 1 (add a b)) ∧
    (value a + value b = 0 →
      add a b = if sign a && sign b then 0x8000000000000000#64 else 0x0000000000000000#64) := by
  rw [add_finite ha hb]
  constructor
  · intro hne
    rw [if_neg hne]
    exact roundedOnce_withSign _ _ _ Nat.one_pos
  · intro hzero
    rw [if_pos hzero]
    cases sign a && sign b <;> rfl

theorem mul_finite_rounded {a b : Word} (ha : FiniteF64 a) (hb : FiniteF64 b) :
    RoundedOnce (sign a != sign b) (units a * units b) (2 ^ 1074) (mul a b) := by
  rw [mul_finite ha hb]
  exact roundedOnce_withSign _ _ _ oneUnits_pos

/-- `fdiv` of finite operands: the exact quotient rounded once; by zero, a NaN or an infinity. -/
theorem div_finite_rounded {a b : Word} (ha : FiniteF64 a) (hb : FiniteF64 b) :
    (units b ≠ 0 → RoundedOnce (sign a != sign b) (units a * 2 ^ 1074) (units b) (div a b)) ∧
    (units b = 0 → units a = 0 → isNaN (div a b) = true) ∧
    (units b = 0 → units a ≠ 0 → isInf (div a b) = true ∧ sign (div a b) = (sign a != sign b)) := by
  rw [div_finite ha hb]
  refine ⟨fun hb0 => ?_, fun hb0 ha0 => ?_, fun hb0 ha0 => ?_⟩
  · rw [if_neg hb0]
    exact roundedOnce_withSign _ _ _ (Nat.pos_of_ne_zero hb0)
  · simp [hb0, ha0]
  · simp [hb0, ha0]

/-- `fadd` with an infinite operand. -/
theorem add_infinite (a b : Word) :
    (isInf a = true → FiniteF64 b ∨ b = a → add a b = a) ∧
    (FiniteF64 a → isInf b = true → add a b = b) ∧
    (isInf a = true → isInf b = true → a ≠ b → isNaN (add a b) = true) := by
  refine ⟨fun ha hb => ?_, add_inf_right, fun ha hb hne => ?_⟩
  · rcases hb with hb | rfl
    · simp [add_inf_left ha (isNaN_of_finite hb), isInf_of_finite hb]
    · simp [add_inf_left ha (isNaN_of_isInf ha)]
  · have hmag : magBits a = magBits b := (beq_iff_eq.1 ha).trans (beq_iff_eq.1 hb).symm
    have hsign : sign a ≠ sign b := fun hs => hne (eq_of_sign_eq_of_magBits_eq hs hmag)
    simp [add_inf_left ha (isNaN_of_isInf hb), hb, hsign]

/-- `fmul` with an infinite operand. -/
theorem mul_infinite (a b : Word) (h : isInf a = true ∨ isInf b = true) :
    (units a = 0 ∨ units b = 0 → isNaN (mul a b) = true) ∧
    (isNaN a = false → isNaN b = false → units a ≠ 0 → units b ≠ 0 →
      isInf (mul a b) = true ∧ sign (mul a b) = (sign a != sign b)) := by
  constructor
  · intro h0
    by_cases hnan : isNaN a = true ∨ isNaN b = true
    · simp [ops_nan hnan]
    · simp only [not_or, Bool.not_eq_true] at hnan
      obtain ⟨ha, hb⟩ := hnan
      simp [mul_inf h ha hb, h0]
  · intro ha hb ha0 hb0
    simp [mul_inf h ha hb, ha0, hb0]

/-- `fdiv` with an infinite operand. -/
theorem div_infinite (a b : Word) :
    (isInf a = true → isInf b = true → isNaN (div a b) = true) ∧
    (isInf a = true → FiniteF64 b → isInf (div a b) = true ∧ sign (div a b) = (sign a != sign b)) ∧
    (FiniteF64 a → isInf b = true → units (div a b) = 0 ∧ sign (div a b) = (sign a != sign b)) := by
  refine ⟨fun ha hb => ?_, fun ha hb => ?_, fun ha hb => ?_⟩
  · simp [div_inf_left ha (isNaN_of_isInf hb), hb]
  · simp [div_inf_left ha (isNaN_of_finite hb), isInf_of_finite hb]
  · rw [div_inf_right ha hb]
    exact ⟨units_withSign _ 0 (by decide), sign_withSign _ 0 (by decide)⟩

end F64

/-- Settles O12: each operation is one `roundUnits` of its exact result, and `roundUnits` is nearest-even because its
value lies between the midpoints on both sides of its rounding (`F64.roundUnits_le_iff`). -/
theorem roundingIsNearestEven : Obligations.RoundingIsNearestEven := by
  refine ⟨F64.nearestEven_roundUnits,
    fun d => ⟨rfl, F64.isNaN_iff_fields d, F64.isInf_iff_fields d, F64.units_eq_fields d, rfl⟩,
    fun n => F64.roundedOnce_withSign false _ 1 Nat.one_pos, fun d _ _ => F64.trunc_bounds d, fun a b ha hb => ?_,
    fun a b => rfl, fun a b h => ?_, fun a b ha hb => ⟨F64.lt_iff ha hb, F64.ge_iff ha hb⟩, fun a b => ?_⟩
  · obtain ⟨hsum, hzero⟩ := F64.add_finite_rounded ha hb
    exact ⟨hsum, hzero, F64.mul_finite_rounded ha hb, F64.div_finite_rounded ha hb⟩
  · obtain ⟨hlt, hge⟩ := F64.lt_ge_nan h
    obtain ⟨hadd, hmul, hdiv⟩ := F64.ops_nan h
    simp [hlt, hge, hadd, hmul, hdiv]
  · obtain ⟨hinf, hfin, hinvalid⟩ := F64.add_infinite a b
    exact ⟨hinf, hfin, hinvalid, fun h => (F64.mul_infinite a b h).1, fun h => (F64.mul_infinite a b h).2,
      F64.div_infinite a b⟩

end Sys2Proof.Machine
end

section
/-! SUPPORT for the state's statements: which addresses hold a written byte, and memory as a command or the host leaves
it, cell write by cell write (R48, R61, R64). -/

namespace Sys2Proof.Machine

/-! ### Written addresses -/

/-- The written bit of an address (R48): its byte has a value. -/
abbrev Memory.Written (m : List Host.Cell) (a : Nat) : Prop := (Memory.readByte m a).isSome = true

theorem written_of_mem {m : List Host.Cell} {c : Host.Cell} (h : c ∈ m) : Memory.Written m c.1 := by
  induction m with
  | nil => cases h
  | cons d rest ih =>
    obtain ⟨k, b⟩ := d
    by_cases hk : c.1 = k
    · simp [Memory.Written, Memory.readByte, hk]
    · have hc : c ∈ rest := (List.mem_cons.1 h).resolve_left fun he => hk (by rw [he])
      simpa [Memory.Written, Memory.readByte, hk] using ih hc

theorem exists_mem_of_written {m : List Host.Cell} {a : Nat} (h : Memory.Written m a) : ∃ v, (a, v) ∈ m := by
  obtain ⟨v, hv⟩ := Option.isSome_iff_exists.1 h
  exact ⟨v, mem_of_readByte hv⟩

/-- A run of bytes reads exactly when each of them is written. -/
theorem isSome_readBytes_iff (m : List Host.Cell) (a n : Nat) :
    (Memory.readBytes m a n).isSome = true ↔ ∀ k < n, Memory.Written m (a + k) := by
  rw [Option.isSome_iff_exists]
  constructor
  · rintro ⟨bs, hbs⟩ k hk
    obtain ⟨hlen, hread⟩ := (readBytes_eq_some_iff _ _ _ _).1 hbs
    simp [Memory.Written, hread k (hlen ▸ hk)]
  · intro h
    refine ⟨List.ofFn fun k : Fin n => (Memory.readByte m (a + k)).get (h k k.isLt), ?_⟩
    exact (readBytes_eq_some_iff _ _ _ _).2 ⟨by simp, fun k hk => by simp⟩

/-- A run of bytes does not read exactly when one of them was never written. -/
theorem readBytes_eq_none_iff (m : List Host.Cell) (a n : Nat) :
    Memory.readBytes m a n = none ↔ ∃ k < n, Memory.readByte m (a + k) = none := by
  rw [← Option.not_isSome_iff_eq_none, isSome_readBytes_iff]
  simp

/-- The addresses a run of bytes leaves written: its own and those written before. -/
theorem written_writeBytes_iff (m : List Host.Cell) (a : Nat) (bs : List Byte) (x : Nat) :
    Memory.Written (Memory.writeBytes m a bs) x ↔ (a ≤ x ∧ x < a + bs.length) ∨ Memory.Written m x := by
  by_cases hx : a ≤ x ∧ x < a + bs.length
  · have hin := readByte_writeBytes_inside m a bs (x - a) (by omega)
    rw [show a + (x - a) = x by omega] at hin
    simp [Memory.Written, hin, hx]
  · have hout := readByte_writeBytes_outside m a bs x (by omega)
    simp only [Memory.Written, hout, hx, false_or]

theorem mem_writeBytes {m : List Host.Cell} {a : Nat} {bs : List Byte} {c : Host.Cell}
    (hc : c ∈ Memory.writeBytes m a bs) : (a ≤ c.1 ∧ c.1 < a + bs.length) ∨ c ∈ m := by
  induction bs generalizing m a with
  | nil => exact .inr hc
  | cons b rest ih =>
    simp only [List.length_cons]
    rcases ih hc with h | h
    · exact .inl (by omega)
    · rcases mem_writeByte h with rfl | h
      · exact .inl (by simp only; omega)
      · exact .inr h

/-! ### Cell writes -/

/-- `m'` is `m` after some writes of implemented cells, each of its RAM's width: all that a command or a host write does
to memory. -/
inductive CellWrites (p : Params) (m : List Host.Cell) : List Host.Cell → Prop
  | refl : CellWrites p m m
  | byte {m' : List Host.Cell} (r : Ram) (i : Nat) (b : Byte) (width : r.cellBytes = 1) (hi : i < r.cells p)
      (h : CellWrites p m m') : CellWrites p m (writeByteCell m' r i b)
  | word {m' : List Host.Cell} (r : Ram) (i : Nat) (w : Word) (width : r.cellBytes = 8) (hi : i < r.cells p)
      (h : CellWrites p m m') : CellWrites p m (writeWordCell m' r i w)

theorem CellWrites.byteCells {p : Params} {m m' : List Host.Cell} {r : Ram} {i : Nat} {bs : List Byte}
    (h : CellWrites p m m') (width : r.cellBytes = 1) (hi : i + bs.length ≤ r.cells p) :
    CellWrites p m (writeByteCells m' r i bs) := by
  induction bs generalizing m' i with
  | nil => exact h
  | cons b rest ih =>
    rw [List.length_cons] at hi
    exact ih (.byte r i b width (by omega) h) (by omega)

theorem CellWrites.wordCells {p : Params} {m m' : List Host.Cell} {r : Ram} {i : Nat} {ws : List Word}
    (h : CellWrites p m m') (width : r.cellBytes = 8) (hi : i + ws.length ≤ r.cells p) :
    CellWrites p m (writeWordCells m' r i ws) := by
  induction ws generalizing m' i with
  | nil => exact h
  | cons w rest ih =>
    rw [List.length_cons] at hi
    exact ih (.word r i w width (by omega) h) (by omega)

theorem CellWrites.wf {p : Params} {m m' : List Host.Cell} (h : CellWrites p m m') (hm : Memory.wf m) :
    Memory.wf m' := by
  induction h with
  | refl => exact hm
  | byte r i b _ _ _ ih => exact writeByte_wf _ b ih
  | word r i w _ _ _ ih => exact writeBytes_wf _ _ ih

theorem implemented_of_mem_cell {p : Params} {r : Ram} {i a : Nat} (hi : i < r.cells p) (hlo : r.addr i ≤ a)
    (hhi : a < r.addr i + r.cellBytes) : Memory.implemented p a = true := by
  have hin : r.base ≤ a ∧ a < r.base + r.cellBytes * r.cells p := by
    have := Nat.mul_le_mul_left r.cellBytes (Nat.succ_le_of_lt hi)
    rw [Nat.mul_succ] at this
    unfold Ram.addr at hlo hhi
    omega
  refine List.any_eq_true.2 ⟨r, by cases r <;> decide, ?_⟩
  simp [hin]

theorem CellWrites.implemented {p : Params} {m m' : List Host.Cell} (h : CellWrites p m m')
    (hm : ∀ c ∈ m, Memory.implemented p c.1 = true) : ∀ c ∈ m', Memory.implemented p c.1 = true := by
  induction h with
  | refl => exact hm
  | byte r i b width hi _ ih =>
    intro c hc
    rcases mem_writeByte hc with rfl | hc
    · exact implemented_of_mem_cell hi le_rfl (by simp only [width]; omega)
    · exact ih c hc
  | word r i w width hi _ ih =>
    intro c hc
    rcases mem_writeBytes hc with ⟨hlo, hhi⟩ | hc
    · exact implemented_of_mem_cell hi hlo (by rwa [width])
    · exact ih c hc

/-! ### Entries written whole -/

/-- `State.EntriesWhole` by address: a written byte of a word RAM's window has its whole entry written. -/
def Memory.EntriesWhole (m : List Host.Cell) : Prop :=
  ∀ a, 0x02000000 ≤ a → a < 0x05000000 → Memory.Written m a → ∀ k < 8, Memory.Written m (a - a % 8 + k)

theorem entriesWhole_iff (s : State) : s.EntriesWhole ↔ Memory.EntriesWhole s.mem := by
  simp only [State.EntriesWhole, Memory.EntriesWhole, isSome_readBytes_iff]
  constructor
  · intro h a hlo hhi ha
    obtain ⟨v, hv⟩ := exists_mem_of_written ha
    exact h (a, v) hv hlo hhi
  · exact fun h c hc hlo hhi => h c.1 hlo hhi (written_of_mem hc)

/-- The windows of the byte RAMs and of the word RAMs are apart, and an entry's address is aligned (R61). -/
theorem Ram.addr_bounds {p : Params} (hp : p.Legal) {r : Ram} {i : Nat} (hi : i < r.cells p) :
    (r.cellBytes = 1 → r.addr i < 0x02000000 ∨ 0x06000000 ≤ r.addr i) ∧ (r.cellBytes = 8 → r.addr i % 8 = 0) := by
  obtain ⟨-, -, -, -, hseed⟩ := hp
  cases r <;> simp only [Ram.addr, Ram.base, Ram.cellBytes, Ram.cells] at * <;> omega

theorem CellWrites.entriesWhole {p : Params} (hp : p.Legal) {m m' : List Host.Cell} (h : CellWrites p m m')
    (hm : Memory.EntriesWhole m) : Memory.EntriesWhole m' := by
  induction h with
  | refl => exact hm
  | @byte m' r i b width hi _ ih =>
    have hout := (Ram.addr_bounds hp hi).1 width
    intro a hlo hhi ha k hk
    have hw := written_writeBytes_iff m' (r.addr i) [b]
    simp only [List.length_singleton] at hw
    have ha' := ((hw a).1 ha).resolve_left (by omega)
    exact (hw _).2 (.inr (ih a hlo hhi ha' k hk))
  | @word m' r i w width hi _ ih =>
    have halign := (Ram.addr_bounds hp hi).2 width
    intro a hlo hhi ha k hk
    have hw := written_writeBytes_iff m' (r.addr i) (entryBytes w)
    rw [entryBytes_length] at hw
    refine (hw _).2 ?_
    rcases (hw a).1 ha with hin | ha'
    · exact .inl (by omega)
    · exact .inr (ih a hlo hhi ha' k hk)

end Sys2Proof.Machine
end

section
/-! SUPPORT for the state's statements: what each command that completes can leave, said once (R125 to R206). -/

namespace Sys2Proof.Machine

/-! ### Indexes in range -/

/-- Every ALIAS entry the main loop of R153 stores is a large index or was there before. -/
theorem balanceLoop_aliasOf_lt {n fuel : Nat} {b : Balance} (hlarge : ∀ g ∈ b.large, g < n)
    (halias : ∀ a ∈ b.tables.aliasOf, a < n) : ∀ a ∈ (balanceLoop fuel b).tables.aliasOf, a < n := by
  induction fuel generalizing b with
  | zero => exact halias
  | succ fuel ih =>
    rw [balanceLoop]
    split
    · next a small g large _ hl =>
      rw [hl] at hlarge
      refine ih (fun x hx => hlarge x ?_) (fun x hx => ?_)
      · simp only [balanceStep] at hx
        split_ifs at hx
        · exact List.mem_cons_of_mem _ hx
        · exact hx
      · rcases List.mem_or_eq_of_mem_set hx with hx | rfl
        · exact halias x hx
        · exact hlarge x List.mem_cons_self
    · exact halias

/-- The ALIAS entries of a table are indexes of it (R154). -/
theorem buildTables_aliasOf_lt (w : List Word) : ∀ a ∈ (buildTables w).aliasOf, a < w.length := by
  refine balanceLoop_aliasOf_lt (fun g hg => ?_) (fun a ha => ?_)
  · have := mem_stackOf hg
    simp only [scaledWeights, List.length_map] at this
    omega
  · obtain ⟨hn, rfl⟩ := List.mem_replicate.1 ha
    omega

/-- The shuffle of R183 picks indexes below `n` when it starts from such. -/
theorem shuffle_lt {n k : Nat} (hn : 0 < n) {g : Prng} {rem order : List Nat} (hrem : ∀ x ∈ rem, x < n)
    (h : shuffle k g rem = .ok order) : ∀ x ∈ order, x < n := by
  induction k generalizing g rem order with
  | zero => cases h; simp
  | succ k ih =>
    rw [shuffle] at h
    obtain ⟨⟨j, g'⟩, -, h⟩ := bind_eq_ok_iff.1 h
    obtain ⟨rest, hrest, h⟩ := bind_eq_ok_iff.1 h
    cases h
    intro x hx
    rcases List.mem_cons.1 hx with rfl | hx
    · rw [List.getD_eq_getElem?_getD]
      cases hj : rem[j.toNat]? with
      | none => exact hn
      | some y => exact hrem y (List.mem_of_getElem? hj)
    · exact ih (fun y hy => hrem y (List.mem_of_mem_eraseIdx hy)) hrest x hx

/-- A selection picks fragments of the message: indexes below seqLen (R180, R185). -/
theorem selectFragmentIndexes_lt {seqNum checksum : Word32} {seqLen : Nat} (hn : 1 ≤ seqLen) {sel : Selection}
    (h : selectFragmentIndexes seqNum seqLen checksum = .ok sel) : ∀ k ∈ sel.set, k < seqLen := by
  unfold selectFragmentIndexes at h
  split_ifs at h
  · cases h
    simp only [List.mem_singleton, forall_eq]
    omega
  · unfold selectByDraws at h
    obtain ⟨⟨r1, g1⟩, -, h⟩ := bind_eq_ok_iff.1 h
    obtain ⟨⟨r2, g2⟩, -, h⟩ := bind_eq_ok_iff.1 h
    obtain ⟨i, -, h⟩ := bind_eq_ok_iff.1 h
    obtain ⟨order, horder, h⟩ := bind_eq_ok_iff.1 h
    cases h
    intro k hk
    exact shuffle_lt hn (fun x hx => List.mem_range.1 hx) horder k (List.mem_of_mem_take hk)

theorem nextBytes_length {g g' : Prng} {n : Nat} {bs : List Byte} (h : nextBytes g n = .ok (bs, g')) :
    bs.length = n := by
  induction n generalizing g bs with
  | zero => cases h; rfl
  | succ n ih =>
    rw [nextBytes] at h
    obtain ⟨⟨b, g1⟩, -, h⟩ := bind_eq_ok_iff.1 h
    obtain ⟨⟨rest, g2⟩, hrest, h⟩ := bind_eq_ok_iff.1 h
    cases h
    rw [List.length_cons, ih hrest]

/-! ### What a command that completes leaves -/

/-- What ALIAS_BUILD writes of its tables (R156). -/
def State.withTables (s : State) (t : Tables) : State :=
  { s with
    mem := writeWordCells (writeWordCells s.mem .prob 0 t.prob) .aliasTab 0 (t.aliasOf.map (BitVec.ofNat 64))
    aliasN := s.arg0
    aliasValid := true }

/-- Command `i`, completing in state `s`, has computed state `u`, of which it leaves `u.complete`: one constructor a
kind of effect, with the bounds on what is written. -/
inductive Completes (s : State) : Instr → State → Prop
  | nop : Completes s .nop s
  | seeds {i : Instr} (hi : i ∈ [Instr.prngSeedWords, .prngSeedBytes32, .prngSeedHash, .prngSeedU32]) (g : Prng) :
      Completes s i (s.seedWith g)
  | draws {i : Instr}
      (hi : i ∈ [Instr.prngNext, .prngNextDouble, .prngNextInt, .prngNextByte, .aliasSampleRng]) (v : Word) (g : Prng) :
      Completes s i { s with res0 := v, prng := g }
  | nextBytes (bs : List Byte) (g : Prng) (hlen : bs.length = s.arg0.toNat) (hmax : s.arg0.toNat ≤ s.params.flenMax) :
      Completes s .prngNextBytes { s with mem := writeByteCells s.mem .out 0 bs, prng := g }
  | jumps {i : Instr} (hi : i ∈ [Instr.prngJump, .prngLongJump]) (g : Prng) : Completes s i { s with prng := g }
  | aliasBuild (w : List Word) (hlen : w.length = s.arg0.toNat) (hpos : 1 ≤ s.arg0.toNat)
      (hmax : s.arg0.toNat ≤ s.params.nMax) : Completes s .aliasBuild (s.withTables (buildTables w))
  | aliasSample (v : Word) : Completes s .aliasSample { s with res0 := v }
  | select (sel : Selection) (hset : ∀ k ∈ sel.set, k < s.params.nMax) : Completes s .select (s.withSelection sel)
  | mix (o : List Byte) (v : Word) (hlen : o.length = s.flen.toNat) (hmax : s.flen.toNat ≤ s.params.flenMax) :
      Completes s .mix { s with mem := writeByteCells s.mem .out 0 o, res0 := v }
  | part (sel : Selection) (o : List Byte) (hset : ∀ k ∈ sel.set, k < s.params.nMax) (hlen : o.length = s.flen.toNat)
      (hmax : s.flen.toNat ≤ s.params.flenMax) :
      Completes s .part { s.withSelection sel with mem := writeByteCells s.mem .out 0 o }

/-- Where every answer of command `i`'s computation is one of `Completes`, the command completes so or takes fault
entry. -/
theorem completes_or_faults {i : Instr} {s t : State} {r : Except Stop State} (h : finish i s r = .next t)
    (hr : ∀ u, r = .ok u → Completes s i u) :
    (∃ u, Completes s i u ∧ t = u.complete) ∨ ∃ code, t = s.commandFault code (opcodeOf i) := by
  rcases finish_next_iff.1 h with ⟨u, hu, ht⟩ | ⟨code, -, ht⟩
  · exact .inl ⟨u, hr u hu, ht⟩
  · exact .inr ⟨code, ht⟩

/-- The inversion of `exec`: a command that answers a next state completed with its own effect or took fault entry. -/
theorem exec_next_cases {i : Instr} {s t : State} (h : exec i s = .next t) :
    (∃ u, Completes s i u ∧ t = u.complete) ∨ ∃ code, t = s.commandFault code (opcodeOf i) := by
  cases i
  case nop => exact completes_or_faults (r := .ok s) h fun u hu => by cases hu; exact .nop
  case prngSeedWords =>
    exact completes_or_faults (r := .ok (s.seedWith _)) h fun u hu => by cases hu; exact .seeds (by simp) _
  case prngSeedBytes32 | prngSeedHash =>
    refine completes_or_faults h fun u hu => ?_
    simp only [bind_eq_ok_iff] at hu
    obtain ⟨_, -, _, -, hu⟩ := hu
    cases hu
    exact .seeds (by simp) _
  case prngSeedU32 =>
    refine completes_or_faults h fun u hu => ?_
    obtain ⟨_, -, hu⟩ := bind_eq_ok_iff.1 hu
    cases hu
    exact .seeds (by simp) _
  case prngNext =>
    refine completes_or_faults h fun u hu => ?_
    obtain ⟨_, -, hu⟩ := bind_eq_ok_iff.1 hu
    cases hu
    exact .draws (by simp) _ _
  case prngNextDouble | prngNextInt | prngNextByte =>
    refine completes_or_faults h fun u hu => ?_
    simp only [bind_eq_ok_iff] at hu
    obtain ⟨_, -, ⟨v, g⟩, -, hu⟩ := hu
    cases hu
    exact .draws (by simp) _ _
  case prngNextBytes =>
    refine completes_or_faults h fun u hu => ?_
    simp only [bind_eq_ok_iff, operandRange_eq_ok_iff] at hu
    obtain ⟨_, -, _, ⟨-, hmax, rfl⟩, ⟨bs, g⟩, hbs, hu⟩ := hu
    cases hu
    exact .nextBytes bs g (nextBytes_length hbs) hmax
  case prngJump | prngLongJump =>
    refine completes_or_faults h fun u hu => ?_
    obtain ⟨_, -, hu⟩ := bind_eq_ok_iff.1 hu
    cases hu
    exact .jumps (by simp) _
  case aliasBuild =>
    refine completes_or_faults h fun u hu => ?_
    simp only [bind_eq_ok_iff, operandRange_eq_ok_iff] at hu
    obtain ⟨_, ⟨hpos, hmax, rfl⟩, w, hw, _, -, hu⟩ := hu
    cases hu
    obtain ⟨hlen, -⟩ := (readWordCells_eq_ok_iff _ _ _ _ _).1 hw
    exact .aliasBuild w hlen hpos hmax
  case aliasSample =>
    refine completes_or_faults h fun u hu => ?_
    simp only [bind_eq_ok_iff] at hu
    obtain ⟨_, -, _, -, v, -, hu⟩ := hu
    cases hu
    exact .aliasSample v
  case aliasSampleRng =>
    refine completes_or_faults h fun u hu => ?_
    simp only [bind_eq_ok_iff] at hu
    obtain ⟨_, -, _, -, ⟨r1, g1⟩, -, ⟨r2, g2⟩, -, v, -, hu⟩ := hu
    cases hu
    exact .draws (by simp) _ _
  case select =>
    refine completes_or_faults h fun u hu => ?_
    simp only [bind_eq_ok_iff, operandRange_eq_ok_iff] at hu
    obtain ⟨_, -, _, -, _, ⟨hpos, hmax, rfl⟩, sel, hsel, hu⟩ := hu
    cases hu
    exact .select sel fun k hk => (selectFragmentIndexes_lt hpos hsel k hk).trans_le hmax
  case mix =>
    refine completes_or_faults h fun u hu => ?_
    simp only [bind_eq_ok_iff] at hu
    obtain ⟨⟨flen, fcount⟩, hfrag, _, -, o, ho, hu⟩ := hu
    cases hu
    obtain ⟨⟨-, hmax⟩, -, -, rfl, rfl⟩ := operandFragments_eq_ok_iff.1 hfrag
    exact .mix o _ (mixFragments_length ho) hmax
  case part =>
    refine completes_or_faults h fun u hu => ?_
    simp only [bind_eq_ok_iff] at hu
    obtain ⟨_, -, _, -, ⟨flen, fcount⟩, hfrag, sel, hsel, o, ho, hu⟩ := hu
    cases hu
    obtain ⟨⟨-, hmax⟩, ⟨hpos, hcount⟩, -, rfl, rfl⟩ := operandFragments_eq_ok_iff.1 hfrag
    exact .part sel o (fun k hk => (selectFragmentIndexes_lt hpos hsel k hk).trans_le hcount)
      (mixFragments_length ho) hmax

end Sys2Proof.Machine
end

section
/-! SUPPORT for the state's statements: the frames of the commands (R160, R277), and what one step can do. -/

namespace Sys2Proof.Machine

/-! ### The frame of a command -/

/-- The fault entry of a command is the state `faulted` spells out (R38, R241). -/
theorem commandFault_eq_faulted (i : Instr) (s : State) (code : FaultCode) :
    s.commandFault code (opcodeOf i) = faulted i s code.bits := rfl

section
variable {s u : State} {i : Instr}

/-- A computation leaves the operands, the fault record and the surroundings' fields as they are. -/
theorem Completes.keeps_operands (h : Completes s i u) :
    u.params = s.params ∧ u.arg0 = s.arg0 ∧ u.arg1 = s.arg1 ∧ u.arg2 = s.arg2 ∧ u.arg3 = s.arg3 ∧
    u.seedLen = s.seedLen ∧ u.flen = s.flen ∧ u.fcount = s.fcount ∧ u.inputs = s.inputs ∧ u.readData = s.readData ∧
    u.fault = s.fault ∧ u.faultCode = s.faultCode ∧ u.faultInfo = s.faultInfo := by
  cases h <;> exact ⟨rfl, rfl, rfl, rfl, rfl, rfl, rfl, rfl, rfl, rfl, rfl, rfl, rfl⟩

/-- Only the commands that return a value write RES0 (R32). -/
theorem Completes.res0_eq (h : Completes s i u)
    (hi : i ∉ [Instr.prngNext, .prngNextDouble, .prngNextInt, .prngNextByte, .aliasSample, .aliasSampleRng, .select,
      .mix, .part]) : u.res0 = s.res0 := by
  cases h
  case draws _ _ hdraw =>
    simp only [List.mem_cons, List.not_mem_nil, not_or, or_false] at hdraw hi
    tauto
  case aliasSample | select | mix | part => exact absurd (by decide) hi
  all_goals rfl

/-- Only SELECT and PART write RES1 and IDX (R184, R186, R206). -/
theorem Completes.res1_idx_eq (h : Completes s i u) (hi : i ∉ [Instr.select, .part]) :
    u.res1 = s.res1 ∧ u.idx = s.idx := by
  cases h
  case select | part => exact absurd (by decide) hi
  all_goals exact ⟨rfl, rfl⟩

/-- SEEDED is set by the seeding commands alone, and cleared by none (R27). -/
theorem Completes.seeded_eq (h : Completes s i u) :
    (i ∉ [Instr.prngSeedWords, .prngSeedBytes32, .prngSeedHash, .prngSeedU32] → u.seeded = s.seeded) ∧
    (s.seeded = true → u.seeded = true) := by
  cases h
  case seeds _ hseed => exact ⟨absurd hseed, fun _ => rfl⟩
  all_goals exact ⟨fun _ => rfl, id⟩

/-- ALIAS_VALID and ALIAS_N are written by ALIAS_BUILD alone, which sets the flag (R28, R34). -/
theorem Completes.aliasValid_eq (h : Completes s i u) :
    (i ≠ .aliasBuild → u.aliasValid = s.aliasValid ∧ u.aliasN = s.aliasN) ∧
    (s.aliasValid = true → u.aliasValid = true) := by
  cases h
  case aliasBuild => exact ⟨absurd rfl, fun _ => rfl⟩
  all_goals exact ⟨fun _ => ⟨rfl, rfl⟩, id⟩

/-- The bytes of a list written to OUT from its start leave every other address alone. -/
theorem sameOutside_writeOut (m : List Host.Cell) (bs : List Byte) :
    SameOutside m (writeByteCells m .out 0 bs) 0x07000000 bs.length := by
  intro a ha
  rw [writeByteCells_eq _ _ _ _ rfl]
  exact readByte_writeBytes_outside _ _ _ _ ha

/-- Tables written to PROB and ALIAS leave every address outside their entries alone. -/
theorem readByte_withTables_outside (s : State) (t : Tables) (a : Nat)
    (hprob : a < 0x03000000 ∨ 0x03000000 + 8 * t.prob.length ≤ a)
    (halias : a < 0x04000000 ∨ 0x04000000 + 8 * t.aliasOf.length ≤ a) :
    Memory.readByte (s.withTables t).mem a = Memory.readByte s.mem a := by
  rw [State.withTables, readByte_writeWordCells_outside _ _ _ _ _ rfl (by rwa [List.length_map]),
    readByte_writeWordCells_outside _ _ _ _ _ rfl hprob]

/-- What a computation writes of memory: only PRNG_NEXT_BYTES, MIX, PART and ALIAS_BUILD do, in the bytes they name. -/
theorem Completes.memory_frame (h : Completes s i u) :
    (i ∉ [Instr.prngNextBytes, .mix, .part, .aliasBuild] → u.mem = s.mem) ∧
    (i = .prngNextBytes → SameOutside s.mem u.mem 0x07000000 s.arg0.toNat) ∧
    (i ∈ [Instr.mix, .part] → SameOutside s.mem u.mem 0x07000000 s.flen.toNat) ∧
    (i = .aliasBuild →
      ∀ a, (a < 0x03000000 ∨ 0x03000000 + 8 * s.arg0.toNat ≤ a) → (a < 0x04000000 ∨ 0x04000000 + 8 * s.arg0.toNat ≤ a) →
        Memory.readByte u.mem a = Memory.readByte s.mem a) := by
  cases h
  case nextBytes bs g hlen _ =>
    exact ⟨by simp, fun _ => hlen ▸ sameOutside_writeOut _ _, by simp, by simp⟩
  case mix o v hlen _ => exact ⟨by simp, by simp, fun _ => hlen ▸ sameOutside_writeOut _ _, by simp⟩
  case part sel o _ hlen _ => exact ⟨by simp, by simp, fun _ => hlen ▸ sameOutside_writeOut _ _, by simp⟩
  case aliasBuild w hlen _ _ =>
    obtain ⟨hprob, halias⟩ := buildTables_lengths w
    refine ⟨by simp, by simp, by simp, fun _ a h1 h2 => ?_⟩
    rw [← hlen] at h1 h2
    exact readByte_withTables_outside s _ a (by rwa [hprob]) (by rwa [halias])
  all_goals exact ⟨fun _ => rfl, fun _ _ _ => rfl, fun _ _ _ => rfl, fun _ _ _ _ => rfl⟩

/-- A computation writes memory by writes of implemented cells alone. -/
theorem Completes.cellWrites (h : Completes s i u) : CellWrites s.params s.mem u.mem := by
  cases h
  case nextBytes bs g hlen hmax => exact .byteCells .refl rfl (by simp only [Ram.cells]; omega)
  case mix o v hlen hmax => exact .byteCells .refl rfl (by simp only [Ram.cells]; omega)
  case part sel o _ hlen hmax => exact .byteCells .refl rfl (by simp only [Ram.cells]; omega)
  case aliasBuild w hlen _ hmax =>
    obtain ⟨hprob, halias⟩ := buildTables_lengths w
    exact .wordCells (.wordCells .refl rfl (by simp only [Ram.cells]; omega)) rfl
      (by simp only [Ram.cells, List.length_map]; omega)
  all_goals exact .refl

/-- A computation sets no bit of IDX at N_MAX or above (R45). -/
theorem Completes.idx_lt (h : Completes s i u) (hidx : s.idx < 2 ^ s.params.nMax) : u.idx < 2 ^ s.params.nMax := by
  cases h
  case select sel hset => exact idxOfSet_lt _ _ hset
  case part sel o hset _ _ => exact idxOfSet_lt _ _ hset
  all_goals exact hidx

end

/-! ### The obligations on frames -/

/-- Settles O45: a command that completes keeps the operands (`Completes.keeps_operands`), and fault entry writes the
fault record alone. -/
theorem commandsKeepOperands : Obligations.CommandsKeepOperands := by
  intro i s t h
  rcases exec_next_cases h with ⟨u, hu, rfl⟩ | ⟨code, rfl⟩
  · obtain ⟨h1, h2, h3, h4, h5, h6, h7, h8, h9, h10, hfault⟩ := hu.keeps_operands
    exact ⟨h1, h2, h3, h4, h5, h6, h7, h8, rfl, h9, h10, .inl hfault⟩
  · exact ⟨rfl, rfl, rfl, rfl, rfl, rfl, rfl, rfl, rfl, rfl, rfl, .inr ⟨_, commandFault_eq_faulted i s code⟩⟩

/-- Settles O46: field by field from what each command that completes leaves; fault entry touches none of them. -/
theorem resultsAndFlagsFrame : Obligations.ResultsAndFlagsFrame := by
  intro i s t h
  rcases exec_next_cases h with ⟨u, hu, rfl⟩ | ⟨code, rfl⟩
  · obtain ⟨hseeded, hseeded'⟩ := hu.seeded_eq
    obtain ⟨halias, halias'⟩ := hu.aliasValid_eq
    exact ⟨hu.res0_eq, hu.res1_idx_eq, hseeded, halias, hseeded', halias'⟩
  · exact ⟨fun _ => rfl, fun _ => ⟨rfl, rfl⟩, fun _ => rfl, fun _ => ⟨rfl, rfl⟩, id, id⟩

/-- Settles O47: the ranges are those of `Completes.memory_frame`; fault entry writes no memory. -/
theorem memoryFrame : Obligations.MemoryFrame := by
  intro i s t h
  rcases exec_next_cases h with ⟨u, hu, rfl⟩ | ⟨code, rfl⟩
  · exact hu.memory_frame
  · exact ⟨fun _ => rfl, fun _ _ _ => rfl, fun _ _ _ => rfl, fun _ _ _ _ => rfl⟩

end Sys2Proof.Machine
end

section
/-! SUPPORT for the state's statements: what one step can do (R270, R271), and the invariants it keeps. -/

namespace Sys2Proof.Machine

/-! ### What one step can do -/

theorem targetAt_cell_lt {p : Params} {addr : Addr} {width : Nat} {r : Ram} {i : Nat}
    (h : targetAt p addr width = some (.cell r i)) : i < r.cells p := by
  rcases targetAt_cases h with ⟨_, h, -⟩ | ⟨r', i', h, -, hi, -⟩ | ⟨_, h, -⟩
  · cases h
  · cases h; exact hi
  · cases h

/-- State `t` follows state `s` by one event, the schedule apart: nothing happens, reset, a command that completes,
fault entry, a value given to the host (after fault entry or not), or a legal host write on an idle device. -/
inductive Moves (s : State) : State → Prop
  | stays : Moves s s
  | resets : Moves s s.deviceReset
  | completes {i : Instr} {u : State} (hfault : s.fault = false) (h : Completes s i u) : Moves s u.complete
  | faults (code : FaultCode) (addr : Addr) (write : Bool) (opc : Byte) : Moves s (s.faultEntry code addr write opc)
  | responds (v : Word) : Moves s (s.respond v)
  | faultsAndResponds (code : FaultCode) (addr : Addr) (write : Bool) (opc : Byte) (v : Word) :
      Moves s ((s.faultEntry code addr write opc).respond v)
  | writes (target : Target) (v : Word) (hfault : s.fault = false) (writable : target.writable = true)
      (exists_cell : ∀ r i, target = .cell r i → i < r.cells s.params) : Moves s (s.writeTarget target v)

theorem deviceTurn_moves {s t : State} (h : deviceTurn s = .next t) : Moves s t := by
  unfold deviceTurn at h
  split at h
  · cases h; exact .stays
  · next c hc =>
    have hfault : s.fault = false := by
      by_contra hf
      simp [State.pendingCommand, hf] at hc
    split at h
    · next i _ =>
      rcases exec_next_cases h with ⟨u, hu, rfl⟩ | ⟨code, rfl⟩
      · exact .completes hfault hu
      · exact .faults ..
    · cases h; exact .faults ..

theorem readResponse_moves {s t : State} {target : Target} (h : readResponse s target = .next t) : Moves s t := by
  obtain ⟨v, -, rfl⟩ := readResponse_next h
  exact .responds v

theorem hostRead_moves {s t : State} {addr : Addr} {width : Nat} (h : hostRead s addr width = .next t) :
    Moves s t := by
  unfold hostRead at h
  split_ifs at h
  · split at h
    · exact readResponse_moves h
    · cases h; exact .responds _
  · cases h; exact .responds _
  · cases h; exact .faultsAndResponds ..
  · split at h
    · exact readResponse_moves h
    · cases h; exact .faultsAndResponds ..

theorem hostWrite_moves (s : State) (addr : Addr) (width : Nat) (v : Word) : Moves s (hostWrite s addr width v) := by
  unfold hostWrite
  split_ifs with hfault
  · exact .stays
  · exact .faults ..
  · split
    · next target htarget =>
      obtain ⟨hat, hwritable⟩ := legalTarget_eq_some_iff.1 htarget
      exact .writes target v (by simpa using hfault) (hwritable rfl) fun r i hcell => targetAt_cell_lt (hcell ▸ hat)
    · exact .faults ..

/-- The inversion of `step`: with some schedule in place of its own, the state moves by one event. -/
theorem step_moves {s t : State} (h : step s = .next t) : ∃ l, Moves (s.withInputs l) t := by
  unfold step at h
  split at h
  · exact ⟨s.inputs, deviceTurn_moves h⟩
  · next e rest _ =>
    refine ⟨rest, ?_⟩
    cases e with
    | busRead addr width => exact hostRead_moves h
    | busWrite addr width v => cases h; exact hostWrite_moves ..
    | reset => cases h; exact .resets
    | hostLocal => cases h; exact .stays
    | deviceTurn => exact deviceTurn_moves h

/-! ### A legal host write -/

/-- A legal host write writes at most one implemented cell (R64). -/
theorem writeTarget_cellWrites {s : State} {target : Target} (v : Word)
    (exists_cell : ∀ r i, target = .cell r i → i < r.cells s.params) :
    CellWrites s.params s.mem (s.writeTarget target v).mem := by
  cases target with
  | reg r => cases r <;> exact .refl
  | idxWord w => exact .refl
  | cell r i =>
    have hi := exists_cell r i rfl
    cases r
    case seedBuf | frag | out => exact .byte _ i _ rfl hi .refl
    case weight | prob | aliasTab => exact .word _ i _ rfl hi .refl

/-- A host write leaves the parameters, the fault record and the flags as they are. -/
theorem writeTarget_keeps (s : State) (target : Target) (v : Word) :
    (s.writeTarget target v).params = s.params ∧ (s.writeTarget target v).fault = s.fault ∧
    (s.writeTarget target v).faultCode = s.faultCode ∧ (s.writeTarget target v).faultInfo = s.faultInfo ∧
    (s.writeTarget target v).aliasValid = s.aliasValid ∧ (s.writeTarget target v).aliasN = s.aliasN := by
  cases target with
  | reg r => cases r <;> exact ⟨rfl, rfl, rfl, rfl, rfl, rfl⟩
  | idxWord w => exact ⟨rfl, rfl, rfl, rfl, rfl, rfl⟩
  | cell r i => cases r <;> exact ⟨rfl, rfl, rfl, rfl, rfl, rfl⟩

theorem writeTarget_idx_lt {s : State} (target : Target) (v : Word) (hidx : s.idx < 2 ^ s.params.nMax) :
    (s.writeTarget target v).idx < 2 ^ s.params.nMax := by
  cases target with
  | reg r => cases r <;> exact hidx
  | idxWord w => exact idxWriteWord_lt ..
  | cell r i => cases r <;> exact hidx

/-! ### The invariants at reset -/

theorem inv_resetWith {p : Params} (hp : p.Legal) : (State.resetWith p).Inv :=
  ⟨hp, List.Pairwise.nil, by simp, by simp, by simp, by simp, by simp, by simp⟩

/-- Settles O57: after reset no cell is written, no bit of IDX is set, no table is valid and no fault is recorded. -/
theorem invariantsHoldAtReset : Obligations.InvariantsHoldAtReset := by
  have hreset : ∀ p : Params, p.Legal →
      (State.resetWith p).Inv ∧ (State.resetWith p).EntriesWhole ∧ (State.resetWith p).TablesUsable :=
    fun p hp => ⟨inv_resetWith hp, by simp [State.EntriesWhole], by simp [State.TablesUsable]⟩
  obtain ⟨hinv, hwhole, husable⟩ := hreset Config.params (by decide)
  unfold Obligations.InvariantsHoldAtReset State.reset
  exact ⟨hinv, hwhole, husable, hreset⟩

/-! ### The machine's invariant -/

/-- With parameters and a fault record as before, the invariant asks only for memory and IDX, and for an empty latch
after a fault. -/
theorem State.Inv.of_keeps {s t : State} (hs : s.Inv) (hparams : t.params = s.params)
    (hrecord : t.fault = s.fault ∧ t.faultCode = s.faultCode ∧ t.faultInfo = s.faultInfo)
    (hlatch : s.fault = true → t.latch = none) (hmem : CellWrites s.params s.mem t.mem)
    (hidx : t.idx < 2 ^ s.params.nMax) : t.Inv := by
  obtain ⟨hp, hwf, himpl, -, hclear, hfrozen, hinfo⟩ := hs
  obtain ⟨hfault, hcode, hword⟩ := hrecord
  unfold State.Inv
  rw [hparams, hfault, hcode, hword]
  refine ⟨hp, hmem.wf hwf, hmem.implemented himpl, hidx, hclear, fun hf => ?_, hinfo⟩
  obtain ⟨hlo, hhi, -⟩ := hfrozen hf
  exact ⟨hlo, hhi, hlatch hf⟩

/-- Fault entry records a code of R230 and empties the latch (R29, R38, R241). -/
theorem State.Inv.faultEntry {s : State} (hs : s.Inv) (code : FaultCode) (addr : Addr) (write : Bool) (opc : Byte) :
    (s.faultEntry code addr write opc).Inv := by
  obtain ⟨hp, hwf, himpl, hidx, -, -, -⟩ := hs
  obtain ⟨-, -, hlow, -, hhigh⟩ := faultInfoWord_fields addr write opc
  obtain ⟨h1, h7⟩ := code.bits_range
  exact ⟨hp, hwf, himpl, hidx, by simp, fun _ => ⟨h1, h7, rfl⟩, hlow, hhigh⟩

/-- One event keeps the invariant. -/
theorem Moves.inv {s t : State} (h : Moves s t) (hs : s.Inv) : t.Inv := by
  have ⟨hp, _, _, hidx, _⟩ := hs
  cases h with
  | stays | responds v => exact hs
  | resets => exact inv_resetWith hp
  | faults code addr write opc | faultsAndResponds code addr write opc v => exact hs.faultEntry code addr write opc
  | completes hfault hu =>
    obtain ⟨hparams, -, -, -, -, -, -, -, -, -, hrecord⟩ := hu.keeps_operands
    exact hs.of_keeps hparams hrecord (fun _ => rfl) hu.cellWrites (hu.idx_lt hidx)
  | writes target v hfault _ exists_cell =>
    obtain ⟨hparams, hf, hcode, hinfo, -, -⟩ := writeTarget_keeps s target v
    exact hs.of_keeps hparams ⟨hf, hcode, hinfo⟩ (by simp [hfault]) (writeTarget_cellWrites v exists_cell)
      (writeTarget_idx_lt target v hidx)

/-- Settles O58: case by case over what one event can do (`Moves.inv`); the invariant does not mention the schedule. -/
theorem stepKeepsInvariant : Obligations.StepKeepsInvariant := by
  intro s t hs h
  obtain ⟨l, hmoves⟩ := step_moves h
  exact hmoves.inv hs

/-! ### Entries written whole -/

/-- One event clears memory or changes it by writes of implemented cells alone. -/
theorem Moves.mem {s t : State} (h : Moves s t) : t.mem = [] ∨ CellWrites s.params s.mem t.mem := by
  cases h with
  | resets => exact .inl rfl
  | completes _ hu => exact .inr hu.cellWrites
  | writes target v _ _ exists_cell => exact .inr (writeTarget_cellWrites v exists_cell)
  | stays | responds _ | faults | faultsAndResponds => exact .inr .refl

/-- Settles O59: memory changes by whole cells, an entry's eight bytes together (`CellWrites.entriesWhole`). -/
theorem stepKeepsEntriesWhole : Obligations.StepKeepsEntriesWhole := by
  intro s t ⟨hp, _⟩ hwhole h
  obtain ⟨l, hmoves⟩ := step_moves h
  rcases hmoves.mem with hnil | hwrites
  · exact (entriesWhole_iff t).2 fun a _ _ ha => by simp [hnil, Memory.Written, Memory.readByte] at ha
  · exact (entriesWhole_iff t).2 (hwrites.entriesWhole hp ((entriesWhole_iff s).1 hwhole))

/-! ### The user's tables -/

/-- The two memories read the same in the windows of PROB and ALIAS (R61). -/
def SameTables (m m' : List Host.Cell) : Prop :=
  ∀ a, 0x03000000 ≤ a → a < 0x05000000 → Memory.readByte m' a = Memory.readByte m a

theorem SameTables.tableEntryUsable_eq {m m' : List Host.Cell} (h : SameTables m m') {n i : Nat} (hi : i < 2 ^ 21) :
    tableEntryUsable m' n i = tableEntryUsable m n i := by
  have hprob : readWordCell m' .prob i = readWordCell m .prob i := readWordCell_congr fun x hlo hhi => by
    simp only [Ram.addr, Ram.base, Ram.cellBytes] at hlo hhi
    exact h x (by omega) (by omega)
  have halias : readWordCell m' .aliasTab i = readWordCell m .aliasTab i := readWordCell_congr fun x hlo hhi => by
    simp only [Ram.addr, Ram.base, Ram.cellBytes] at hlo hhi
    exact h x (by omega) (by omega)
  unfold tableEntryUsable
  rw [hprob, halias]

/-- Usable tables stay so where the parameters, ALIAS_VALID, ALIAS_N and the tables are as before. -/
theorem State.TablesUsable.of_keeps {s t : State} (hs : s.TablesUsable) (hp : s.params.Legal)
    (hparams : t.params = s.params) (hvalid : t.aliasValid = s.aliasValid) (hsize : t.aliasN = s.aliasN)
    (hmem : SameTables s.mem t.mem) : t.TablesUsable := by
  unfold State.TablesUsable
  rw [hparams, hvalid, hsize]
  intro hv
  obtain ⟨hpos, hmax, hentries⟩ := hs hv
  obtain ⟨⟨-, hn⟩, -⟩ := hp
  exact ⟨hpos, hmax, fun i hi => by rw [hmem.tableEntryUsable_eq (by omega)]; exact hentries i hi⟩

/-- A command other than ALIAS_BUILD leaves PROB and ALIAS as they are (R160). -/
theorem Completes.sameTables {s u : State} {i : Instr} (h : Completes s i u) (hi : i ≠ .aliasBuild) :
    SameTables s.mem u.mem := by
  obtain ⟨hrest, hbytes, hmix, -⟩ := h.memory_frame
  intro a _ hhi
  by_cases h1 : i = .prngNextBytes
  · exact hbytes h1 a (.inl (by omega))
  · by_cases h2 : i ∈ [Instr.mix, .part]
    · exact hmix h2 a (.inl (by omega))
    · rw [hrest (by simp_all)]

/-- The host cannot write PROB or ALIAS (R65). -/
theorem writeTarget_sameTables {s : State} (hp : s.params.Legal) {target : Target} (v : Word)
    (writable : target.writable = true) (exists_cell : ∀ r i, target = .cell r i → i < r.cells s.params) :
    SameTables s.mem (s.writeTarget target v).mem := by
  obtain ⟨⟨-, hn⟩, -, -, -, hseed⟩ := hp
  intro a hlo hhi
  cases target with
  | reg r => cases r <;> rfl
  | idxWord w => rfl
  | cell r i =>
    have hi := exists_cell r i rfl
    cases r
    case prob | aliasTab | out => cases writable
    case seedBuf | frag =>
      refine readByte_writeByte_other _ _ _ _ ?_
      simp only [Ram.addr, Ram.base, Ram.cellBytes, Ram.cells] at *
      omega
    case weight =>
      refine readByte_writeBytes_outside _ _ _ _ (.inr ?_)
      simp only [Ram.addr, Ram.base, Ram.cellBytes, Ram.cells, entryBytes_length] at *
      omega

/-- Every entry ALIAS_BUILD writes is usable: written, its ALIAS entry an index of the table (R154). -/
theorem tableEntryUsable_withTables (s : State) (t : Tables) {n i : Nat} (hn : n ≤ 2 ^ 21) (hprob : t.prob.length = n)
    (halias : t.aliasOf.length = n) (hlt : ∀ a ∈ t.aliasOf, a < n) (hi : i < n) :
    tableEntryUsable (s.withTables t).mem n i = true := by
  have hreadAlias : readWordCell (s.withTables t).mem .aliasTab i = .ok (BitVec.ofNat 64 t.aliasOf[i]) := by
    have := readWordCell_writeWordCells_inside (writeWordCells s.mem .prob 0 t.prob) .aliasTab 0
      (t.aliasOf.map (BitVec.ofNat 64)) i rfl (by rw [List.length_map]; omega)
    simpa [State.withTables] using this
  have hreadProb : readWordCell (s.withTables t).mem .prob i = .ok t.prob[i] := by
    have := readWordCell_writeWordCells_inside s.mem .prob 0 t.prob i rfl (by omega)
    rw [Nat.zero_add] at this
    rw [← this, State.withTables]
    refine readWordCell_congr fun x _ hhi => readByte_writeWordCells_outside _ _ _ _ _ rfl (.inl ?_)
    simp only [Ram.addr, Ram.base, Ram.cellBytes] at *
    omega
  have := hlt _ (List.getElem_mem (halias ▸ hi : i < t.aliasOf.length))
  unfold tableEntryUsable
  rw [hreadProb, hreadAlias]
  simp only [BitVec.toNat_ofNat, decide_eq_true_eq]
  omega

theorem Completes.tablesUsable {s u : State} {i : Instr} (h : Completes s i u) (hp : s.params.Legal)
    (hs : s.TablesUsable) : u.TablesUsable := by
  by_cases hi : i = .aliasBuild
  · subst hi
    cases h
    case aliasBuild w hlen hpos hmax =>
      obtain ⟨hprob, halias⟩ := buildTables_lengths w
      obtain ⟨⟨-, hn⟩, -⟩ := hp
      refine fun _ => ⟨hpos, hmax, fun i hi => ?_⟩
      exact tableEntryUsable_withTables s _ (hmax.trans hn) (hprob.trans hlen) (halias.trans hlen)
        (hlen ▸ buildTables_aliasOf_lt w) hi
    case seeds _ hi | draws _ _ hi | jumps _ hi => simp at hi
  · obtain ⟨hvalid, hsize⟩ := h.aliasValid_eq.1 hi
    exact hs.of_keeps hp h.keeps_operands.1 hvalid hsize (h.sameTables hi)

/-- One event keeps the tables usable: ALIAS_BUILD writes usable tables, reset clears ALIAS_VALID, and nothing else
writes them. -/
theorem Moves.tablesUsable {s t : State} (h : Moves s t) (hp : s.params.Legal) (hs : s.TablesUsable) :
    t.TablesUsable := by
  cases h with
  | stays | responds v | faults | faultsAndResponds => exact hs
  | resets => exact fun hvalid => nomatch hvalid
  | completes _ hu => exact hu.tablesUsable hp hs
  | writes target v _ writable exists_cell =>
    obtain ⟨hparams, -, -, -, hvalid, hsize⟩ := writeTarget_keeps s target v
    exact hs.of_keeps hp hparams hvalid hsize (writeTarget_sameTables hp v writable exists_cell)

/-- Settles O60: case by case over what one event can do (`Moves.tablesUsable`). -/
theorem stepKeepsTablesUsable : Obligations.StepKeepsTablesUsable := by
  intro s t ⟨hp, _⟩ husable h
  obtain ⟨l, hmoves⟩ := step_moves h
  exact hmoves.tablesUsable hp husable

end Sys2Proof.Machine
end

section
/-! SUPPORT for O11: a computation stops the run only on a cell that was never written (R48, R238). -/

namespace Sys2Proof.Machine

/-- The computation ends in UninitRead only on a cell of which a byte of memory `m` was never written. -/
def StopsOnUnwritten {α : Type} (m : List Host.Cell) (x : Except Stop α) : Prop :=
  ∀ r i, x = .error (.uninit r i) → ∃ k < r.cellBytes, Memory.readByte m (r.addr i + k) = none

namespace StopsOnUnwritten

section
variable {α β : Type} {m : List Host.Cell}

/-! ### Sequences and checks -/

theorem ok (a : α) : StopsOnUnwritten m (.ok a) := fun _ _ h => nomatch h

theorem device (code : FaultCode) : StopsOnUnwritten (α := α) m (.error (.device code)) := fun _ _ h => nomatch h

theorem bind {x : Except Stop α} {f : α → Except Stop β} (hx : StopsOnUnwritten m x)
    (hf : ∀ a, StopsOnUnwritten m (f a)) : StopsOnUnwritten m (x >>= f) := by
  intro r i h
  rcases bind_eq_error_iff.1 h with h | ⟨a, -, h⟩
  · exact hx r i (by rw [h])
  · exact hf a r i h

theorem map {x : Except Stop α} {f : α → β} (hx : StopsOnUnwritten m x) : StopsOnUnwritten m (x.map f) := by
  intro r i h
  cases x with
  | ok a => cases h
  | error e => cases h; exact hx r i rfl

theorem ite {c : Prop} [Decidable c] {x y : Except Stop α} (hx : StopsOnUnwritten m x) (hy : StopsOnUnwritten m y) :
    StopsOnUnwritten m (if c then x else y) := by
  split_ifs
  · exact hx
  · exact hy

/-- A computation whose every error is one device fault never stops the run. -/
theorem of_error_eq_device {x : Except Stop α} {code : FaultCode} (h : ∀ e, x = .error e → e = .device code) :
    StopsOnUnwritten m x := fun _ _ hx => nomatch h _ hx

theorem require (b : Bool) (code : FaultCode) : StopsOnUnwritten m (require b code) := ite (ok ()) (device code)

theorem operandU32 (w : Word) : StopsOnUnwritten m (operandU32 w) := ite (ok _) (device _)

theorem operandRange (w : Word) (lo hi : Nat) : StopsOnUnwritten m (operandRange w lo hi) := ite (device _) (ok _)

theorem operandFragments (s : State) : StopsOnUnwritten m (operandFragments s) :=
  of_error_eq_device fun _ => operandFragments_error

/-! ### Draws -/

theorem doubleOfDraw (x : Word) : StopsOnUnwritten m (doubleOfDraw x) := ite (device _) (ok _)

theorem nextDouble (g : Prng) : StopsOnUnwritten m (nextDouble g) := bind (doubleOfDraw _) fun _ => ok _

theorem scaleDouble (d : Word) (n : Nat) : StopsOnUnwritten m (scaleDouble d n) := ite (device _) (ok _)

theorem nextInt (g : Prng) (low high : Word) : StopsOnUnwritten m (nextInt g low high) :=
  bind (require _ _) fun _ => bind (nextDouble g) fun _ => bind (scaleDouble _ _) fun _ => ok _

theorem nextByte (g : Prng) : StopsOnUnwritten m (nextByte g) := bind (nextInt _ _ _) fun _ => ok _

theorem nextBytes (g : Prng) (n : Nat) : StopsOnUnwritten m (nextBytes g n) := by
  induction n generalizing g with
  | zero => exact ok _
  | succ n ih => exact bind (nextByte g) fun _ => bind (ih _) fun _ => ok _

theorem sample {probAt aliasAt : Nat → Except Stop Word} (hprob : ∀ i, StopsOnUnwritten m (probAt i))
    (halias : ∀ i, StopsOnUnwritten m (aliasAt i)) (n : Nat) (r1 r2 : Word) :
    StopsOnUnwritten m (sample probAt aliasAt n r1 r2) :=
  bind (scaleDouble _ _) fun i => bind (hprob i) fun _ => ite (ok _) (halias i)

theorem shuffle (n : Nat) (g : Prng) (rem : List Nat) : StopsOnUnwritten m (shuffle n g rem) := by
  induction n generalizing g rem with
  | zero => exact ok _
  | succ n ih => exact bind (nextInt _ _ _) fun _ => bind (ih _ _) fun _ => ok _

theorem selectFragmentIndexes (seqNum : Word32) (seqLen : Nat) (checksum : Word32) :
    StopsOnUnwritten m (selectFragmentIndexes seqNum seqLen checksum) :=
  ite (ok _) <| bind (nextDouble _) fun _ => bind (nextDouble _) fun _ =>
    bind (sample (fun _ => ok _) (fun _ => ok _) _ _ _) fun _ => bind (shuffle _ _ _) fun _ => ok _

/-! ### Reads of RAM -/

theorem readByteCell (r : Ram) (i : Nat) : StopsOnUnwritten m (readByteCell m r i) := by
  intro r' i' h
  obtain ⟨he, hnone⟩ := readByteCell_error h
  cases he
  exact ⟨0, by cases r <;> decide, hnone⟩

theorem readWordCell (r : Ram) (i : Nat) (width : r.cellBytes = 8) : StopsOnUnwritten m (readWordCell m r i) := by
  intro r' i' h
  obtain ⟨he, hnone⟩ := readWordCell_error h
  cases he
  rw [width]
  exact (readBytes_eq_none_iff _ _ _).1 hnone

theorem readByteCells (r : Ram) (i n : Nat) : StopsOnUnwritten m (readByteCells m r i n) := by
  induction n generalizing i with
  | zero => exact ok _
  | succ n ih => exact bind (readByteCell r i) fun _ => bind (ih _) fun _ => ok _

theorem readWordCells (r : Ram) (i n : Nat) (width : r.cellBytes = 8) :
    StopsOnUnwritten m (readWordCells m r i n) := by
  induction n generalizing i with
  | zero => exact ok _
  | succ n ih => exact bind (readWordCell r i width) fun _ => bind (ih _) fun _ => ok _

theorem mixByte (idx flen j n k : Nat) (acc : Byte) : StopsOnUnwritten m (mixByte m idx flen j n k acc) := by
  induction n generalizing k acc with
  | zero => exact ok _
  | succ n ih => exact ite (bind (readByteCell _ _) fun _ => ih _ _) (ih _ _)

theorem mixFragments (idx flen fcount : Nat) : StopsOnUnwritten m (mixFragments m idx flen fcount) := by
  have hrun : ∀ n j, StopsOnUnwritten m (mixBytes m idx flen fcount n j) := by
    intro n
    induction n with
    | zero => exact fun j => ok _
    | succ n ih => exact fun j => bind (mixByte _ _ _ _ _ _) fun _ => bind (ih _) fun _ => ok _
  exact hrun flen 0

theorem sampleUser (s : State) (r1 r2 : Word) : StopsOnUnwritten s.mem (sampleUser s r1 r2) :=
  sample (fun i => readWordCell .prob i rfl) (fun i => readWordCell .aliasTab i rfl) _ _ _

theorem readTarget (s : State) (t : Target) : StopsOnUnwritten s.mem (s.readTarget t) := by
  cases t with
  | reg r => exact ok _
  | idxWord w => exact ok _
  | cell r i =>
    cases r
    case seedBuf | frag | out => exact map (readByteCell _ i)
    case weight | prob | aliasTab => exact readWordCell _ i rfl

end

end StopsOnUnwritten

/-! ### Steps that stop -/

/-- The stop names a cell of which a byte was never written. -/
abbrev NamesUnwritten (m : List Host.Cell) (f : Fault) : Prop :=
  ∃ r i k, f = .uninitRead r i ∧ k < r.cellBytes ∧ Memory.readByte m (r.addr i + k) = none

theorem finish_fault_namesUnwritten {i : Instr} {s : State} {r : Except Stop State} {f : Fault}
    (h : finish i s r = .fault f) (hr : StopsOnUnwritten s.mem r) : NamesUnwritten s.mem f := by
  obtain ⟨ram, index, he, rfl⟩ := finish_fault_iff.1 h
  obtain ⟨k, hk, hnone⟩ := hr ram index he
  exact ⟨ram, index, k, rfl, hk, hnone⟩

/-- A command that stops the run reads a cell never written: each is a sequence of checks, draws and reads. -/
theorem exec_fault_namesUnwritten {i : Instr} {s : State} {f : Fault} (h : exec i s = .fault f) :
    NamesUnwritten s.mem f := by
  cases i
  case nop => cases h
  case prngSeedWords => cases h
  case prngSeedBytes32 | prngSeedHash =>
    exact finish_fault_namesUnwritten h <| .bind (.operandRange _ _ _) fun _ =>
      .bind (.readByteCells _ _ _) fun _ => .ok _
  case prngSeedU32 => exact finish_fault_namesUnwritten h <| .bind (.operandU32 _) fun _ => .ok _
  case prngNext | prngJump | prngLongJump => exact finish_fault_namesUnwritten h <| .bind (.require _ _) fun _ => .ok _
  case prngNextDouble =>
    exact finish_fault_namesUnwritten h <| .bind (.require _ _) fun _ => .bind (.nextDouble _) fun _ => .ok _
  case prngNextInt =>
    exact finish_fault_namesUnwritten h <| .bind (.require _ _) fun _ => .bind (.nextInt _ _ _) fun _ => .ok _
  case prngNextByte =>
    exact finish_fault_namesUnwritten h <| .bind (.require _ _) fun _ => .bind (.nextByte _) fun _ => .ok _
  case prngNextBytes =>
    exact finish_fault_namesUnwritten h <| .bind (.require _ _) fun _ => .bind (.operandRange _ _ _) fun _ =>
      .bind (.nextBytes _ _) fun _ => .ok _
  case aliasBuild =>
    exact finish_fault_namesUnwritten h <| .bind (.operandRange _ _ _) fun _ =>
      .bind (.readWordCells _ _ _ rfl) fun _ => .bind (.bind (.require _ _) fun _ => .require _ _) fun _ => .ok _
  case aliasSample =>
    exact finish_fault_namesUnwritten h <| .bind (.require _ _) fun _ => .bind (.require _ _) fun _ =>
      .bind (.sampleUser s _ _) fun _ => .ok _
  case aliasSampleRng =>
    exact finish_fault_namesUnwritten h <| .bind (.require _ _) fun _ => .bind (.require _ _) fun _ =>
      .bind (.nextDouble _) fun _ => .bind (.nextDouble _) fun _ => .bind (.sampleUser s _ _) fun _ => .ok _
  case select =>
    exact finish_fault_namesUnwritten h <| .bind (.operandU32 _) fun _ => .bind (.operandU32 _) fun _ =>
      .bind (.operandRange _ _ _) fun _ => .bind (.selectFragmentIndexes _ _ _) fun _ => .ok _
  case mix =>
    exact finish_fault_namesUnwritten h <| .bind (.operandFragments s) fun _ => .bind (.require _ _) fun _ =>
      .bind (.mixFragments _ _ _) fun _ => .ok _
  case part =>
    exact finish_fault_namesUnwritten h <| .bind (.operandU32 _) fun _ => .bind (.operandU32 _) fun _ =>
      .bind (.operandFragments s) fun _ => .bind (.selectFragmentIndexes _ _ _) fun _ =>
      .bind (.mixFragments _ _ _) fun _ => .ok _

theorem exec_ne_refused (i : Instr) (s : State) (q : Refusal) : exec i s ≠ .refused q := by
  obtain ⟨r, hr⟩ := exec_eq_finish i s
  rw [hr]
  exact finish_ne_refused

/-- The outcome is no refusal, and no fault but the read of a cell never written. -/
abbrev StopsAsSpecified (m : List Host.Cell) (o : Host.Outcome State Fault Refusal) : Prop :=
  (∀ q, o ≠ .refused q) ∧ ∀ f, o = .fault f → NamesUnwritten m f

theorem next_stopsAsSpecified (m : List Host.Cell) (t : State) : StopsAsSpecified m (.next t) :=
  ⟨by simp, by simp⟩

theorem deviceTurn_stopsAsSpecified (s : State) : StopsAsSpecified s.mem (deviceTurn s) := by
  rcases deviceTurn_eq s with h | ⟨i, h⟩ | ⟨c, h⟩ <;> rw [h]
  · exact next_stopsAsSpecified _ _
  · exact ⟨exec_ne_refused i s, fun f => exec_fault_namesUnwritten⟩
  · exact next_stopsAsSpecified _ _

theorem readResponse_stopsAsSpecified (s : State) (t : Target) : StopsAsSpecified s.mem (readResponse s t) := by
  unfold readResponse
  split
  · exact next_stopsAsSpecified _ _
  · next r i he =>
    obtain ⟨k, hk, hnone⟩ := StopsOnUnwritten.readTarget s t r i he
    exact ⟨by simp, fun f hf => ⟨r, i, k, by cases hf; rfl, hk, hnone⟩⟩
  · exact next_stopsAsSpecified _ _

theorem hostRead_stopsAsSpecified (s : State) (addr : Addr) (width : Nat) :
    StopsAsSpecified s.mem (hostRead s addr width) := by
  unfold hostRead
  split_ifs
  · split
    · exact readResponse_stopsAsSpecified s _
    · exact next_stopsAsSpecified _ _
  · exact next_stopsAsSpecified _ _
  · exact next_stopsAsSpecified _ _
  · split
    · exact readResponse_stopsAsSpecified s _
    · exact next_stopsAsSpecified _ _

/-- Settles O11: only a turn of the device and a host read can stop a step, and both do so on an unwritten cell. -/
theorem stopsOnlyOnUnwrittenCell : Obligations.StopsOnlyOnUnwrittenCell := by
  intro s
  unfold step
  split
  · exact deviceTurn_stopsAsSpecified s
  · next e rest _ =>
    cases e with
    | busRead addr width => exact hostRead_stopsAsSpecified (s.withInputs rest) addr width
    | deviceTurn => exact deviceTurn_stopsAsSpecified (s.withInputs rest)
    | busWrite | reset | hostLocal => exact next_stopsAsSpecified _ _

end Sys2Proof.Machine
end

section
/-! SUPPORT for the state's statements: reset, the CMD handshake, STATUS, and the reads of registers, cells and IDX at
their addresses (R20, R24, R61, R63). -/

namespace Sys2Proof.Machine

/-! ### Reset and handshake -/

/-- Settles O8: the step at a reset event is `State.deviceReset`, whose every field is the reset value. -/
theorem resetLeavesResetValues : Obligations.ResetLeavesResetValues := by
  intro s rest h
  have hstep : step s = .next (s.withInputs rest).deviceReset := by rw [step, h]; rfl
  have hstatus : (s.withInputs rest).deviceReset.statusWord = 0#64 := by simp [State.statusWord, State.busy, bitAt]
  exact ⟨_, hstep, rfl, hstatus, rfl, rfl, rfl, rfl, rfl, rfl, rfl, rfl, rfl, rfl, rfl, rfl, rfl, rfl, fun _ => rfl,
    rfl, rfl, rfl⟩

/-- The device's turn at a full latch and FAULT = 0 performs the command the latched word decodes to (R91, R270). -/
theorem deviceTurn_of_latch {s : State} {c : Word} {i : Instr} (hfault : s.fault = false) (hlatch : s.latch = some c)
    (hc : decode c = .ok i) : deviceTurn s = exec i s := by
  simp [deviceTurn, State.pendingCommand, hfault, hlatch, hc]

/-- A write of CMD on an idle device latches the word (R30, R91). -/
theorem hostWrite_cmd {s : State} (hfault : s.fault = false) (hlatch : s.latch = none) (c : Word) :
    hostWrite s 0x00000018#32 8 c = { s with latch := some c } := by
  have htarget : legalTarget s.params 0x00000018#32 8 true = some (.reg .cmd) := rfl
  have hbusy : s.busy = false := (State.busy_eq_false_iff s).2 hlatch
  simp [hostWrite, hfault, hbusy, htarget, State.writeTarget, State.writeReg]

/-- Settles O7: the write latches the word (`hostWrite_cmd`), the turn performs it (`deviceTurn_of_latch`). -/
theorem handshakeRunsCommand : Obligations.HandshakeRunsCommand := by
  intro s c rest hfault hlatch hinputs
  have hturn := fun i => deviceTurn_of_latch (s := { s with latch := some c, inputs := rest }) (i := i) hfault rfl
  refine ⟨_, ?_, rfl, rfl, hturn⟩
  have hwrite := hostWrite_cmd (s := s.withInputs (.deviceTurn :: rest)) hfault hlatch c
  rw [step, hinputs]
  exact congrArg Host.Outcome.next hwrite

/-! ### STATUS -/

/-- Settles O53: STATUS is an or of four single bits and the shifted code, read bit by bit. -/
theorem statusFieldsRead : Obligations.StatusFieldsRead := by
  intro s b hb
  simp only [State.statusWord, State.busy, BitVec.getLsbD_or, getLsbD_bitAt, BitVec.getLsbD_shiftLeft,
    BitVec.getLsbD_setWidth, hb, decide_true, Bool.and_true, Bool.true_and]
  by_cases h16 : b < 16
  · interval_cases b <;> simp
  · have hcode : s.faultCode.getLsbD (b - 8) = false := BitVec.getLsbD_of_ge _ _ (by omega)
    have hne : ∀ k < 4, k ≠ b ∧ b ≠ k := by omega
    simp [hcode, hne, h16]

/-! ### Legal reads -/

/-- A legal read on an idle or a faulted device is answered from its target (R63, R66). -/
theorem hostRead_of_target {s : State} {addr : Addr} {width : Nat} {target : Target}
    (hidle : s.fault = true ∨ s.latch = none) (h : targetAt s.params addr width = some target) :
    hostRead s addr width = readResponse s target := by
  have hlegal : legalTarget s.params addr width false = some target := legalTarget_eq_some_iff.2 ⟨h, by simp⟩
  unfold hostRead
  rw [hlegal]
  rcases hidle with hfault | hlatch
  · simp [hfault]
  · simp [(State.busy_eq_false_iff s).2 hlatch]

/-- A read of a target that has a value gives that value (R63). -/
theorem hostRead_of_readTarget {s : State} {addr : Addr} {width : Nat} {target : Target} {v : Word}
    (hidle : s.fault = true ∨ s.latch = none) (h : targetAt s.params addr width = some target)
    (hv : s.readTarget target = .ok v) : hostRead s addr width = .next { s with readData := v } := by
  rw [hostRead_of_target hidle h, readResponse, hv]
  rfl

/-- A read of a target that names an unwritten cell stops the run (R48). -/
theorem hostRead_of_uninit {s : State} {addr : Addr} {width : Nat} {target : Target} {r : Ram} {i : Nat}
    (hidle : s.fault = true ∨ s.latch = none) (h : targetAt s.params addr width = some target)
    (hv : s.readTarget target = .error (.uninit r i)) : hostRead s addr width = .fault (.uninitRead r i) := by
  rw [hostRead_of_target hidle h, readResponse, hv]

/-! ### Registers -/

/-- N_MAX fits the low half of PARAMS0, FRAG_BYTES that of PARAMS1 (R22, R23). -/
theorem params_words_of_legal {p : Params} (hp : p.Legal) :
    params0Word p = BitVec.ofNat 64 (p.nMax + 2 ^ 32 * p.flenMax) ∧
    params1Word p = BitVec.ofNat 64 (p.fragBytes + 2 ^ 32 * p.seedMax) := by
  obtain ⟨⟨-, hn⟩, -, ⟨-, hfrag⟩, -⟩ := hp
  constructor
  · rw [params0Word, Nat.mod_eq_of_lt (by omega)]
  · rw [params1Word, Nat.mod_eq_of_lt (by omega)]

/-- Settles O52: each offset of R20 is the target of its register, which reads as its field. -/
theorem registersReadAtTheirOffsets : Obligations.RegistersReadAtTheirOffsets := by
  intro s hp hidle
  obtain ⟨h0, h1⟩ := params_words_of_legal hp
  have hread : ∀ (addr : Addr) (r : Reg) (v : Word), targetAt s.params addr 8 = some (.reg r) → s.readReg r = v →
      hostRead s addr 8 = .next { s with readData := v } :=
    fun addr r v h hv => hostRead_of_readTarget hidle h (congrArg Except.ok hv)
  simp only [List.forall_mem_cons]
  exact ⟨hread _ .params0 _ rfl h0, hread _ .params1 _ rfl h1, hread _ .status _ rfl rfl, hread _ .cmd _ rfl rfl,
    hread _ .arg0 _ rfl rfl, hread _ .arg1 _ rfl rfl, hread _ .arg2 _ rfl rfl, hread _ .arg3 _ rfl rfl,
    hread _ .res0 _ rfl rfl, hread _ .res1 _ rfl rfl, hread _ .s0 _ rfl rfl, hread _ .s1 _ rfl rfl,
    hread _ .s2 _ rfl rfl, hread _ .s3 _ rfl rfl, hread _ .aliasN _ rfl rfl, hread _ .seedLen _ rfl rfl,
    hread _ .flen _ rfl rfl, hread _ .fcount _ rfl rfl, hread _ .faultInfo _ rfl rfl, by simp⟩

/-! ### Cells and IDX -/

/-- The address map at a cell's own address (R61). -/
theorem targetAt_cell {p : Params} (hp : p.Legal) {r : Ram} {i : Nat} (hi : i < r.cells p) :
    targetAt p (BitVec.ofNat 32 (r.addr i)) r.cellBytes = some (.cell r i) := by
  obtain ⟨⟨-, hn⟩, ⟨-, hflen⟩, ⟨-, hfrag⟩, -, hseed⟩ := hp
  have hoff : r.cellBytes * i < 2 ^ 24 := by
    cases r <;> simp only [Ram.cellBytes, Ram.cells] at * <;> omega
  have hbase : r.base % 2 ^ 24 = 0 ∧ r.base < 2 ^ 31 := by cases r <;> decide
  have haddr : (BitVec.ofNat 32 (r.addr i)).toNat = r.base + r.cellBytes * i := by
    rw [BitVec.toNat_ofNat, Ram.addr, Nat.mod_eq_of_lt (by omega)]
  have hwindow : (BitVec.ofNat 32 (r.addr i)).toNat / 2 ^ 24 = r.base / 2 ^ 24 := by omega
  have hrest : (BitVec.ofNat 32 (r.addr i)).toNat % 2 ^ 24 = r.cellBytes * i := by omega
  have hcell : cellAt p r (r.cellBytes * i) r.cellBytes = some (.cell r i) := by
    have hdiv : r.cellBytes * i / r.cellBytes = i := Nat.mul_div_cancel_left i (by cases r <;> decide)
    exact cellAt_eq_some_iff.2 ⟨rfl, Nat.mul_mod_right _ _, by rwa [hdiv], by rw [hdiv]⟩
  unfold targetAt
  simp only [hwindow, hrest]
  cases r <;> exact hcell

/-- The address map at a word of IDX (R61). -/
theorem targetAt_idxWord {p : Params} (hp : p.Legal) {w : Nat} (hw : w < (p.nMax + 63) / 64) :
    targetAt p (BitVec.ofNat 32 (0x05000000 + 8 * w)) 8 = some (.idxWord w) := by
  obtain ⟨⟨-, hn⟩, -⟩ := hp
  have haddr : (BitVec.ofNat 32 (0x05000000 + 8 * w)).toNat = 0x05000000 + 8 * w := by
    rw [BitVec.toNat_ofNat, Nat.mod_eq_of_lt (by omega)]
  have hwindow : (0x05000000 + 8 * w) / 2 ^ 24 = 5 := by omega
  have hrest : (0x05000000 + 8 * w) % 2 ^ 24 = 8 * w := by omega
  unfold targetAt
  simp only [haddr, hwindow, hrest]
  simp [hw]

/-- A cell of a byte RAM reads zero-extended, or is UninitRead (R48, R63). -/
theorem readTarget_byteCell (s : State) {r : Ram} (width : r.cellBytes = 1) (i : Nat) :
    s.readTarget (.cell r i) = (readByteCell s.mem r i).map (fun b => b.setWidth 64) := by
  cases r
  case seedBuf | frag | out => rfl
  case weight | prob | aliasTab => cases width

/-- An entry of a word RAM reads whole, or is UninitRead (R48, R63). -/
theorem readTarget_wordCell (s : State) {r : Ram} (width : r.cellBytes = 8) (i : Nat) :
    s.readTarget (.cell r i) = readWordCell s.mem r i := by
  cases r
  case seedBuf | frag | out => cases width
  case weight | prob | aliasTab => rfl

theorem readByteCell_of_none {m : List Host.Cell} {r : Ram} {i : Nat} (h : Memory.readByte m (r.addr i) = none) :
    readByteCell m r i = .error (.uninit r i) := by
  rw [readByteCell, h]

theorem readWordCell_of_none {m : List Host.Cell} {r : Ram} {i k : Nat} (hk : k < 8)
    (h : Memory.readByte m (r.addr i + k) = none) : readWordCell m r i = .error (.uninit r i) := by
  rw [readWordCell, (readBytes_eq_none_iff m (r.addr i) 8).2 ⟨k, hk, h⟩]

/-- Settles O54: a cell's address and an IDX word's are their targets in the address map, and a target reads as its cell
or word. -/
theorem cellsReadAtTheirAddresses : Obligations.CellsReadAtTheirAddresses := by
  refine ⟨fun s r i hp hidle hi => ⟨fun hr => ?_, fun hr => ?_⟩, fun s w hp hidle hw => ?_⟩
  · have width : r.cellBytes = 1 := by cases r <;> simp_all [Ram.cellBytes]
    have haddr : r.addr i = r.base + i := by rw [Ram.addr, width, Nat.one_mul]
    have htarget := targetAt_cell hp hi
    rw [width] at htarget
    rw [← haddr]
    refine ⟨fun b hb => hostRead_of_readTarget hidle htarget ?_, fun hnone => hostRead_of_uninit hidle htarget ?_⟩
    · rw [readTarget_byteCell s width, (readByteCell_eq_ok_iff ..).2 hb]
      rfl
    · rw [readTarget_byteCell s width, readByteCell_of_none hnone]
      rfl
  · have width : r.cellBytes = 8 := by cases r <;> simp_all [Ram.cellBytes]
    have haddr : r.addr i = r.base + 8 * i := by rw [Ram.addr, width]
    have htarget := targetAt_cell hp hi
    rw [width] at htarget
    rw [← haddr]
    refine ⟨fun v hv => hostRead_of_readTarget hidle htarget ?_, fun k hk hnone => hostRead_of_uninit hidle htarget ?_⟩
    · rw [readTarget_wordCell s width, hv]
    · rw [readTarget_wordCell s width, readWordCell_of_none hk hnone]
  · exact ⟨_, hostRead_of_readTarget hidle (targetAt_idxWord hp hw) rfl, fun b hb => getLsbD_idxReadWord _ _ _ _ hb⟩

end Sys2Proof.Machine
end

section
/-! SUPPORT for the statements on the host's accesses: the legal accesses are those the address map gives a target
(R61, R62, R65), what a frozen device does (R66, R242), and what a legal write leaves (R64, R71). -/

namespace Sys2Proof.Machine

/-! ### Registers at their offsets -/

/-- The offset of a register in the REG window: R20 lists them eight bytes apart, in the order of `Reg`. -/
def Reg.offset (r : Reg) : Nat := 8 * r.ctorIdx

theorem regAt_offset (r : Reg) : regAt r.offset = some r := by cases r <;> rfl

theorem regAt_eq_some_iff {a : Nat} {r : Reg} : regAt a = some r ↔ a = r.offset := by
  refine ⟨fun h => ?_, fun h => h ▸ regAt_offset r⟩
  unfold regAt at h
  split at h <;> cases h <;> rfl

/-- The registers fill the window up to 0x98 (R20, R39), the writable ones those of R65. -/
theorem Reg.offset_bounds (r : Reg) : r.offset % 8 = 0 ∧ r.offset < 0x98 ∧
    ((Target.reg r).writable = true ↔ r.offset ∈ [0x18, 0x20, 0x28, 0x30, 0x38, 0x78, 0x80, 0x88]) := by
  cases r <;> decide

theorem Reg.exists_offset_eq {a : Nat} (halign : a % 8 = 0) (hlt : a < 0x98) : ∃ r : Reg, a = r.offset := by
  have hreg : ∀ k < 19, (regAt (8 * k)).isSome = true := by decide
  obtain ⟨r, hr⟩ := Option.isSome_iff_exists.1 (hreg (a / 8) (by omega))
  exact ⟨r, by rw [← regAt_eq_some_iff.1 hr]; omega⟩

/-- The address map at a register's own address (R20, R61). -/
theorem targetAt_reg (p : Params) (r : Reg) : targetAt p (BitVec.ofNat 32 r.offset) 8 = some (.reg r) := by
  cases r <;> rfl

/-- An address written as the number it is. -/
theorem addr_eq_ofNat {addr : Addr} {n : Nat} (h : addr.toNat = n) : addr = BitVec.ofNat 32 n := by
  rw [← h, BitVec.ofNat_toNat, BitVec.setWidth_eq]

theorem targetAt_eq_reg {p : Params} {addr : Addr} {width : Nat} {r : Reg}
    (h : targetAt p addr width = some (.reg r)) : addr = BitVec.ofNat 32 r.offset := by
  rcases targetAt_cases h with ⟨_, hr, -, hoffset⟩ | ⟨_, _, hr, -⟩ | ⟨_, hr, -⟩ <;> cases hr
  exact addr_eq_ofNat (regAt_eq_some_iff.1 hoffset)

/-! ### Legal accesses -/

/-- The address map at an address of a RAM's window (R61, R62). -/
theorem exists_cell_target {p : Params} (hp : p.Legal) (r : Ram) {addr : Addr} (halign : addr.toNat % r.cellBytes = 0)
    (hlo : r.base ≤ addr.toNat) (hhi : addr.toNat < r.base + r.cellBytes * r.cells p) :
    ∃ i, targetAt p addr r.cellBytes = some (.cell r i) := by
  have hbase : r.base % r.cellBytes = 0 := by cases r <;> rfl
  obtain ⟨i, hi⟩ : r.cellBytes ∣ addr.toNat - r.base :=
    Nat.dvd_sub (Nat.dvd_of_mod_eq_zero halign) (Nat.dvd_of_mod_eq_zero hbase)
  have hlt : i < r.cells p := Nat.lt_of_mul_lt_mul_left (a := r.cellBytes) (by omega)
  have haddr : addr.toNat = r.addr i := by rw [Ram.addr, ← hi, Nat.add_sub_cancel' hlo]
  exact ⟨i, addr_eq_ofNat haddr ▸ targetAt_cell hp hlt⟩

/-- An access legal by R62 and R65, as `accessLegal` spells them window by window, has a target. -/
theorem exists_target_of_accessLegal {p : Params} (hp : p.Legal) {addr : Addr} {width : Nat} {write : Bool}
    (h : accessLegal p addr.toNat width write) :
    ∃ t, targetAt p addr width = some t ∧ (write = true → t.writable = true) := by
  rcases h with ⟨rfl, halign, hlt, hwrite⟩ | ⟨rfl, hlo, hhi⟩ | ⟨rfl, halign, hlo, hhi⟩ | ⟨rfl, halign, hlo, hhi, rfl⟩ |
    ⟨rfl, halign, hlo, hhi, rfl⟩ | ⟨rfl, halign, hlo, hhi⟩ | ⟨rfl, hlo, hhi⟩ | ⟨rfl, hlo, hhi, rfl⟩
  · obtain ⟨r, hr⟩ := Reg.exists_offset_eq halign hlt
    obtain ⟨-, -, hwritable⟩ := r.offset_bounds
    exact ⟨.reg r, addr_eq_ofNat hr ▸ targetAt_reg p r, fun h => hwritable.2 (hr ▸ hwrite h)⟩
  · obtain ⟨i, hi⟩ := exists_cell_target hp .seedBuf (Nat.mod_one _) hlo (by rwa [Ram.cellBytes, Nat.one_mul])
    exact ⟨_, hi, fun _ => rfl⟩
  · obtain ⟨i, hi⟩ := exists_cell_target hp .weight halign hlo hhi
    exact ⟨_, hi, fun _ => rfl⟩
  · obtain ⟨i, hi⟩ := exists_cell_target hp .prob halign hlo hhi
    exact ⟨_, hi, fun h => nomatch h⟩
  · obtain ⟨i, hi⟩ := exists_cell_target hp .aliasTab halign hlo hhi
    exact ⟨_, hi, fun h => nomatch h⟩
  · obtain ⟨k, hk⟩ : ∃ k, addr.toNat = 0x05000000 + 8 * k := ⟨(addr.toNat - 0x05000000) / 8, by omega⟩
    exact ⟨.idxWord k, addr_eq_ofNat hk ▸ targetAt_idxWord hp (by omega), fun _ => rfl⟩
  · obtain ⟨i, hi⟩ := exists_cell_target hp .frag (Nat.mod_one _) hlo (by rwa [Ram.cellBytes, Nat.one_mul])
    exact ⟨_, hi, fun _ => rfl⟩
  · obtain ⟨i, hi⟩ := exists_cell_target hp .out (Nat.mod_one _) hlo (by rwa [Ram.cellBytes, Nat.one_mul])
    exact ⟨_, hi, fun h => nomatch h⟩

/-- An access with a target, writable if it writes, is legal by R62 and R65. -/
theorem accessLegal_of_target {p : Params} {addr : Addr} {width : Nat} {write : Bool} {t : Target}
    (htarget : targetAt p addr width = some t) (hwrite : write = true → t.writable = true) :
    accessLegal p addr.toNat width write := by
  rcases targetAt_cases htarget with ⟨r, rfl, rfl, hr⟩ | ⟨r, i, rfl, rfl, hi, haddr⟩ | ⟨k, rfl, rfl, hk, haddr⟩
  · obtain ⟨halign, hlt, hwritable⟩ := r.offset_bounds
    rw [regAt_eq_some_iff.1 hr]
    exact .inl ⟨rfl, halign, hlt, fun h => hwritable.1 (hwrite h)⟩
  · have hread : (Target.cell r i).writable = false → write = false := fun h => by simpa [h] using hwrite
    cases r <;> simp only [Ram.addr, Ram.base, Ram.cellBytes, Ram.cells] at hi haddr ⊢
    case seedBuf => exact .inr (.inl (by omega))
    case weight => exact .inr (.inr (.inl (by omega)))
    case prob => exact .inr (.inr (.inr (.inl ⟨rfl, by omega, by omega, by omega, hread rfl⟩)))
    case aliasTab => exact .inr (.inr (.inr (.inr (.inl ⟨rfl, by omega, by omega, by omega, hread rfl⟩))))
    case frag => exact .inr (.inr (.inr (.inr (.inr (.inr (.inl (by omega)))))))
    case out => exact .inr (.inr (.inr (.inr (.inr (.inr (.inr ⟨rfl, by omega, by omega, hread rfl⟩))))))
  · exact .inr (.inr (.inr (.inr (.inr (.inl (by omega))))))

/-- The legal accesses are those with a target (R62, R65). -/
theorem accessLegal_iff {p : Params} (hp : p.Legal) {addr : Addr} {width : Nat} {write : Bool} :
    accessLegal p addr.toNat width write ↔ ∃ t, targetAt p addr width = some t ∧ (write = true → t.writable = true) :=
  ⟨exists_target_of_accessLegal hp, fun ⟨_, htarget, hwrite⟩ => accessLegal_of_target htarget hwrite⟩

/-! ### Reads change nothing but the value read -/

theorem hostRead_target_next {s t : State} {addr : Addr} {width : Nat} {target : Target}
    (hidle : s.fault = true ∨ s.latch = none) (htarget : targetAt s.params addr width = some target)
    (h : hostRead s addr width = .next t) : t = { s with readData := t.readData } := by
  rw [hostRead_of_target hidle htarget] at h
  obtain ⟨v, -, rfl⟩ := readResponse_next h
  rfl

/-- Settles O56: a legal read has a target (`accessLegal_iff`), and a read of a target only gives its value. -/
theorem readsHaveNoSideEffect : Obligations.ReadsHaveNoSideEffect := by
  intro s t addr w hp hidle hlegal h
  obtain ⟨target, htarget, -⟩ := (accessLegal_iff hp).1 hlegal
  exact hostRead_target_next hidle htarget h

/-! ### The frozen device -/

theorem deviceTurn_of_fault {s : State} (hfault : s.fault = true) : deviceTurn s = .next s := by
  simp [deviceTurn, State.pendingCommand, hfault]

theorem hostWrite_of_fault {s : State} (hfault : s.fault = true) (addr : Addr) (width : Nat) (v : Word) :
    hostWrite s addr width v = s := by
  simp [hostWrite, hfault]

theorem hostRead_of_fault_of_no_target {s : State} {addr : Addr} {width : Nat} (hfault : s.fault = true)
    (h : targetAt s.params addr width = none) : hostRead s addr width = .next { s with readData := 0#64 } := by
  simp [hostRead, legalTarget, hfault, h, State.respond]

theorem hostRead_of_fault_next {s t : State} {addr : Addr} {width : Nat} (hfault : s.fault = true)
    (h : hostRead s addr width = .next t) : t = { s with readData := t.readData } := by
  cases htarget : targetAt s.params addr width with
  | some target => exact hostRead_target_next (.inl hfault) htarget h
  | none =>
    rw [hostRead_of_fault_of_no_target hfault htarget] at h
    cases h
    rfl

/-- Settles O51: event by event, a frozen device stays as it is but for the value of a read; an illegal read has no
target (`accessLegal_iff`). -/
theorem frozenUntilReset : Obligations.FrozenUntilReset := by
  refine ⟨fun s t e rest hfault hinputs hreset h => ?_, fun s addr w v hfault => hostWrite_of_fault hfault addr w v,
    fun s addr w hp hfault hillegal => hostRead_of_fault_of_no_target hfault ?_⟩
  · rw [step, hinputs] at h
    have hfault' : (s.withInputs rest).fault = true := hfault
    cases e with
    | busRead addr width => exact hostRead_of_fault_next hfault' h
    | busWrite addr width v =>
      cases h
      rw [hostWrite_of_fault hfault']
      rfl
    | reset => exact absurd rfl hreset
    | hostLocal => cases h; rfl
    | deviceTurn =>
      cases (deviceTurn_of_fault hfault').symm.trans h
      rfl
  · by_contra hsome
    obtain ⟨target, htarget⟩ := Option.ne_none_iff_exists'.1 hsome
    exact hillegal ((accessLegal_iff hp).2 ⟨target, htarget, by simp⟩)

/-! ### A legal write -/

/-- A legal write on an idle device is performed on its target (R64). -/
theorem hostWrite_of_target {s : State} {addr : Addr} {width : Nat} {target : Target} (hfault : s.fault = false)
    (hlatch : s.latch = none) (htarget : targetAt s.params addr width = some target)
    (hwritable : target.writable = true) (v : Word) : hostWrite s addr width v = s.writeTarget target v := by
  have hlegal : legalTarget s.params addr width true = some target :=
    legalTarget_eq_some_iff.2 ⟨htarget, fun _ => hwritable⟩
  simp [hostWrite, hfault, (State.busy_eq_false_iff s).2 hlatch, hlegal]

/-- The register window, the RAMs and IDX lie apart (R61). -/
theorem targetAt_windows {p : Params} (hp : p.Legal) {addr : Addr} {width : Nat} {target : Target}
    (h : targetAt p addr width = some target) :
    (∃ r, target = .reg r ∧ width = 8 ∧ addr.toNat = r.offset ∧ addr.toNat < 0x01000000) ∨
    (∃ r i, target = .cell r i ∧ width = r.cellBytes ∧ addr.toNat = r.addr i ∧ 0x01000000 ≤ addr.toNat ∧
      (addr.toNat < 0x05000000 ∨ 0x06000000 ≤ addr.toNat)) ∨
    (∃ k, target = .idxWord k ∧ width = 8 ∧ addr.toNat = 0x05000000 + 8 * k ∧ addr.toNat < 0x06000000) := by
  obtain ⟨⟨-, hn⟩, -, -, -, hseed⟩ := hp
  rcases targetAt_cases h with ⟨r, rfl, hw, hr⟩ | ⟨r, i, rfl, hw, hi, haddr⟩ | ⟨k, rfl, hw, hk, haddr⟩
  · have hoffset := regAt_eq_some_iff.1 hr
    have hlt := r.offset_bounds.2.1
    exact .inl ⟨r, rfl, hw, hoffset, by omega⟩
  · refine .inr (.inl ⟨r, i, rfl, hw, haddr, ?_⟩)
    cases r <;> simp only [Ram.addr, Ram.base, Ram.cellBytes, Ram.cells] at * <;> omega
  · exact .inr (.inr ⟨k, rfl, hw, haddr, by omega⟩)

theorem writeTarget_byteCell (s : State) {r : Ram} (width : r.cellBytes = 1) (i : Nat) (v : Word) :
    s.writeTarget (.cell r i) v = { s with mem := writeByteCell s.mem r i (v.setWidth 8) } := by
  cases r
  case seedBuf | frag | out => rfl
  case weight | prob | aliasTab => cases width

theorem writeTarget_wordCell (s : State) {r : Ram} (width : r.cellBytes = 8) (i : Nat) (v : Word) :
    s.writeTarget (.cell r i) v = { s with mem := writeWordCell s.mem r i v } := by
  cases r
  case seedBuf | frag | out => cases width
  case weight | prob | aliasTab => rfl

/-- A cell is one byte or one 64-bit entry (R62). -/
theorem Ram.cellBytes_eq (r : Ram) : r.cellBytes = 1 ∨ r.cellBytes = 8 := by cases r <;> decide

/-! ### The value read back -/

theorem readReg_writeReg_same (s : State) {r : Reg} (hwritable : (Target.reg r).writable = true) (hcmd : r ≠ .cmd)
    (v : Word) : (s.writeReg r v).readReg r = v := by
  cases r
  case cmd => exact absurd rfl hcmd
  case arg0 | arg1 | arg2 | arg3 | seedLen | flen | fcount => rfl
  all_goals cases hwritable

/-- The width of a cell says how much of the word written to it reads back (R63, R64). -/
theorem readTarget_writeTarget_cell (s : State) (r : Ram) (i : Nat) (v : Word) :
    ∃ x, (s.writeTarget (.cell r i) v).readTarget (.cell r i) = .ok x ∧
      ∀ b < 64, x.getLsbD b = (v.getLsbD b && decide (b < 8 * r.cellBytes)) := by
  rcases r.cellBytes_eq with width | width
  · refine ⟨(v.setWidth 8).setWidth 64, ?_, fun b hb => ?_⟩
    · rw [writeTarget_byteCell s width, readTarget_byteCell _ width, readByteCell_write_same]
      rfl
    · simp [width, hb, Bool.and_comm]
  · refine ⟨v, ?_, fun b hb => ?_⟩
    · rw [writeTarget_wordCell s width, readTarget_wordCell _ width, readWordCell_write_same]
    · simp [width, hb]

/-- Bit `b` of word `k` of IDX after a write of that word (R45, R64). -/
theorem testBit_writeTarget_idxWord (s : State) (k : Nat) (v : Word) {b : Nat} (hb : b < 64) :
    (s.writeTarget (.idxWord k) v).idx.testBit (64 * k + b) =
      (decide (64 * k + b < s.params.nMax) && v.getLsbD b) := by
  rw [State.writeTarget, testBit_idxWriteWord, if_pos (by omega), show (64 * k + b) % 64 = b by omega]

theorem readTarget_writeTarget_idxWord (s : State) (k : Nat) (v : Word) :
    ∃ x, (s.writeTarget (.idxWord k) v).readTarget (.idxWord k) = .ok x ∧
      ∀ b < 64, x.getLsbD b = (v.getLsbD b && decide (64 * k + b < s.params.nMax)) := by
  refine ⟨_, rfl, fun b hb => ?_⟩
  rw [getLsbD_idxReadWord _ _ _ _ hb, testBit_writeTarget_idxWord s k v hb, (writeTarget_keeps s (.idxWord k) v).1,
    ← Bool.and_assoc, Bool.and_self, Bool.and_comm]

/-- The value a legal write leaves at its target: the low byte in a byte RAM, the bits below N_MAX in IDX, the whole
word elsewhere (R45, R63, R64). -/
theorem exists_readTarget_writeTarget {s : State} (hp : s.params.Legal) {addr : Addr} {width : Nat} {target : Target}
    (htarget : targetAt s.params addr width = some target) (hwritable : target.writable = true)
    (hcmd : target ≠ .reg .cmd) (v : Word) :
    ∃ x, (s.writeTarget target v).readTarget target = .ok x ∧ ∀ b < 64, x.getLsbD b =
      (v.getLsbD b && decide (b < 8 * width) && decide (0x05000000 ≤ addr.toNat ∧ addr.toNat < 0x06000000 →
        64 * ((addr.toNat - 0x05000000) / 8) + b < s.params.nMax)) := by
  rcases targetAt_windows hp htarget with ⟨r, rfl, rfl, -, hlt⟩ | ⟨r, i, rfl, rfl, -, -, hout⟩ |
    ⟨k, rfl, rfl, haddr, hlt⟩
  · have hsame := readReg_writeReg_same s hwritable (fun h => hcmd (congrArg Target.reg h)) v
    refine ⟨v, congrArg Except.ok hsame, fun b hb => ?_⟩
    rw [decide_eq_true (by omega), decide_eq_true (by omega), Bool.and_true, Bool.and_true]
  · obtain ⟨x, hx, hbits⟩ := readTarget_writeTarget_cell s r i v
    refine ⟨x, hx, fun b hb => ?_⟩
    rw [hbits b hb, decide_eq_true (p := _ → _) (by omega), Bool.and_true]
  · obtain ⟨x, hx, hbits⟩ := readTarget_writeTarget_idxWord s k v
    refine ⟨x, hx, fun b hb => ?_⟩
    rw [hbits b hb, decide_eq_true (p := b < 8 * 8) (by omega), Bool.and_true]
    congr 2
    rw [eq_iff_iff]
    omega

/-! ### What a legal write leaves -/

/-- A host write to another target than CMD reaches only the registers of R65, IDX and memory. -/
theorem writeTarget_frame (s : State) {target : Target} (hcmd : target ≠ .reg .cmd) (v : Word) :
    s.writeTarget target v = { s with
      arg0 := (s.writeTarget target v).arg0, arg1 := (s.writeTarget target v).arg1
      arg2 := (s.writeTarget target v).arg2, arg3 := (s.writeTarget target v).arg3
      seedLen := (s.writeTarget target v).seedLen, flen := (s.writeTarget target v).flen
      fcount := (s.writeTarget target v).fcount, idx := (s.writeTarget target v).idx
      mem := (s.writeTarget target v).mem } := by
  cases target with
  | reg r =>
    cases r
    case cmd => exact absurd rfl hcmd
    all_goals rfl
  | idxWord k => rfl
  | cell r i => cases r <;> rfl

/-- A write of one register leaves every other one; STATUS apart, whose BUSY a write of CMD sets (R64, R91). -/
theorem readReg_writeReg_other (s : State) {r r' : Reg} (hne : r ≠ r') (hstatus : r' ≠ .status) (v : Word) :
    (s.writeReg r v).readReg r' = s.readReg r' := by
  cases r
  case cmd | arg0 | arg1 | arg2 | arg3 | seedLen | flen | fcount => cases r' <;> trivial
  all_goals rfl

theorem readReg_writeTarget_other (s : State) {target : Target} {r : Reg} (hne : target ≠ .reg r)
    (hstatus : r ≠ .status) (v : Word) : (s.writeTarget target v).readReg r = s.readReg r := by
  cases target with
  | reg r' => exact readReg_writeReg_other s (fun h => hne (congrArg Target.reg h)) hstatus v
  | idxWord k => cases r <;> rfl
  | cell ram i => cases ram <;> cases r <;> rfl

theorem writeTarget_idx_of_ne {s : State} {target : Target} (hne : ∀ k, target ≠ .idxWord k) (v : Word) :
    (s.writeTarget target v).idx = s.idx := by
  cases target with
  | reg r => cases r <;> rfl
  | idxWord k => exact absurd rfl (hne k)
  | cell r i => cases r <;> rfl

theorem writeTarget_mem_of_ne {s : State} {target : Target} (hne : ∀ r i, target ≠ .cell r i) (v : Word) :
    (s.writeTarget target v).mem = s.mem := by
  cases target with
  | reg r => cases r <;> rfl
  | idxWord k => rfl
  | cell r i => exact absurd rfl (hne r i)

theorem testBit_writeTarget_idxWord_other (s : State) {j k : Nat} (hj : j < s.params.nMax) (hne : j / 64 ≠ k)
    (v : Word) : (s.writeTarget (.idxWord k) v).idx.testBit j = s.idx.testBit j := by
  rw [State.writeTarget, testBit_idxWriteWord, if_neg hne, decide_eq_true hj, Bool.true_and]

/-- A write of a cell changes no byte outside the cell (R67). -/
theorem sameOutside_writeTarget_cell (s : State) (r : Ram) (i : Nat) (v : Word) :
    SameOutside s.mem (s.writeTarget (.cell r i) v).mem (r.addr i) r.cellBytes := by
  intro a ha
  rcases r.cellBytes_eq with width | width <;> rw [width] at ha
  · rw [writeTarget_byteCell s width]
    exact readByte_writeByte_other _ _ _ _ (by omega)
  · rw [writeTarget_wordCell s width]
    exact readByte_writeBytes_outside _ _ _ _ ha

/-- Settles O55: the write is performed on its target (`hostWrite_of_target`), whose value reads back
(`exists_readTarget_writeTarget`); the rest is the frame of a write to a register, a cell or a word of IDX. -/
theorem readAfterWrite : Obligations.ReadAfterWrite := by
  intro s addr w v hp hfault hlatch hlegal hcmd
  obtain ⟨target, htarget, hwritable⟩ := (accessLegal_iff hp).1 hlegal
  replace hwritable := hwritable rfl
  have haddr : ∀ r : Reg, addr ≠ BitVec.ofNat 32 r.offset → target ≠ .reg r :=
    fun r hne h => hne (targetAt_eq_reg (h ▸ htarget))
  have hne_cmd := haddr .cmd hcmd
  have hframe := writeTarget_frame s hne_cmd v
  have hlatch' : (s.writeTarget target v).latch = none := (congrArg State.latch hframe).trans hlatch
  have hparams : (s.writeTarget target v).params = s.params := (writeTarget_keeps s target v).1
  obtain ⟨x, hx, hbits⟩ := exists_readTarget_writeTarget hp htarget hwritable hne_cmd v
  have hother : ∀ r : Reg, r ≠ .status → addr ≠ BitVec.ofNat 32 r.offset →
      (s.writeTarget target v).readReg r = s.readReg r :=
    fun r hstatus hne => readReg_writeTarget_other s (haddr r hne) hstatus v
  refine ⟨s.writeTarget target v, x, hostWrite_of_target hfault hlatch htarget hwritable v,
    hostRead_of_readTarget (.inr hlatch') (by rwa [hparams]) hx, hbits, hframe, hother .arg0 nofun, hother .arg1 nofun,
    hother .arg2 nofun, hother .arg3 nofun, hother .seedLen nofun, hother .flen nofun, hother .fcount nofun, ?_⟩
  rcases targetAt_windows hp htarget with ⟨r, rfl, rfl, -, hlt⟩ | ⟨r, i, rfl, rfl, hcell, hlo, hout⟩ |
    ⟨k, rfl, rfl, hword, hlt⟩
  · have hidx := writeTarget_idx_of_ne (s := s) (target := .reg r) nofun v
    have hmem := writeTarget_mem_of_ne (s := s) (target := .reg r) nofun v
    exact ⟨fun _ => hidx, fun h => by omega, fun j _ _ => by rw [hidx], fun _ => hmem, fun a _ => by rw [hmem]⟩
  · have hidx := writeTarget_idx_of_ne (s := s) (target := .cell r i) nofun v
    exact ⟨fun _ => hidx, fun h h' => by omega, fun j _ _ => by rw [hidx], fun h => by omega,
      hcell ▸ sameOutside_writeTarget_cell s r i v⟩
  · refine ⟨fun h => by omega, fun _ _ b hb hn => ?_, fun j hj hne => ?_, fun _ => rfl, fun _ _ => rfl⟩
    · rw [show (addr.toNat - 0x05000000) / 8 = k by omega] at hn ⊢
      rw [testBit_writeTarget_idxWord s k v hb, decide_eq_true hn, Bool.true_and]
    · exact testBit_writeTarget_idxWord_other s hj (by omega) v

end Sys2Proof.Machine
end

section
/-! SUPPORT for the statements on the encoding (R90, R91, R94): a command word is its two fields, the opcode map holds
each command once at its OPC, and so `decode` and `encode` are inverse to each other. -/

namespace Sys2Proof

/-! ### The fields of a command word -/

@[simp] theorem opcField_encode (i : Instr) : opcField (encode i) = opcodeOf i := by
  simp [opcField, encode]

@[simp] theorem rsvField_encode (i : Instr) : rsvField (encode i) = 0#56 :=
  BitVec.eq_of_getLsbD_eq fun k _ => by simp [rsvField, encode]

/-- A word with RSV zero is its OPC, zero-extended (R90). -/
theorem eq_setWidth_opcField {c : Word} (h : rsvField c = 0#56) : c = (opcField c).setWidth 64 := by
  refine BitVec.eq_of_getLsbD_eq fun k hk => ?_
  by_cases hlow : k < 8
  · simp [opcField, hlow, hk]
  · have hbit : (rsvField c).getLsbD (k - 8) = false := by rw [h]; simp
    have hindex : k - 8 < 56 := by omega
    have hsum : 8 + (k - 8) = k := by omega
    simpa [rsvField, opcField, hlow, hindex, hsum] using hbit

/-- RSV zero and the OPC of R94 make a word the command's word (R90). -/
theorem eq_encode_of_fields {c : Word} {i : Instr} (hrsv : rsvField c = 0#56) (hopc : opcField c = opcodeOf i) :
    c = encode i := by
  rw [encode, ← hopc]
  exact eq_setWidth_opcField hrsv

/-! ### The opcode map -/

/-- Every row of the map holds the OPC of its command. -/
theorem opc_eq_of_mem_opcodeMap : ∀ r ∈ opcodeMap, r.opc = opcodeOf r.instr := by decide

/-- A command's own row is the first at its OPC: no two commands share one. -/
theorem find?_opcodeMap_opcodeOf (i : Instr) :
    opcodeMap.find? (fun row => row.opc == opcodeOf i) = some ⟨opcodeOf i, i⟩ := by
  cases i <;> rfl

/-- A row found at an OPC holds the command of that OPC. -/
theorem opcodeOf_of_find?_opcodeMap {opc : Byte} {r : OpcodeRow}
    (h : opcodeMap.find? (fun row => row.opc == opc) = some r) : opc = opcodeOf r.instr := by
  have hfound : r.opc = opc := beq_iff_eq.1 (List.find?_some (p := fun row : OpcodeRow => row.opc == opc) h)
  rw [← hfound]
  exact opc_eq_of_mem_opcodeMap r (List.mem_of_find?_eq_some h)

/-! ### Decoding -/

theorem decode_encode (i : Instr) : decode (encode i) = .ok i := by
  simp [decode, find?_opcodeMap_opcodeOf]

/-- A word that decodes has RSV zero and the OPC of its command (R91). -/
theorem fields_of_decode {c : Word} {i : Instr} (h : decode c = .ok i) :
    rsvField c = 0#56 ∧ opcField c = opcodeOf i := by
  unfold decode at h
  split at h
  · cases h
  · next hrsv =>
    split at h
    · next r hfind =>
      cases h
      exact ⟨not_not.1 hrsv, opcodeOf_of_find?_opcodeMap hfind⟩
    · cases h

/-- Settles O2: a command's word has its row in the map, and a word that decodes has the fields of its command's word,
which no other word has. -/
theorem decodeAgreesWithEncode : Obligations.DecodeAgreesWithEncode :=
  ⟨decode_encode, fun _ _ h =>
    have ⟨hrsv, hopc⟩ := fields_of_decode h
    eq_encode_of_fields hrsv hopc⟩

/-- Settles O1: each of the 18 words is the word of its command. -/
theorem opcodeMapDecodes : Obligations.OpcodeMapDecodes :=
  ⟨decode_encode .nop, decode_encode .prngSeedWords, decode_encode .prngSeedBytes32, decode_encode .prngSeedHash,
    decode_encode .prngSeedU32, decode_encode .prngNext, decode_encode .prngNextDouble, decode_encode .prngNextInt,
    decode_encode .prngNextByte, decode_encode .prngNextBytes, decode_encode .prngJump, decode_encode .prngLongJump,
    decode_encode .aliasBuild, decode_encode .aliasSample, decode_encode .aliasSampleRng, decode_encode .select,
    decode_encode .mix, decode_encode .part⟩

end Sys2Proof

namespace Sys2Proof.Machine

/-! ### The step at the device's turn -/

/-- With the schedule used up, a step is a turn of the device (R272). -/
theorem step_of_inputs_nil {s : State} (h : s.inputs = []) : step s = deviceTurn s := by
  rw [step, h]

/-- With the device's turn next, a step is that turn on the rest of the schedule (R271). -/
theorem step_of_inputs_deviceTurn {s : State} {rest : List Event} (h : s.inputs = .deviceTurn :: rest) :
    step s = deviceTurn (s.withInputs rest) := by
  rw [step, h]
  rfl

/-- Settles O4: the step is the device's turn, and the turn performs the decoded command (`deviceTurn_of_latch`). -/
theorem stepRunsDecodedCommand : Obligations.StepRunsDecodedCommand := by
  intro s c i hfault hlatch hdecode
  refine ⟨fun hinputs => ?_, fun rest hinputs => ?_⟩
  · rw [step_of_inputs_nil hinputs]
    exact deviceTurn_of_latch hfault hlatch hdecode
  · rw [step_of_inputs_deviceTurn hinputs]
    exact deviceTurn_of_latch (s := s.withInputs rest) hfault hlatch hdecode

end Sys2Proof.Machine
end

section
/-! SUPPORT for the statements on the jumps (R122, R123): a jump as an exclusive or of successors, the characteristic
polynomial of the step over GF(2), and powers of the step by squaring modulo that polynomial. A polynomial over GF(2) is
the natural number whose bit `k` is the coefficient of x^k, as in `stepPoly`. -/

namespace Sys2Proof.Machine

/-! ### The jump as an exclusive or of successors -/

/-- The highest coefficient of a polynomial in the step split off. -/
theorem stepPoly_succ' (n p : Nat) (g : Prng) :
    stepPoly (n + 1) p g = (stepPoly n p g).xor (if p.testBit n then afterDraws g n else Prng.zero) := by
  induction n generalizing p g with
  | zero => simp [stepPoly, afterDraws]
  | succ n ih => rw [stepPoly, ih, stepPoly, Nat.testBit_div_two, Prng.xor_assoc]; rfl

/-- A polynomial in the step is the exclusive or of the successors its coefficients select. -/
theorem stepPoly_eq_foldl (n p : Nat) (g : Prng) :
    stepPoly n p g = ((List.range n).filter p.testBit).foldl (fun t k => t.xor (afterDraws g k)) Prng.zero := by
  induction n with
  | zero => rfl
  | succ n ih =>
    rw [stepPoly_succ', ih, List.range_succ, List.filter_append, List.foldl_append]
    cases h : p.testBit n <;> simp [h]

/-- Words put together as one number, word 0 lowest, bit by bit. -/
theorem testBit_foldr_words (l : List Word) (k : Nat) :
    (l.foldr (fun (w : Word) q => w.toNat + 2 ^ 64 * q) 0).testBit k = (l.getD (k / 64) 0#64).getLsbD (k % 64) := by
  induction l generalizing k with
  | nil => simp
  | cons w rest ih =>
    rw [List.foldr_cons, Nat.add_comm, Nat.testBit_two_pow_mul_add _ w.isLt]
    split
    · next hk => rw [Nat.div_eq_of_lt hk, Nat.mod_eq_of_lt hk]; rfl
    · next hk =>
      obtain ⟨j, rfl⟩ : ∃ j, k = j + 64 := ⟨k - 64, by omega⟩
      rw [Nat.add_sub_cancel, ih, Nat.add_div_right _ (by decide), Nat.add_mod_right, List.getD_cons_succ]

/-- Settles O17: a jump is a polynomial in the step with the bits of its constant (`jumpBy_eq_stepPoly`), and that
is the exclusive or of the successors. -/
theorem jumpIsXorOfSuccessors : Obligations.JumpIsXorOfSuccessors := by
  intro g j0 j1 j2 j3
  rw [jumpBy_eq_stepPoly, stepPoly_eq_foldl]
  congr 2
  funext k
  simpa using testBit_foldr_words [j0, j1, j2, j3] k

/-! ### The all-zero state -/

theorem afterDraws_zero (n : Nat) : afterDraws Prng.zero n = Prng.zero := by
  induction n with
  | zero => rfl
  | succ n ih => rw [afterDraws, next_zero, ih]

@[simp] theorem stepPoly_state_zero (n p : Nat) : stepPoly n p Prng.zero = Prng.zero := by
  have h := stepPoly_state_xor n p Prng.zero Prng.zero
  rwa [Prng.xor_self, Prng.xor_self] at h

@[simp] theorem stepPoly_zero (n : Nat) (g : Prng) : stepPoly n 0 g = Prng.zero := by
  have h := stepPoly_xor n 0 0 g
  rwa [Nat.xor_self, Prng.xor_self] at h

/-- Settles O15: the step keeps the all-zero state, and so does every polynomial in it. -/
theorem zeroStateStaysZero : Obligations.ZeroStateStaysZero := by
  refine ⟨fun n => ⟨?_, afterDraws_zero n⟩, ?_, ?_⟩
  · rw [nthDraw, afterDraws_zero]
    decide
  · exact (jumpBy_eq_stepPoly _ _ _ _ _).trans (stepPoly_state_zero _ _)
  · exact (jumpBy_eq_stepPoly _ _ _ _ _).trans (stepPoly_state_zero _ _)

/-! ### Polynomials in the step on natural numbers

The kernel evaluates `Nat` operations directly, so that the check on unit vectors below is fast. -/

/-- A generator state as four numbers. -/
structure NatState where
  s0 : Nat
  s1 : Nat
  s2 : Nat
  s3 : Nat
  deriving DecidableEq

/-- The words of a state as numbers. -/
def Prng.toNats (g : Prng) : NatState := ⟨g.s0.toNat, g.s1.toNat, g.s2.toNat, g.s3.toNat⟩

/-- The step on numbers (R111). -/
def NatState.next (s : NatState) : NatState :=
  ⟨s.s0 ^^^ (s.s3 ^^^ s.s1), s.s1 ^^^ (s.s2 ^^^ s.s0), (s.s2 ^^^ s.s0) ^^^ s.s1 <<< 17 % 2 ^ 64,
    (s.s3 ^^^ s.s1) <<< 45 % 2 ^ 64 ||| (s.s3 ^^^ s.s1) >>> 19⟩

/-- The exclusive or of `c` times a state and another, `c` 0 or 1. -/
def NatState.mulXor (c : Nat) (s t : NatState) : NatState :=
  ⟨c * s.s0 ^^^ t.s0, c * s.s1 ^^^ t.s1, c * s.s2 ^^^ t.s2, c * s.s3 ^^^ t.s3⟩

/-- `stepPoly` on numbers. -/
def NatState.stepPoly : Nat → Nat → NatState → NatState
  | 0, _, _ => ⟨0, 0, 0, 0⟩
  | n + 1, p, s => .mulXor (p % 2) s (stepPoly n (p / 2) s.next)

theorem Prng.toNats_injective {a b : Prng} (h : a.toNats = b.toNats) : a = b := by
  obtain ⟨a0, a1, a2, a3⟩ := a
  obtain ⟨b0, b1, b2, b3⟩ := b
  simpa [Prng.toNats, BitVec.toNat_inj] using h

theorem toNats_next (g : Prng) : (next g).2.toNats = g.toNats.next := by
  simp [next_snd, Prng.toNats, NatState.next, rotl64, shl64, shr64]

theorem toNats_stepPoly (n p : Nat) (g : Prng) : (stepPoly n p g).toNats = g.toNats.stepPoly n p := by
  induction n generalizing p g with
  | zero => rfl
  | succ n ih =>
    rw [NatState.stepPoly, ← toNats_next, ← ih, Machine.stepPoly]
    rcases Nat.mod_two_eq_zero_or_one p with h | h <;>
      simp [h, Nat.testBit_zero, Prng.xor, Prng.toNats, NatState.mulXor]

/-! ### The characteristic polynomial of the step -/

/-- The characteristic polynomial of the step over GF(2), of degree 256; all that is used of it is that it annihilates
every state (`annihilated`). -/
def stepCharPoly : Nat := 0x10003c03c3f3ecb1904b4edcf26259f850280002bcefd1a5e9d116f2bb0f0f001

/-- The polynomial `stepCharPoly` in the step takes the state to the all-zero state. -/
def Prng.Annihilated (g : Prng) : Prop := stepPoly 257 stepCharPoly g = Prng.zero

theorem Prng.Annihilated.xor {a b : Prng} (ha : a.Annihilated) (hb : b.Annihilated) : (a.xor b).Annihilated := by
  rw [Annihilated, stepPoly_state_xor, ha, hb, Prng.xor_self]

theorem Prng.Annihilated.next {g : Prng} (h : g.Annihilated) : (next g).2.Annihilated := by
  rw [Annihilated, stepPoly_next, h, next_zero]

/-- The 64 unit vectors of the last word are annihilated, by evaluation. -/
theorem annihilated_twoPow : ∀ j < 64, Prng.Annihilated ⟨0#64, 0#64, 0#64, BitVec.twoPow 64 j⟩ := by
  have heval : ∀ j < 64, NatState.stepPoly 257 stepCharPoly ⟨0, 0, 0, 2 ^ j % 2 ^ 64⟩ = ⟨0, 0, 0, 0⟩ := by
    decide +kernel
  intro j hj
  refine Prng.toNats_injective ((toNats_stepPoly _ _ _).trans ?_)
  simpa [Prng.toNats] using heval j hj

/-- A property of words that the exclusive or keeps holds of every word once it holds of 0 and the powers of two. -/
theorem word_xor_induction {motive : Word → Prop} (zero : motive 0#64)
    (xor : ∀ a b, motive a → motive b → motive (a ^^^ b)) (bit : ∀ j < 64, motive (BitVec.twoPow 64 j)) (x : Word) :
    motive x := by
  have hlow : ∀ k ≤ 64, motive ((x.setWidth k).setWidth 64) := by
    intro k
    induction k with
    | zero => exact fun _ => by rwa [BitVec.of_length_zero (x := x.setWidth 0)]
    | succ k ih =>
      intro hk
      have hsplit : (x.setWidth (k + 1)).setWidth 64 =
          (x.setWidth k).setWidth 64 ^^^ (if x.getLsbD k then BitVec.twoPow 64 k else 0#64) := by
        refine BitVec.eq_of_getLsbD_eq fun i hi => ?_
        rcases Nat.lt_trichotomy i k with h | rfl | h
        · cases x.getLsbD k <;> simp [hi, h, h.ne, show i < k + 1 by omega]
        · cases hx : x.getLsbD i <;> simpa [hi] using hx
        · cases x.getLsbD k <;> simp [hi, show ¬ i < k by omega, show ¬ i < k + 1 by omega, h.ne']
      rw [hsplit]
      refine xor _ _ (ih (by omega)) ?_
      split
      · exact bit k (by omega)
      · exact zero
  simpa using hlow 64 le_rfl

/-- Four shifts by 17 take every bit out of a word, so that `x ^^^ shl64 x 17` takes every value. -/
theorem exists_xor_shl64 (y : Word) : ∃ x, x ^^^ shl64 x 17 = y := by
  refine ⟨y ^^^ shl64 y 17 ^^^ shl64 y 34 ^^^ shl64 y 51, ?_⟩
  have hout : shl64 y 68 = 0#64 := BitVec.shiftLeft_eq_zero (by decide)
  have hadd : ∀ k, shl64 (shl64 y k) 17 = shl64 y (k + 17) := fun k => (BitVec.shiftLeft_add y k 17).symm
  rw [shl64_xor, shl64_xor, shl64_xor, hadd, hadd, hadd, hout, BitVec.xor_zero]
  generalize shl64 y 17 = a
  generalize shl64 y 34 = b
  generalize shl64 y 51 = c
  calc y ^^^ a ^^^ b ^^^ c ^^^ (a ^^^ b ^^^ c) = y ^^^ (a ^^^ b ^^^ c) ^^^ (a ^^^ b ^^^ c) := by ac_rfl
    _ = y := by rw [BitVec.xor_assoc, BitVec.xor_self, BitVec.xor_zero]

/-- Every state is annihilated: the states with one nonzero word in last place generate all others under the step and the
exclusive or. -/
theorem annihilated (g : Prng) : g.Annihilated := by
  have hrot : rotl64 0#64 45 = 0#64 := by decide
  have hshl : shl64 0#64 17 = 0#64 := by decide
  have h3 : ∀ x, Prng.Annihilated ⟨0#64, 0#64, 0#64, x⟩ := by
    refine word_xor_induction (stepPoly_state_zero _ _) (fun a b ha hb => ?_) annihilated_twoPow
    simpa [Prng.xor] using ha.xor hb
  have h0 : ∀ x, Prng.Annihilated ⟨x, 0#64, 0#64, 0#64⟩ := fun x => by
    simpa [next_snd, hshl, Prng.xor] using (h3 x).next.xor (h3 (rotl64 x 45))
  have h12 : ∀ x, Prng.Annihilated ⟨0#64, x, x, 0#64⟩ := fun x => by
    simpa [next_snd, hshl, hrot, Prng.xor] using (h0 x).next.xor (h0 x)
  have h2 : ∀ x, Prng.Annihilated ⟨0#64, 0#64, x, 0#64⟩ := fun y => by
    obtain ⟨x, rfl⟩ := exists_xor_shl64 y
    simpa [next_snd, Prng.xor] using ((h12 x).next.xor (h0 x)).xor (h3 (rotl64 x 45))
  have h1 : ∀ x, Prng.Annihilated ⟨0#64, x, 0#64, 0#64⟩ := fun x => by
    simpa [Prng.xor] using (h12 x).xor (h2 x)
  simpa [Prng.xor] using (((h0 g.s0).xor (h1 g.s1)).xor (h2 g.s2)).xor (h3 g.s3)

/-! ### Arithmetic modulo the characteristic polynomial -/

/-- x times `p`, reduced by the characteristic polynomial. -/
def timesX (p : Nat) : Nat := 2 * p ^^^ p / 2 ^ 255 * stepCharPoly

/-- The product of the `n` lowest coefficients of `p` and `q`, reduced. -/
def mulPoly : Nat → Nat → Nat → Nat
  | 0, _, _ => 0
  | n + 1, p, q => p % 2 * q ^^^ timesX (mulPoly n (p / 2) q)

/-- The square of `p`, reduced. -/
def squarePoly (p : Nat) : Nat := mulPoly 256 p p

/-- The coefficient that doubling carries out to x^256 is 0 or 1. -/
theorem carry_cases {p : Nat} (h : p < 2 ^ 256) : p / 2 ^ 255 = 0 ∨ p / 2 ^ 255 = 1 := by omega

theorem timesX_lt {p : Nat} (h : p < 2 ^ 256) : timesX p < 2 ^ 256 := by
  have hcarry : 2 * p / 2 ^ 256 = p / 2 ^ 255 ∧ p / 2 ^ 255 * stepCharPoly / 2 ^ 256 = p / 2 ^ 255 := by
    refine ⟨by omega, ?_⟩
    rcases carry_cases h with hc | hc <;> rw [hc] <;> decide
  obtain ⟨hdouble, hpoly⟩ := hcarry
  have hshift : timesX p >>> 256 = 0 := by
    rw [timesX, Nat.shiftRight_xor_distrib, Nat.shiftRight_eq_div_pow, Nat.shiftRight_eq_div_pow, hdouble, hpoly,
      Nat.xor_self]
  rw [Nat.shiftRight_eq_div_pow] at hshift
  omega

/-- Multiplication by x is one more step. -/
theorem stepPoly_timesX {p : Nat} (h : p < 2 ^ 256) (g : Prng) :
    stepPoly 256 (timesX p) g = (next (stepPoly 256 p g)).2 := by
  have hreduce : stepPoly 257 (p / 2 ^ 255 * stepCharPoly) g = Prng.zero := by
    rcases carry_cases h with hc | hc <;> rw [hc]
    · rw [Nat.zero_mul, stepPoly_zero]
    · rw [Nat.one_mul]
      exact annihilated g
  rw [← stepPoly_succ_of_lt 256 _ g (timesX_lt h), ← stepPoly_succ_of_lt 256 p g h, ← stepPoly_double 256 p g h, timesX,
    stepPoly_xor, hreduce, Prng.xor_zero]

theorem mulPoly_lt {q : Nat} (hq : q < 2 ^ 256) (n p : Nat) : mulPoly n p q < 2 ^ 256 := by
  induction n generalizing p with
  | zero => exact Nat.two_pow_pos _
  | succ n ih =>
    refine Nat.xor_lt_two_pow ?_ (timesX_lt (ih _))
    exact (Nat.mul_le_mul_right q (Nat.le_of_lt_succ (Nat.mod_lt p (by decide)))).trans_lt (by rwa [Nat.one_mul])

/-- A product of polynomials in the step is their composition. -/
theorem stepPoly_mulPoly {q : Nat} (hq : q < 2 ^ 256) (n p : Nat) (g : Prng) :
    stepPoly 256 (mulPoly n p q) g = stepPoly n p (stepPoly 256 q g) := by
  induction n generalizing p with
  | zero => exact stepPoly_zero 256 g
  | succ n ih =>
    rw [mulPoly, stepPoly_xor, stepPoly_timesX (mulPoly_lt hq n _), ih]
    conv_rhs => rw [stepPoly, stepPoly_next]
    rcases Nat.mod_two_eq_zero_or_one p with h | h <;> simp [h, Nat.testBit_zero]

/-! ### Powers of the step -/

/-- `p` is the polynomial of `k` steps. -/
def IsStepPower (p k : Nat) : Prop := p < 2 ^ 256 ∧ ∀ g, stepPoly 256 p g = afterDraws g k

theorem isStepPower_one : IsStepPower 2 1 := by
  have hcoeff : (List.range 256).filter (Nat.testBit 2) = [1] := by decide +kernel
  refine ⟨by decide, fun g => ?_⟩
  rw [stepPoly_eq_foldl, hcoeff]
  exact Prng.zero_xor _

theorem IsStepPower.square {p k : Nat} (h : IsStepPower p k) : IsStepPower (squarePoly p) (2 * k) := by
  obtain ⟨hlt, hp⟩ := h
  refine ⟨mulPoly_lt hlt _ _, fun g => ?_⟩
  rw [squarePoly, stepPoly_mulPoly hlt, hp, hp, Nat.two_mul, afterDraws_add]

theorem IsStepPower.iterate {p k : Nat} (h : IsStepPower p k) (n : Nat) :
    IsStepPower (squarePoly^[n] p) (2 ^ n * k) := by
  induction n with
  | zero => simpa using h
  | succ n ih =>
    rw [Function.iterate_succ_apply', Nat.pow_succ', Nat.mul_assoc]
    exact ih.square

/-- JUMP (R123) as one number. -/
def jumpPoly : Nat := 0x39abdc4529b1661ca9582618e03fc9aad5a61266f0c9392c180ec6d33cfd0aba

/-- LONG_JUMP (R123) as one number. -/
def longJumpPoly : Nat := 0x39109bb02acbe63577710069854ee241c5004e441c522fb376e15d3efefdcbbf

theorem isStepPower_jumpPoly : IsStepPower jumpPoly (2 ^ 128) := by
  have heval : squarePoly^[128] 2 = jumpPoly := by decide +kernel
  simpa [heval] using isStepPower_one.iterate 128

theorem isStepPower_longJumpPoly : IsStepPower longJumpPoly (2 ^ 192) := by
  have heval : squarePoly^[64] jumpPoly = longJumpPoly := by decide +kernel
  simpa [heval] using isStepPower_jumpPoly.iterate 64

/-- Settles O18: x squared 128 times, modulo the characteristic polynomial, is JUMP, and 64 squarings more give
LONG_JUMP. -/
theorem jumpsSkipAhead : Obligations.JumpsSkipAhead := by
  intro g
  exact ⟨(jumpBy_eq_stepPoly _ _ _ _ _).trans (isStepPower_jumpPoly.2 g),
    (jumpBy_eq_stepPoly _ _ _ _ _).trans (isStepPower_longJumpPoly.2 g)⟩

end Sys2Proof.Machine
end

section
/-! SUPPORT for the statements on draws as binary64 (R119, R120, R136): naturals as binary64, a product with a factor
below 1, and the exact quotient of a draw by 2^64. -/

namespace Sys2Proof.Machine

namespace F64

/-! ### Naturals as binary64 -/

theorem magBits_ofNat (n : Nat) : magBits (ofNat n) = roundUnits (n * oneUnits) 1 :=
  magBits_withSign _ _ (roundUnits_le_inf _ _)

@[simp] theorem sign_ofNat (n : Nat) : sign (ofNat n) = false := sign_withSign _ _ (roundUnits_le_inf _ _)

theorem magBits_ofNat_mono {m n : Nat} (h : m ≤ n) : magBits (ofNat m) ≤ magBits (ofNat n) := by
  rw [magBits_ofNat, magBits_ofNat]
  exact roundUnits_mono Nat.one_pos Nat.one_pos (by simpa using Nat.mul_le_mul_right oneUnits h)

theorem magBits_ofNat_one : magBits (ofNat 1) = magBits one := by decide +kernel

theorem magBits_ofNat_two_pow_64 : magBits (ofNat (2 ^ 64)) = magBits one + 64 * 2 ^ 52 := by decide +kernel

theorem magBits_one_le_ofNat {n : Nat} (h : 1 ≤ n) : magBits one ≤ magBits (ofNat n) :=
  magBits_ofNat_one ▸ magBits_ofNat_mono h

theorem magBits_ofNat_le {n : Nat} (h : n ≤ 2 ^ 64) : magBits (ofNat n) ≤ magBits one + 64 * 2 ^ 52 :=
  magBits_ofNat_two_pow_64 ▸ magBits_ofNat_mono h

theorem finite_ofNat {n : Nat} (h : n ≤ 2 ^ 64) : FiniteF64 (ofNat n) :=
  (finiteF64_iff_magBits_lt _).2 ((magBits_ofNat_le h).trans_lt (by decide))

/-- The encoding below that of `f64(m)` stands for less than `m`: `f64(m)` is the nearest. -/
theorem unitsOf_pred_ofNat_lt {m : Nat} (h1 : 1 ≤ m) (h2 : m ≤ 2 ^ 64) :
    unitsOf (magBits (ofNat m) - 1) < m * oneUnits := by
  have hpos : magBits one ≤ magBits (ofNat m) := magBits_one_le_ofNat h1
  have hone : 0 < magBits one := by decide
  have hfin := (finiteF64_iff_magBits_lt _).1 (finite_ofNat h2)
  have hlt := unitsOf_lt_of_lt (show magBits (ofNat m) - 1 < magBits (ofNat m) by omega) hfin
  have hnear := mt (roundUnits_le_iff (m * oneUnits) 1 (magBits (ofNat m) - 1) Nat.one_pos (by omega)).2
    (by rw [← magBits_ofNat]; omega)
  rw [Nat.sub_add_cancel (by omega)] at hnear
  omega

/-! ### Factors below 1 -/

theorem unitsOf_magBits_one : unitsOf (magBits one) = oneUnits := by decide +kernel

theorem value_one : value one = oneUnits := by decide +kernel

/-- A finite magnitude stands for less than 1 exactly when its encoding is below that of 1.0. -/
theorem unitsOf_lt_oneUnits_iff {mag : Nat} (h : mag ≤ infBits) : unitsOf mag < oneUnits ↔ mag < magBits one := by
  have hone : magBits one < infBits := by decide
  have hinf : oneUnits < unitsOf infBits := by decide +kernel
  rw [← unitsOf_magBits_one] at *
  constructor
  · intro hlt
    by_contra hge
    rcases h.eq_or_lt with rfl | hfin
    · omega
    · exact absurd (unitsOf_le_of_le (Nat.le_of_not_lt hge) hfin) (by omega)
  · exact fun hlt => unitsOf_lt_of_lt hlt hone

/-- A uniform operand has a magnitude below that of 1.0; -0.0 is one. -/
theorem magBits_lt_of_uniform {d : Word} (h : Uniform d) : magBits d < magBits one := by
  obtain ⟨hge, hlt⟩ := h
  have hnan : isNaN d = false := by
    by_contra hnan
    simp [lt, hnan] at hlt
  rw [ge_iff hnan (by decide)] at hge
  rw [lt_iff hnan (by decide), value_one] at hlt
  refine (unitsOf_lt_oneUnits_iff (by simpa [isNaN] using hnan)).1 (?_ : units d < oneUnits)
  have hzero : value zero = 0 := by decide
  have hone := oneUnits_pos
  rw [hzero] at hge
  unfold value at hge hlt
  split_ifs at hge hlt <;> omega

/-- A product with a factor below 1 rounds below the other factor, when that is at least 1. -/
theorem roundUnits_mul_lt {low mag : Nat} (hlow : low < magBits one) (h1 : magBits one ≤ mag) (hfin : mag < infBits) :
    roundUnits (unitsOf low * unitsOf mag) oneUnits < mag := by
  have hone : magBits one = 1023 * 2 ^ 52 := by decide
  obtain ⟨c, hc, hpred, hunits⟩ :
      ∃ c, 0 < c ∧ unitsOf (magBits one - 1) = (2 ^ 53 - 1) * c ∧ oneUnits = 2 ^ 53 * c :=
    ⟨2 ^ 1021, by positivity, by decide +kernel, by decide +kernel⟩
  have hle : unitsOf low ≤ (2 ^ 53 - 1) * c := hpred ▸ unitsOf_le_of_le (by omega) (by decide)
  obtain ⟨sh, m, hmag, hu, hm, hsh, hu'⟩ := unitsOf_split (mag - 1)
  rw [Nat.sub_add_cancel (by omega)] at hu'
  have hm' : 2 ^ 52 ≤ m := hsh (by omega)
  have hpos : 0 < 2 ^ sh * c := by positivity
  refine Nat.lt_of_le_sub_one (by omega) ((roundUnits_le_iff _ _ _ oneUnits_pos (by omega)).2 (.inl ?_))
  rw [Nat.sub_add_cancel (by omega : 1 ≤ mag), hu, hu', hunits]
  calc 2 * (unitsOf low * ((m + 1) * 2 ^ sh)) ≤ 2 * ((2 ^ 53 - 1) * c * ((m + 1) * 2 ^ sh)) := by gcongr
    _ = 2 * (2 ^ 53 - 1) * (m + 1) * (2 ^ sh * c) := by ring
    _ < (2 * m + 1) * 2 ^ 53 * (2 ^ sh * c) := Nat.mul_lt_mul_of_pos_right (by omega) hpos
    _ = (m * 2 ^ sh + (m + 1) * 2 ^ sh) * (2 ^ 53 * c) := by ring

/-- A uniform operand scaled by `m` truncates below `m` (R136). -/
theorem trunc_mul_ofNat_lt {d : Word} (hd : Uniform d) {m : Nat} (h1 : 1 ≤ m) (h2 : m ≤ 2 ^ 64) :
    trunc (mul d (ofNat m)) < m := by
  have hlow := magBits_lt_of_uniform hd
  have hfin := (finiteF64_iff_magBits_lt _).1 (finite_ofNat h2)
  have hround := roundUnits_mul_lt hlow (magBits_one_le_ofNat h1) hfin
  have hdfin : FiniteF64 d := (finiteF64_iff_magBits_lt d).2 (hlow.trans (by decide))
  rw [mul_finite hdfin (finite_ofNat h2), trunc, units_withSign _ _ (roundUnits_le_inf _ _),
    Nat.div_lt_iff_lt_mul oneUnits_pos]
  exact (unitsOf_le_of_le (Nat.le_sub_one_of_lt hround) (by omega)).trans_lt (unitsOf_pred_ofNat_lt h1 h2)

end F64

/-- The range guard of R120 and R155 passes a uniform operand (R136). -/
theorem scaleDouble_of_uniform {d : Word} (hd : Uniform d) {m : Nat} (h1 : 1 ≤ m) (h2 : m ≤ 2 ^ 64) :
    scaleDouble d m = .ok (F64.trunc (F64.mul d (F64.ofNat m))) :=
  if_neg (F64.trunc_mul_ofNat_lt hd h1 h2).not_ge

/-- Settles O13: the product rounds below `f64(m)`, whose encoding is next above values below `m`
(`F64.trunc_mul_ofNat_lt`). -/
theorem scaledDrawStaysBelow : Obligations.ScaledDrawStaysBelow := by
  intro d m hd h1 h2
  exact ⟨Nat.le_sub_one_of_lt (F64.trunc_mul_ofNat_lt hd h1 (by omega)), scaleDouble_of_uniform hd h1 (by omega)⟩

/-! ### The double of a draw -/

/-- The magnitude encoding of a draw's double: that of `f64(x)`, its exponent 64 lower. -/
def drawMag (x : Word) : Nat := F64.magBits (F64.ofNat x.toNat) - 64 * 2 ^ 52

/-- An exponent 64 lower stands for the 2^64-th part. -/
theorem F64.unitsOf_sub_exponent {mag : Nat} (h : mag = 0 ∨ magBits one ≤ mag) :
    unitsOf (mag - 64 * 2 ^ 52) * 2 ^ 64 = unitsOf mag := by
  have hone : magBits one = 1023 * 2 ^ 52 := by decide
  rcases h with rfl | h
  · decide
  · obtain ⟨e, f, hf, rfl⟩ : ∃ e f, f < 2 ^ 52 ∧ mag = 2 ^ 52 * (e + 65) + f :=
      ⟨mag / 2 ^ 52 - 65, mag % 2 ^ 52, Nat.mod_lt _ (by decide), by omega⟩
    rw [show 2 ^ 52 * (e + 65) + f - 64 * 2 ^ 52 = 2 ^ 52 * (e + 1) + f by omega]
    have hof : ∀ k, unitsOf (2 ^ 52 * (k + 1) + f) = (2 ^ 52 + f) * 2 ^ k := by
      intro k
      unfold unitsOf
      rw [Nat.mul_add_div (by decide), Nat.div_eq_of_lt hf, Nat.mul_add_mod, Nat.mod_eq_of_lt hf]
      rfl
    rw [hof, hof (e + 64), pow_add, Nat.mul_assoc]

/-- A draw's double is exactly the draw's binary64 over 2^64 (R119). -/
theorem unitsOf_drawMag (x : Word) : F64.unitsOf (drawMag x) * 2 ^ 64 = F64.units (F64.ofNat x.toNat) := by
  refine F64.unitsOf_sub_exponent ?_
  by_cases h : x.toNat = 0
  · exact .inl (by rw [h]; decide +kernel)
  · exact .inr (F64.magBits_one_le_ofNat (by omega))

theorem drawMag_le (x : Word) : drawMag x ≤ F64.magBits F64.one :=
  Nat.sub_le_of_le_add (F64.magBits_ofNat_le x.isLt.le)

theorem drawMag_le_infBits (x : Word) : drawMag x ≤ F64.infBits := (drawMag_le x).trans (by decide)

/-- The draws from 2^64 - 1024 up are those that round to 2^64 (R119). -/
theorem drawMag_lt_iff (x : Word) : drawMag x < F64.magBits F64.one ↔ DrawOk x := by
  have hlast : F64.magBits (F64.ofNat (2 ^ 64 - 1025)) < F64.magBits F64.one + 64 * 2 ^ 52 := by decide +kernel
  have hfirst : F64.magBits (F64.ofNat (2 ^ 64 - 1024)) = F64.magBits F64.one + 64 * 2 ^ 52 := by decide +kernel
  have hone : 0 < F64.magBits F64.one := by decide
  unfold drawMag DrawOk
  by_cases h : x.toNat < 2 ^ 64 - 1024
  · have := F64.magBits_ofNat_mono (show x.toNat ≤ 2 ^ 64 - 1025 by omega)
    omega
  · have := F64.magBits_ofNat_mono (show 2 ^ 64 - 1024 ≤ x.toNat by omega)
    omega

theorem drawDouble_eq (x : Word) : drawDouble x = F64.withSign false (drawMag x) := by
  have hdivisor : F64.units (F64.ofNat (2 ^ 64)) = 2 ^ 64 * F64.oneUnits := by decide +kernel
  have hpos : 0 < 2 ^ 64 * F64.oneUnits := Nat.mul_pos (by decide) F64.oneUnits_pos
  rw [drawDouble, F64.div_finite (F64.finite_ofNat x.isLt.le) (F64.finite_ofNat le_rfl), hdivisor, if_neg hpos.ne',
    F64.sign_ofNat, F64.sign_ofNat, ← unitsOf_drawMag, Nat.mul_assoc,
    F64.roundUnits_unitsOf _ _ hpos ((drawMag_le x).trans_lt (by decide))]
  rfl

theorem units_drawDouble (x : Word) : F64.units (drawDouble x) = F64.unitsOf (drawMag x) := by
  rw [drawDouble_eq, F64.units_withSign _ _ (drawMag_le_infBits x)]

theorem sign_drawDouble (x : Word) : F64.sign (drawDouble x) = false := by
  rw [drawDouble_eq, F64.sign_withSign _ _ (drawMag_le_infBits x)]

/-- A draw maps to 1.0 exactly from 2^64 - 1024 up (R119). -/
theorem drawDouble_eq_one_iff (x : Word) : drawDouble x = F64.one ↔ ¬ DrawOk x := by
  have hle := drawMag_le x
  rw [← drawMag_lt_iff, drawDouble_eq]
  constructor
  · intro h
    rw [← h, F64.magBits_withSign _ _ (drawMag_le_infBits x)]
    exact lt_irrefl _
  · intro h
    rw [show drawMag x = F64.magBits F64.one by omega]
    decide

theorem uniform_drawDouble {x : Word} (h : DrawOk x) : Uniform (drawDouble x) := by
  have hlt := (F64.unitsOf_lt_oneUnits_iff (drawMag_le_infBits x)).2 ((drawMag_lt_iff x).2 h)
  have hvalue : F64.value (drawDouble x) = F64.unitsOf (drawMag x) := by
    simp [F64.value, sign_drawDouble, units_drawDouble]
  have hnan : F64.isNaN (drawDouble x) = false := by
    rw [drawDouble_eq]
    exact F64.isNaN_withSign _ _ (drawMag_le_infBits x)
  have hzero : F64.value F64.zero = 0 := by decide
  refine ⟨(F64.ge_iff hnan (by decide)).2 ?_, (F64.lt_iff hnan (by decide)).2 ?_⟩
  · rw [hzero, hvalue]
    omega
  · rw [F64.value_one, hvalue]
    omega

theorem nextDouble_of_drawOk {g : Prng} (h : DrawOk (next g).1) :
    nextDouble g = .ok (drawDouble (next g).1, (next g).2) := by
  have hd : doubleOfDraw (next g).1 = .ok (drawDouble (next g).1) :=
    if_neg fun hone => (drawDouble_eq_one_iff _).1 hone h
  rw [nextDouble, hd]
  rfl

theorem nextDouble_of_not_drawOk {g : Prng} (h : ¬ DrawOk (next g).1) : nextDouble g = .error (.device .range) := by
  have hd : doubleOfDraw (next g).1 = .error (.device .range) := if_pos ((drawDouble_eq_one_iff _).2 h)
  rw [nextDouble, hd]
  rfl

/-- Settles O16: a draw maps to 1.0 exactly from 2^64 - 1024 up (`drawDouble_eq_one_iff`), and its double is exact
(`unitsOf_drawMag`). -/
theorem nextDoubleInUnitInterval : Obligations.NextDoubleInUnitInterval := by
  intro g
  refine ⟨fun h => nextDouble_of_not_drawOk h.not_gt, fun h => ?_⟩
  refine ⟨_, nextDouble_of_drawOk h, rfl, uniform_drawDouble h, sign_drawDouble _, ?_⟩
  rw [units_drawDouble, unitsOf_drawMag]

end Sys2Proof.Machine
end

section
/-! SUPPORT for the statements on the generator's commands: the step in closed form (R111); the draws of an integer, a
byte and a run of bytes (R120, R121); and how a command that checks SEEDED first ends (R232). -/

namespace Sys2Proof.Machine

/-! ### The step in closed form -/

theorem rotl64_eq_rotateLeft (a : Word) {k : Nat} (h : k < 64) : rotl64 a k = a.rotateLeft k := by
  rw [BitVec.rotateLeft_def, Nat.mod_eq_of_lt h]
  rfl

/-- Settles O14: the assignments of R111 composed (`next_snd`), its rotations those of `BitVec`. -/
theorem nextIsXoshiroStep : Obligations.NextIsXoshiroStep := by
  intro g
  rw [next_snd, ← rotl64_eq_rotateLeft _ (by decide), ← rotl64_eq_rotateLeft _ (by decide)]
  exact ⟨rfl, rfl⟩

/-! ### Integers and bytes drawn -/

theorem drawScaled_lt {x : Word} (h : DrawOk x) {m : Nat} (h1 : 1 ≤ m) (h2 : m ≤ 2 ^ 64) : drawScaled x m < m :=
  F64.trunc_mul_ofNat_lt (uniform_drawDouble h) h1 h2

theorem scaleDouble_drawDouble {x : Word} (h : DrawOk x) {m : Nat} (h1 : 1 ≤ m) (h2 : m ≤ 2 ^ 64) :
    scaleDouble (drawDouble x) m = .ok (drawScaled x m) :=
  scaleDouble_of_uniform (uniform_drawDouble h) h1 h2

/-- The check of `nextInt` passes exactly the ranges that R120 allows. -/
theorem intRange_check_iff (low high : Word) :
    (!(decide (high < low) || (low == 0#64 && high == 0xFFFFFFFFFFFFFFFF#64))) = true ↔
      low.toNat ≤ high.toNat ∧ (low.toNat ≠ 0 ∨ high.toNat ≠ 2 ^ 64 - 1) := by
  simp [BitVec.lt_def, ← BitVec.toNat_inj]

theorem nextInt_of_illegal (g : Prng) {low high : Word}
    (h : high.toNat < low.toNat ∨ (low.toNat = 0 ∧ high.toNat = 2 ^ 64 - 1)) :
    nextInt g low high = .error (.device .operand) := by
  have hcheck := mt (intRange_check_iff low high).1 (by omega)
  rw [nextInt, Bool.eq_false_iff.2 hcheck, require_false, error_bind]

section
variable {g : Prng} {low high : Word} (hle : low.toNat ≤ high.toNat)
  (hne : low.toNat ≠ 0 ∨ high.toNat ≠ 2 ^ 64 - 1)
include hle hne

theorem nextInt_of_not_drawOk (h : ¬ DrawOk (next g).1) : nextInt g low high = .error (.device .range) := by
  rw [nextInt, (intRange_check_iff low high).2 ⟨hle, hne⟩, require_true, ok_bind, nextDouble_of_not_drawOk h,
    error_bind]

/-- An integer from its parts, which are variables here so that the kernel has nothing to evaluate. -/
theorem nextInt_of_parts {d : Word} {g' : Prng} {v : Nat} (hd : nextDouble g = .ok (d, g'))
    (hv : scaleDouble d (high.toNat - low.toNat + 1) = .ok v) :
    nextInt g low high = .ok (low + BitVec.ofNat 64 v, g') := by
  simp only [nextInt, (intRange_check_iff low high).2 ⟨hle, hne⟩, require_true, ok_bind, hd, hv, pure_eq_ok]

/-- An integer in a legal range is one scaled draw above `low`; the range guard of R120 never fires (R136). -/
theorem nextInt_of_drawOk (h : DrawOk (next g).1) : nextInt g low high =
    .ok (low + BitVec.ofNat 64 (drawScaled (next g).1 (high.toNat - low.toNat + 1)), (next g).2) :=
  nextInt_of_parts hle hne (nextDouble_of_drawOk h) (scaleDouble_drawDouble h (by omega) (by omega))

end

/-- The byte of a draw (R121). -/
def drawByte (x : Word) : Byte := BitVec.ofNat 8 (drawScaled x 256)

theorem toNat_drawByte {x : Word} (h : DrawOk x) : (drawByte x).toNat = drawScaled x 256 := by
  rw [drawByte, BitVec.toNat_ofNat, Nat.mod_eq_of_lt (drawScaled_lt h (by decide) (by decide))]

theorem nextByte_of_not_drawOk {g : Prng} (h : ¬ DrawOk (next g).1) : nextByte g = .error (.device .range) := by
  rw [nextByte, nextInt_of_not_drawOk (by decide) (by decide) h, error_bind]

theorem nextByte_of_drawOk {g : Prng} (h : DrawOk (next g).1) : nextByte g = .ok (drawByte (next g).1, (next g).2) := by
  rw [nextByte, nextInt_of_drawOk (by decide) (by decide) h]
  simp [drawByte]

/-- A run of bytes ends in E_RANGE once one of its draws does (R121). -/
theorem nextBytes_of_not_drawOk {g : Prng} {n k : Nat} (hk : k < n) (h : ¬ DrawOk (nthDraw g k)) :
    nextBytes g n = .error (.device .range) := by
  induction n generalizing g k with
  | zero => omega
  | succ n ih =>
    by_cases hfirst : DrawOk (next g).1
    · cases k with
      | zero => exact absurd hfirst h
      | succ k =>
        have hrest : nextBytes (next g).2 n = .error (.device .range) := ih (Nat.lt_of_succ_lt_succ hk) h
        simp only [nextBytes, nextByte_of_drawOk hfirst, ok_bind, hrest, error_bind]
    · rw [nextBytes, nextByte_of_not_drawOk hfirst, error_bind]

/-- The bytes of the first `n` draws, in order (R121). -/
def drawBytes (g : Prng) (n : Nat) : List Byte := (List.range n).map fun k => drawByte (nthDraw g k)

@[simp] theorem drawBytes_length (g : Prng) (n : Nat) : (drawBytes g n).length = n := by simp [drawBytes]

theorem drawBytes_getElem (g : Prng) (n : Nat) {k : Nat} (hk : k < (drawBytes g n).length) :
    (drawBytes g n)[k] = drawByte (nthDraw g k) := by
  simp [drawBytes]

/-- A run of bytes is one draw a byte (R121). -/
theorem nextBytes_of_drawOk {g : Prng} {n : Nat} (h : ∀ k < n, DrawOk (nthDraw g k)) :
    nextBytes g n = .ok (drawBytes g n, afterDraws g n) := by
  induction n generalizing g with
  | zero => rfl
  | succ n ih =>
    have hfirst : DrawOk (next g).1 := h 0 n.succ_pos
    have hrest := ih (g := (next g).2) fun k hk => h (k + 1) (Nat.succ_lt_succ hk)
    have hbytes : drawBytes g (n + 1) = drawByte (next g).1 :: drawBytes (next g).2 n := by
      rw [drawBytes, List.range_succ_eq_map, List.map_cons, List.map_map]
      rfl
    simp only [nextBytes, nextByte_of_drawOk hfirst, ok_bind, hrest, pure_eq_ok, hbytes]
    rfl

/-! ### Operands in and out of range -/

theorem operandRange_of_mem {w : Word} {lo hi : Nat} (hlo : lo ≤ w.toNat) (hhi : w.toNat ≤ hi) :
    operandRange w lo hi = .ok w.toNat :=
  operandRange_eq_ok_iff.2 ⟨hlo, hhi, rfl⟩

theorem operandRange_of_not_mem {w : Word} {lo hi : Nat} (h : w.toNat < lo ∨ hi < w.toNat) :
    operandRange w lo hi = .error (.device .operand) :=
  operandRange_eq_error_iff.2 ⟨h, rfl⟩

/-! ### How the commands end -/

section
variable {i : Instr} {s : State}

/-- A command whose computation ends in a device fault takes that fault. -/
theorem takesFault_of_error {r : Except Stop State} {code : FaultCode} (hexec : exec i s = finish i s r)
    (hr : r = .error (.device code)) : TakesFault i s code.bits := by
  rw [TakesFault, hexec, hr]
  rfl

/-- A command that checks SEEDED first takes E_UNSEEDED while it is 0 (R232). -/
theorem takesFault_of_unseeded {f : Unit → Except Stop State} (hexec : exec i s = finish i s (requireSeeded s >>= f))
    (h : s.seeded = false) : TakesFault i s 0x02#8 :=
  takesFault_of_error (code := .unseeded) hexec (by rw [requireSeeded, h, require_false, error_bind])

theorem requireSeeded_of_seeded (h : s.seeded = true) : requireSeeded s = .ok () := by
  rw [requireSeeded, h, require_true]

end

end Sys2Proof.Machine
end

section
/-! SUPPORT for the statements on the seeding commands (R125 to R128): SEED_BUF read in rising order, and 32 bytes
packed into a state (R124). -/

namespace Sys2Proof.Machine

/-! ### Seed bytes read and packed -/

/-- Cells read in rising order stop at the first that was never written (R239). -/
theorem readByteCells_of_first_unwritten {m : List Host.Cell} {r : Ram} {i n count : Nat} (hn : n < count)
    (hwritten : ∀ k < n, ∃ b, readByteCell m r (i + k) = .ok b) (hnone : Memory.readByte m (r.addr (i + n)) = none) :
    readByteCells m r i count = .error (.uninit r (i + n)) := by
  induction n generalizing i count with
  | zero =>
    obtain ⟨count, rfl⟩ : ∃ c, count = c + 1 := ⟨count - 1, by omega⟩
    have hcell : readByteCell m r i = .error (.uninit r i) := by
      rw [Nat.add_zero] at hnone
      rw [readByteCell, hnone]
    rw [readByteCells, hcell]
    rfl
  | succ n ih =>
    obtain ⟨count, rfl⟩ : ∃ c, count = c + 1 := ⟨count - 1, by omega⟩
    have hshift : ∀ k, i + (k + 1) = i + 1 + k := by omega
    obtain ⟨b, hb⟩ := hwritten 0 n.succ_pos
    have hrest := ih (i := i + 1) (Nat.lt_of_succ_lt_succ hn)
      (fun k hk => hshift k ▸ hwritten (k + 1) (Nat.succ_lt_succ hk)) (hshift n ▸ hnone)
    rw [readByteCells, show readByteCell m r i = .ok b from hb, ok_bind, hrest, hshift n, error_bind]

theorem operandSeedBytes_of_written {s : State} {b : List Byte}
    (h : ∀ k (hk : k < b.length), readByteCell s.mem .seedBuf k = .ok b[k]) :
    operandSeedBytes s b.length = .ok b :=
  (readByteCells_eq_ok_iff _ _ _ _ _).2 ⟨rfl, fun k hk => by rw [Nat.zero_add]; exact h k hk⟩

theorem operandSeedBytes_of_first_unwritten {s : State} {n count : Nat} (hn : n < count)
    (hwritten : ∀ k < n, ∃ b, readByteCell s.mem .seedBuf k = .ok b)
    (hnone : Memory.readByte s.mem (Ram.seedBuf.addr n) = none) :
    operandSeedBytes s count = .error (.uninit .seedBuf n) := by
  have h := readByteCells_of_first_unwritten (i := 0) hn (fun k hk => by rw [Nat.zero_add]; exact hwritten k hk)
    (by rwa [Nat.zero_add])
  rwa [Nat.zero_add] at h

/-- A byte string read most significant byte first (R11). -/
theorem beValue_map_range (f : Nat → Byte) (k : Nat) :
    beValue ((List.range k).map f) = ((List.range k).map fun n => (f n).toNat * 2 ^ (8 * (k - 1 - n))).sum := by
  induction k with
  | zero => rfl
  | succ k ih =>
    have hsnoc : beValue ((List.range (k + 1)).map f) = beValue ((List.range k).map f) * 256 + (f k).toNat := by
      simp [beValue, List.range_succ]
    have hshift : ∀ n ∈ List.range k,
        (f n).toNat * 2 ^ (8 * (k + 1 - 1 - n)) = (f n).toNat * 2 ^ (8 * (k - 1 - n)) * 256 := fun n hn => by
      rw [show 8 * (k + 1 - 1 - n) = 8 * (k - 1 - n) + 8 by have := List.mem_range.1 hn; omega, pow_add, Nat.mul_assoc]
      rfl
    rw [hsnoc, ih, List.range_succ, List.map_append, List.sum_append, List.map_congr_left hshift,
      List.sum_map_mul_right]
    simp

theorem be64dec_map_range (b : Nat → Byte) (o : Nat) :
    be64dec ((List.range 8).map fun n => b (o + n)) = bigEndian8 b o := by
  rw [be64dec, beValue_map_range, bigEndian8]

theorem pack256_map_range (b : Nat → Byte) :
    pack256 ((List.range 32).map b) = ⟨bigEndian8 b 0, bigEndian8 b 8, bigEndian8 b 16, bigEndian8 b 24⟩ := by
  have hword : ∀ o, o + 8 ≤ 32 → be64dec ((((List.range 32).map b).drop o).take 8) = bigEndian8 b o := fun o ho => by
    rw [← List.map_drop, ← List.map_take, List.range_eq_range', List.drop_range',
      List.take_range'_of_length_ge (by omega), List.range'_eq_map_range, List.map_map, Nat.zero_add, Nat.mul_one]
    exact be64dec_map_range b o
  rw [pack256, ← hword 0 (by decide), ← hword 8 (by decide), ← hword 16 (by decide), ← hword 24 (by decide),
    List.drop_zero]

/-! ### The commands -/

/-- Settles O20: the command has no check. -/
theorem seedWordsSetsState : Obligations.SeedWordsSetsState := ⟨rfl, fun _ => rfl⟩

/-- A seeding command that completes writes S and SEEDED (R27). Stated for a variable `g`, so that the kernel has
nothing to evaluate. -/
theorem finish_seedWith (i : Instr) (s : State) (g : Prng) :
    finish i s (.ok (s.seedWith g)) = .next { s with prng := g, seeded := true, latch := none } := rfl

theorem exec_prngSeedBytes32 (s : State) : exec .prngSeedBytes32 s = finish .prngSeedBytes32 s
    (operandRange s.seedLen 32 32 >>= fun _ => operandSeedBytes s 32 >>= fun b => .ok (s.seedWith (pack256 b))) := rfl

theorem exec_prngSeedHash (s : State) : exec .prngSeedHash s = finish .prngSeedHash s
    (operandRange s.seedLen 0 s.params.seedMax >>= fun n => operandSeedBytes s n >>= fun b =>
      .ok (s.seedWith (hashSeed b))) := rfl

theorem exec_prngSeedU32 (s : State) : exec .prngSeedU32 s = finish .prngSeedU32 s
    (operandU32 s.arg0 >>= fun v => .ok (s.seedWith (hashSeed (be32 v)))) := rfl

/-- Settles O21: the bytes are read in rising order after the check of SEED_LEN, and packed eight to a word
(`pack256_map_range`). -/
theorem seedBytes32PacksBytes : Obligations.SeedBytes32PacksBytes := by
  refine ⟨rfl, fun s h => ?_, fun s b h hread => ?_, fun s n h hn hwritten hnone => ?_⟩
  · exact takesFault_of_error (code := .operand) (exec_prngSeedBytes32 s)
      (by rw [operandRange_of_not_mem (by omega), error_bind])
  · have hbytes := operandSeedBytes_of_written (s := s) (b := (List.range 32).map b)
      fun k hk => by simpa using hread k (by simpa using hk)
    rw [List.length_map, List.length_range] at hbytes
    rw [exec_prngSeedBytes32, operandRange_of_mem h.ge h.le, ok_bind, hbytes, ok_bind, pack256_map_range,
      finish_seedWith]
  · rw [exec_prngSeedBytes32, operandRange_of_mem h.ge h.le, ok_bind,
      operandSeedBytes_of_first_unwritten hn hwritten hnone, error_bind, finish_uninit]

/-- Settles O22: the check values by evaluation; the bytes are read in rising order after the check of SEED_LEN. -/
theorem seedHashHashesBytes : Obligations.SeedHashHashesBytes := by
  refine ⟨by decide +kernel, by decide +kernel, rfl, fun s h => ?_, fun s b h hlen hread => ?_,
    fun s n h hn hwritten hnone => ?_⟩
  · exact takesFault_of_error (code := .operand) (exec_prngSeedHash s)
      (by rw [operandRange_of_not_mem (.inr h), error_bind])
  · rw [exec_prngSeedHash, operandRange_of_mem (Nat.zero_le _) h, ok_bind, ← hlen, operandSeedBytes_of_written hread,
      ok_bind, finish_seedWith, hashSeed]
  · rw [exec_prngSeedHash, operandRange_of_mem (Nat.zero_le _) h, ok_bind,
      operandSeedBytes_of_first_unwritten hn hwritten hnone, error_bind, finish_uninit]

/-- The four bytes of a u32 operand, from its register (R11, R93). -/
theorem be32_setWidth (w : Word) : be32 (w.setWidth 32) =
    [w.extractLsb' 24 8, w.extractLsb' 16 8, w.extractLsb' 8 8, w.extractLsb' 0 8] := by
  have hbyte : ∀ k, k + 8 ≤ 32 → (w.setWidth 32).extractLsb' k 8 = w.extractLsb' k 8 := fun k hk => by
    refine BitVec.eq_of_getLsbD_eq fun j hj => ?_
    simp [hj, show k + j < 32 by omega]
  simp [be32, hbyte]

/-- Settles O23: the operand check of R93 (`operandU32_eq_ok_iff`), and R128's state by evaluation. -/
theorem seedU32HashesInteger : Obligations.SeedU32HashesInteger := by
  refine ⟨rfl, by decide +kernel, fun s h => ?_, fun s h => ?_⟩
  · exact takesFault_of_error (code := .operand) (exec_prngSeedU32 s)
      (by rw [operandU32_eq_error_iff.2 ⟨h, rfl⟩, error_bind])
  · rw [exec_prngSeedU32, operandU32_eq_ok_iff.2 ⟨h, rfl⟩, ok_bind, be32_setWidth, finish_seedWith, hashSeed]

end Sys2Proof.Machine
end

section
/-! SUPPORT for the statements on the drawing and jumping commands (R129 to R135): each command's computation written
out once, and what it answers. -/

namespace Sys2Proof.Machine

/-! ### A command that draws and returns a value -/

section
variable {i : Instr} {s : State} {α : Type} {x : Except Stop (α × Prng)} {f : α → Word}
  (hexec : exec i s = finish i s (requireSeeded s >>= fun _ => x >>= fun p =>
    .ok { s with res0 := f p.1, prng := p.2 }))
  (hseeded : s.seeded = true)
include hexec hseeded

/-- A drawing command whose draw `x` succeeds writes RES0 and S. -/
theorem exec_of_draw_ok {v : α} {g : Prng} (hx : x = .ok (v, g)) :
    exec i s = .next { s with res0 := f v, prng := g, latch := none } := by
  rw [hexec, requireSeeded_of_seeded hseeded, ok_bind, hx, ok_bind]
  rfl

/-- A drawing command whose draw `x` fails takes that fault. -/
theorem takesFault_of_draw_error {code : FaultCode} (hx : x = .error (.device code)) : TakesFault i s code.bits :=
  takesFault_of_error hexec (by rw [requireSeeded_of_seeded hseeded, ok_bind, hx, error_bind])

end

theorem exec_prngNext (s : State) : exec .prngNext s = finish .prngNext s
    (requireSeeded s >>= fun _ => .ok ((next s.prng).1, (next s.prng).2) >>= fun p =>
      .ok { s with res0 := p.1, prng := p.2 }) := rfl

theorem exec_prngNextDouble (s : State) : exec .prngNextDouble s = finish .prngNextDouble s
    (requireSeeded s >>= fun _ => nextDouble s.prng >>= fun p => .ok { s with res0 := p.1, prng := p.2 }) := rfl

theorem exec_prngNextInt (s : State) : exec .prngNextInt s = finish .prngNextInt s
    (requireSeeded s >>= fun _ => nextInt s.prng s.arg0 s.arg1 >>= fun p =>
      .ok { s with res0 := p.1, prng := p.2 }) := rfl

theorem exec_prngNextByte (s : State) : exec .prngNextByte s = finish .prngNextByte s
    (requireSeeded s >>= fun _ => nextByte s.prng >>= fun p =>
      .ok { s with res0 := p.1.setWidth 64, prng := p.2 }) := rfl

theorem exec_prngNextBytes (s : State) : exec .prngNextBytes s = finish .prngNextBytes s
    (requireSeeded s >>= fun _ => operandRange s.arg0 0 s.params.flenMax >>= fun n => nextBytes s.prng n >>= fun p =>
      .ok { s with mem := writeByteCells s.mem .out 0 p.1, prng := p.2 }) := rfl

theorem exec_prngJump (s : State) : exec .prngJump s = finish .prngJump s
    (requireSeeded s >>= fun _ => .ok { s with prng := jumpBy s.prng jumpConst }) := rfl

theorem exec_prngLongJump (s : State) : exec .prngLongJump s = finish .prngLongJump s
    (requireSeeded s >>= fun _ => .ok { s with prng := jumpBy s.prng longJumpConst }) := rfl

/-! ### The commands -/

/-- Settles O24: one draw after the check of SEEDED. -/
theorem nextReturnsDraw : Obligations.NextReturnsDraw :=
  ⟨rfl, fun s h => takesFault_of_unseeded (exec_prngNext s) h,
    fun s h => exec_of_draw_ok (f := fun v => v) (exec_prngNext s) h rfl⟩

/-- Settles O25: the draw's double or E_RANGE (`nextDouble_of_drawOk`, `nextDouble_of_not_drawOk`). -/
theorem nextDoubleReturnsDouble : Obligations.NextDoubleReturnsDouble :=
  ⟨rfl, fun s h => takesFault_of_unseeded (exec_prngNextDouble s) h,
    fun s h hdraw => takesFault_of_draw_error (f := fun v => v) (exec_prngNextDouble s) h
      (nextDouble_of_not_drawOk hdraw),
    fun s h hdraw => exec_of_draw_ok (f := fun v => v) (exec_prngNextDouble s) h (nextDouble_of_drawOk hdraw)⟩

/-- A scaled draw above `low` lies in the range (R120). -/
theorem toNat_add_drawScaled {x low high : Word} (hle : low.toNat ≤ high.toNat)
    (hlt : drawScaled x (high.toNat - low.toNat + 1) < high.toNat - low.toNat + 1) :
    (low + BitVec.ofNat 64 (drawScaled x (high.toNat - low.toNat + 1))).toNat =
      low.toNat + drawScaled x (high.toNat - low.toNat + 1) := by
  rw [BitVec.toNat_add, BitVec.toNat_ofNat]
  have := high.isLt
  generalize drawScaled x (high.toNat - low.toNat + 1) = v at *
  omega

/-- Settles O26: the operand check, then one draw scaled to the size of the range (`nextInt_of_drawOk`), below that size
(`drawScaled_lt`). -/
theorem nextIntReturnsScaledDraw : Obligations.NextIntReturnsScaledDraw := by
  refine ⟨rfl, fun s h => takesFault_of_unseeded (exec_prngNextInt s) h,
    fun s h hrange => takesFault_of_draw_error (f := fun v => v) (exec_prngNextInt s) h (nextInt_of_illegal _ hrange),
    fun s h hle hne => ⟨fun hdraw => ?_, fun hdraw => ?_⟩⟩
  · exact takesFault_of_draw_error (f := fun v => v) (exec_prngNextInt s) h (nextInt_of_not_drawOk hle hne hdraw)
  · have hlt := drawScaled_lt hdraw (m := s.arg1.toNat - s.arg0.toNat + 1) (by omega) (by omega)
    have hvalue := toNat_add_drawScaled hle hlt
    refine ⟨_, exec_of_draw_ok (f := fun v => v) (exec_prngNextInt s) h (nextInt_of_drawOk hle hne hdraw), hvalue, ?_⟩
    rw [hvalue]
    omega

/-- Settles O27: a byte is one scaled draw (`nextByte_of_drawOk`). -/
theorem nextByteReturnsByte : Obligations.NextByteReturnsByte := by
  refine ⟨rfl, fun s h => takesFault_of_unseeded (exec_prngNextByte s) h, fun s h hdraw => ?_, fun s h hdraw => ?_⟩
  · exact takesFault_of_draw_error (f := BitVec.setWidth 64) (exec_prngNextByte s) h (nextByte_of_not_drawOk hdraw)
  · refine ⟨_, exec_of_draw_ok (f := BitVec.setWidth 64) (exec_prngNextByte s) h (nextByte_of_drawOk hdraw), ?_⟩
    rw [BitVec.toNat_setWidth_of_le (by decide), toNat_drawByte hdraw]
    exact ⟨rfl, drawScaled_lt hdraw (by decide) (by decide)⟩

/-- Bytes written to a byte RAM from its start read back (R64). -/
theorem readByteCell_writeByteCells_inside (m : List Host.Cell) {r : Ram} (width : r.cellBytes = 1) (bs : List Byte)
    {k : Nat} (hk : k < bs.length) : readByteCell (writeByteCells m r 0 bs) r k = .ok bs[k] := by
  have hread := readByte_writeBytes_inside m (r.addr 0) bs k hk
  have haddr : r.addr 0 + k = r.addr k := by simp [Ram.addr, width]
  rwa [readByteCell_eq_ok_iff, writeByteCells_eq _ _ _ _ width, ← haddr]

/-- Settles O28: every draw is made before any byte is written (`nextBytes_of_drawOk`), and the bytes go to OUT from its
start. -/
theorem nextBytesFillsOut : Obligations.NextBytesFillsOut := by
  refine ⟨rfl, fun s h => takesFault_of_unseeded (exec_prngNextBytes s) h, fun s h hcount => ?_,
    fun s k h hcount hk hdraw => ?_, fun s h hcount hdraws => ?_⟩
  · exact takesFault_of_error (code := .operand) (exec_prngNextBytes s)
      (by rw [requireSeeded_of_seeded h, ok_bind, operandRange_of_not_mem (.inr hcount), error_bind])
  · exact takesFault_of_error (code := .range) (exec_prngNextBytes s)
      (by rw [requireSeeded_of_seeded h, ok_bind, operandRange_of_mem (Nat.zero_le _) hcount, ok_bind,
        nextBytes_of_not_drawOk hk hdraw, error_bind])
  · have hexec : exec .prngNextBytes s = .next { s with
        mem := writeByteCells s.mem .out 0 (drawBytes s.prng s.arg0.toNat)
        prng := afterDraws s.prng s.arg0.toNat, latch := none } := by
      rw [exec_prngNextBytes, requireSeeded_of_seeded h, ok_bind, operandRange_of_mem (Nat.zero_le _) hcount, ok_bind,
        nextBytes_of_drawOk hdraws, ok_bind]
      rfl
    refine ⟨_, hexec, fun j hj => ⟨drawByte (nthDraw s.prng j), ?_, toNat_drawByte (hdraws j hj)⟩, ?_⟩
    · rw [readByteCell_writeByteCells_inside _ rfl _ (by rwa [drawBytes_length]), drawBytes_getElem]
    · have hframe := sameOutside_writeOut s.mem (drawBytes s.prng s.arg0.toNat)
      rwa [drawBytes_length] at hframe

/-- A jump that completes writes S alone. -/
theorem finish_withPrng (i : Instr) (s : State) (g : Prng) :
    finish i s (.ok { s with prng := g }) = .next { s with prng := g, latch := none } := rfl

/-- Settles O29: the jump of R123's constant after the check of SEEDED. -/
theorem jumpsAdvanceState : Obligations.JumpsAdvanceState := by
  refine ⟨rfl, rfl, fun s h => ⟨takesFault_of_unseeded (exec_prngJump s) h,
    takesFault_of_unseeded (exec_prngLongJump s) h⟩, fun s h => ⟨?_, ?_⟩⟩
  · rw [exec_prngJump, requireSeeded_of_seeded h, ok_bind, finish_withPrng, jumpConst]
  · rw [exec_prngLongJump, requireSeeded_of_seeded h, ok_bind, finish_withPrng, longJumpConst]

end Sys2Proof.Machine
end

section
/-! SUPPORT for the statement that the generator never reseeds itself (R33, R137): who can write S. -/

namespace Sys2Proof.Machine

/-- Only the seeding, drawing and jumping commands write S (R33, R137). -/
theorem Completes.prng_eq {s u : State} {i : Instr} (h : Completes s i u)
    (hi : i ∉ [Instr.prngSeedWords, .prngSeedBytes32, .prngSeedHash, .prngSeedU32, .prngNext, .prngNextDouble,
      .prngNextInt, .prngNextByte, .prngNextBytes, .prngJump, .prngLongJump, .aliasSampleRng]) : u.prng = s.prng := by
  cases h
  case seeds _ hwrites | draws _ _ hwrites | jumps _ hwrites =>
    simp only [List.mem_cons, List.not_mem_nil, not_or, or_false] at hwrites hi
    tauto
  case nextBytes => exact absurd (by decide) hi
  all_goals rfl

/-- A host write leaves S as it is: it is read-only to the host (R33, R65). -/
theorem hostWrite_prng (s : State) (addr : Addr) (width : Nat) (v : Word) :
    (hostWrite s addr width v).prng = s.prng := by
  have htarget : ∀ target, (s.writeTarget target v).prng = s.prng := by
    intro target
    cases target with
    | reg r => cases r <;> rfl
    | idxWord k => rfl
    | cell r i => cases r <;> rfl
  unfold hostWrite
  split_ifs
  · rfl
  · rfl
  · split
    · exact htarget _
    · rfl

/-- A host read leaves S as it is (R63). -/
theorem hostRead_prng {s t : State} {addr : Addr} {width : Nat} (h : hostRead s addr width = .next t) :
    t.prng = s.prng := by
  have hresponse : ∀ target, readResponse s target = .next t → t.prng = s.prng := by
    intro target h
    obtain ⟨v, -, rfl⟩ := readResponse_next h
    rfl
  unfold hostRead at h
  split_ifs at h
  · split at h
    · exact hresponse _ h
    · cases h; rfl
  · cases h; rfl
  · cases h; rfl
  · split at h
    · exact hresponse _ h
    · cases h; rfl

theorem pendingCommand_eq_some {s : State} {c : Word} (h : s.pendingCommand = some c) :
    s.fault = false ∧ s.latch = some c := by
  unfold State.pendingCommand at h
  split at h
  · cases h
  · next hfault => exact ⟨Bool.eq_false_iff.2 hfault, h⟩

/-- A turn of the device that changes S performs one of the commands that write it, and the command completes. -/
theorem deviceTurn_changes_prng {s t : State} (h : deviceTurn s = .next t) (hne : t.prng ≠ s.prng) :
    ∃ c i, s.latch = some c ∧ s.fault = false ∧ t.fault = false ∧ decode c = .ok i ∧
      i ∈ [Instr.prngSeedWords, .prngSeedBytes32, .prngSeedHash, .prngSeedU32, .prngNext, .prngNextDouble, .prngNextInt,
        .prngNextByte, .prngNextBytes, .prngJump, .prngLongJump, .aliasSampleRng] := by
  unfold deviceTurn at h
  split at h
  · cases h
    exact absurd rfl hne
  · next c hc =>
    obtain ⟨hfault, hlatch⟩ := pendingCommand_eq_some hc
    split at h
    · next i hdecode =>
      rcases exec_next_cases h with ⟨u, hu, rfl⟩ | ⟨code, rfl⟩
      · obtain ⟨-, -, -, -, -, -, -, -, -, -, hkeeps, -⟩ := hu.keeps_operands
        exact ⟨c, i, hlatch, hfault, hkeeps.trans hfault, hdecode, by_contra fun hi => hne (hu.prng_eq hi)⟩
      · exact absurd rfl hne
    · cases h
      exact absurd rfl hne

/-- Settles O48: event by event, only reset and a turn of the device reach S. -/
theorem prngChangesOnlyByItsCommands : Obligations.PrngChangesOnlyByItsCommands := by
  intro s t h hne
  unfold step at h
  split at h
  · next hinputs => exact .inr ⟨.inl hinputs, deviceTurn_changes_prng h hne⟩
  · next e rest hinputs =>
    cases e with
    | busRead addr width => exact absurd (hostRead_prng h) hne
    | busWrite addr width v =>
      cases h
      exact absurd (hostWrite_prng (s.withInputs rest) addr width v) hne
    | reset => exact .inl ⟨rest, hinputs⟩
    | hostLocal =>
      cases h
      exact absurd rfl hne
    | deviceTurn => exact .inr ⟨.inr ⟨rest, hinputs⟩, deviceTurn_changes_prng (s := s.withInputs rest) h hne⟩

end Sys2Proof.Machine
end

section
/-! SUPPORT for the statements on ALIAS_BUILD and the sampling commands (R152, R155 to R158): WEIGHT read in
rising order and checked, the tables read back, and a sample of usable tables. -/

namespace Sys2Proof.Machine

/-! ### A sample of usable tables -/

theorem F64.mul_swap (a b : Word) : F64.mul a b = F64.mul b a := by
  simp only [F64.mul, Bool.or_comm (F64.isNaN a), Bool.or_comm (F64.isInf a), Bool.or_comm (decide (F64.units a = 0)),
    Nat.mul_comm (F64.units a), bne_comm (a := F64.sign a)]

theorem uniformValid_iff (r : Word) : uniformValid r = true ↔ Uniform r := Bool.and_eq_true_iff

theorem requireTable_of_valid {s : State} (h : s.aliasValid = true) : requireTable s = .ok () := by
  rw [requireTable, h, require_true]

/-- A command that checks ALIAS_VALID first takes E_NOTABLE while it is 0 (R233). -/
theorem takesFault_of_noTable {i : Instr} {s : State} {f : Unit → Except Stop State}
    (hexec : exec i s = finish i s (requireTable s >>= f)) (h : s.aliasValid = false) : TakesFault i s 0x03#8 :=
  takesFault_of_error (code := .noTable) hexec (by rw [requireTable, h, require_false, error_bind])

theorem exists_entries_of_tableEntryUsable {m : List Host.Cell} {n i : Nat} (h : tableEntryUsable m n i = true) :
    ∃ p a, readWordCell m .prob i = .ok p ∧ readWordCell m .aliasTab i = .ok a ∧ a.toNat < n := by
  unfold tableEntryUsable at h
  split at h
  · next p a hprob halias => exact ⟨p, a, hprob, halias, of_decide_eq_true h⟩
  · cases h

/-- A sample from its parts, which are variables here so that the kernel has nothing to evaluate. -/
theorem sampleUser_of_parts {s : State} {r1 r2 p a : Word} {i : Nat} (hi : scaleDouble r1 s.aliasN.toNat = .ok i)
    (hprob : readWordCell s.mem .prob i = .ok p) (halias : readWordCell s.mem .aliasTab i = .ok a) :
    sampleUser s r1 r2 = .ok (if F64.lt r2 p then BitVec.ofNat 64 i else a) := by
  simp only [sampleUser, sample, hi, hprob, halias, ok_bind, pure_eq_ok]
  split_ifs <;> rfl

/-- Two uniform operands sample a usable table: the bin of the first, or its ALIAS entry (R155). -/
theorem exists_sampleUser_of_usable {s : State} {r1 : Word} (hvalid : s.aliasValid = true) (husable : s.TablesUsable)
    (h1 : Uniform r1) (r2 : Word) :
    ∃ (i : Nat) (p a v : Word), i = F64.trunc (F64.mul (F64.ofNat s.aliasN.toNat) r1) ∧ i < s.aliasN.toNat ∧
      readWordCell s.mem .prob i = .ok p ∧ readWordCell s.mem .aliasTab i = .ok a ∧
      v = (if F64.lt r2 p then BitVec.ofNat 64 i else a) ∧ v.toNat < s.aliasN.toNat ∧ sampleUser s r1 r2 = .ok v := by
  obtain ⟨hpos, -, hentries⟩ := husable hvalid
  have hmax : s.aliasN.toNat ≤ 2 ^ 64 := s.aliasN.isLt.le
  have hbin := F64.trunc_mul_ofNat_lt h1 hpos hmax
  have hscale := scaleDouble_of_uniform h1 hpos hmax
  rw [F64.mul_swap] at hbin hscale
  generalize F64.trunc (F64.mul (F64.ofNat s.aliasN.toNat) r1) = i at *
  obtain ⟨p, a, hprob, halias, ha⟩ := exists_entries_of_tableEntryUsable (hentries i hbin)
  refine ⟨i, p, a, _, rfl, hbin, hprob, halias, rfl, ?_, sampleUser_of_parts hscale hprob halias⟩
  split_ifs
  · rwa [BitVec.toNat_ofNat, Nat.mod_eq_of_lt (by omega)]
  · exact ha

/-! ### The sampling commands -/

theorem exec_aliasSample (s : State) : exec .aliasSample s = finish .aliasSample s
    (requireTable s >>= fun _ => require (uniformValid s.arg0 && uniformValid s.arg1) .operand >>= fun _ =>
      sampleUser s s.arg0 s.arg1 >>= fun v => .ok { s with res0 := v }) := rfl

theorem exec_aliasSampleRng (s : State) : exec .aliasSampleRng s = finish .aliasSampleRng s
    (requireTable s >>= fun _ => requireSeeded s >>= fun _ => nextDouble (afterDraws s.prng 0) >>= fun d1 =>
      nextDouble d1.2 >>= fun d2 => sampleUser s d1.1 d2.1 >>= fun v => .ok { s with res0 := v, prng := d2.2 }) := rfl

/-- Draw number `k` from state `g`, as `nextDouble` makes it (R119). -/
theorem nextDouble_afterDraws_of_drawOk {g : Prng} {k : Nat} (h : DrawOk (nthDraw g k)) :
    nextDouble (afterDraws g k) = .ok (drawDouble (nthDraw g k), afterDraws g (k + 1)) := by
  rw [afterDraws_succ']
  exact nextDouble_of_drawOk h

/-- Settles O34: the operand check is `Uniform` of both (`uniformValid_iff`), and usable tables are sampled within their
size (`exists_sampleUser_of_usable`). -/
theorem aliasSampleReturnsIndex : Obligations.AliasSampleReturnsIndex := by
  have hcheck : ∀ s : State, (uniformValid s.arg0 && uniformValid s.arg1) = true ↔ Uniform s.arg0 ∧ Uniform s.arg1 :=
    fun s => by rw [Bool.and_eq_true, uniformValid_iff, uniformValid_iff]
  refine ⟨rfl, fun s h => takesFault_of_noTable (exec_aliasSample s) h, fun s hvalid hnot => ?_,
    fun s hvalid husable h0 h1 => ?_⟩
  · exact takesFault_of_error (code := .operand) (exec_aliasSample s)
      (by rw [requireTable_of_valid hvalid, ok_bind, Bool.eq_false_iff.2 (mt (hcheck s).1 hnot), require_false,
        error_bind])
  · obtain ⟨i, p, a, v, hbin, hlt, hprob, halias, hv, hvlt, hsample⟩ :=
      exists_sampleUser_of_usable hvalid husable h0 s.arg1
    refine ⟨i, p, a, v, hbin, hlt, hprob, halias, hv, hvlt, ?_⟩
    rw [exec_aliasSample, requireTable_of_valid hvalid, ok_bind, (hcheck s).2 ⟨h0, h1⟩, require_true, ok_bind, hsample,
      ok_bind]
    rfl

/-- Settles O35: each draw is a uniform operand or ends in E_RANGE, and usable tables are sampled within their size
(`exists_sampleUser_of_usable`). -/
theorem aliasSampleRngTakesTwoDraws : Obligations.AliasSampleRngTakesTwoDraws := by
  refine ⟨rfl, fun s h => takesFault_of_noTable (exec_aliasSampleRng s) h, fun s hvalid hseeded => ?_,
    fun s hvalid hseeded hdraw => ?_, fun s hvalid hseeded husable h0 h1 => ?_⟩
  · exact takesFault_of_error (code := .unseeded) (exec_aliasSampleRng s)
      (by rw [requireTable_of_valid hvalid, ok_bind, requireSeeded, hseeded, require_false, error_bind])
  · refine takesFault_of_error (code := .range) (exec_aliasSampleRng s) ?_
    rw [requireTable_of_valid hvalid, ok_bind, requireSeeded_of_seeded hseeded, ok_bind]
    by_cases h0 : DrawOk (nthDraw s.prng 0)
    · rw [nextDouble_afterDraws_of_drawOk h0, ok_bind,
        nextDouble_of_not_drawOk (hdraw.resolve_left (not_not_intro h0)), error_bind]
    · rw [nextDouble_of_not_drawOk h0, error_bind]
  · obtain ⟨i, p, a, v, hbin, hlt, hprob, halias, hv, hvlt, hsample⟩ :=
      exists_sampleUser_of_usable hvalid husable (uniform_drawDouble h0) (drawDouble (nthDraw s.prng 1))
    refine ⟨i, p, a, v, hbin, hlt, hprob, halias, hv, hvlt, ?_⟩
    rw [exec_aliasSampleRng, requireTable_of_valid hvalid, ok_bind, requireSeeded_of_seeded hseeded, ok_bind,
      nextDouble_afterDraws_of_drawOk h0, ok_bind, nextDouble_afterDraws_of_drawOk h1, ok_bind, hsample, ok_bind]
    rfl

/-! ### ALIAS_BUILD -/

/-- Entries read in rising order stop at the first that was never written (R239). -/
theorem readWordCells_of_first_unwritten {m : List Host.Cell} {r : Ram} {i n count : Nat} (hn : n < count)
    (hwritten : ∀ k < n, ∃ w, readWordCell m r (i + k) = .ok w) {e : Stop}
    (hstop : readWordCell m r (i + n) = .error e) : readWordCells m r i count = .error e := by
  induction n generalizing i count with
  | zero =>
    obtain ⟨count, rfl⟩ : ∃ c, count = c + 1 := ⟨count - 1, by omega⟩
    rw [readWordCells, show readWordCell m r i = .error e from hstop, error_bind]
  | succ n ih =>
    obtain ⟨count, rfl⟩ : ∃ c, count = c + 1 := ⟨count - 1, by omega⟩
    have hshift : ∀ k, i + (k + 1) = i + 1 + k := by omega
    obtain ⟨w, hw⟩ := hwritten 0 n.succ_pos
    have hrest := ih (i := i + 1) (Nat.lt_of_succ_lt_succ hn)
      (fun k hk => hshift k ▸ hwritten (k + 1) (Nat.succ_lt_succ hk)) (hshift n ▸ hstop)
    rw [readWordCells, show readWordCell m r i = .ok w from hw, ok_bind, hrest, error_bind]

theorem operandWeights_of_written {s : State} {w : List Word}
    (h : ∀ i (hi : i < w.length), readWordCell s.mem .weight i = .ok w[i]) : operandWeights s w.length = .ok w :=
  (readWordCells_eq_ok_iff _ _ _ _ _).2 ⟨rfl, fun k hk => by rw [Nat.zero_add]; exact h k hk⟩

theorem operandWeights_of_first_unwritten {s : State} {k count : Nat} (hk : k < count)
    (hwritten : ∀ i < k, ∃ w, readWordCell s.mem .weight i = .ok w) {e : Stop}
    (hstop : readWordCell s.mem .weight k = .error e) : operandWeights s count = .error e :=
  readWordCells_of_first_unwritten (i := 0) hk (fun i hi => by rw [Nat.zero_add]; exact hwritten i hi)
    (by rwa [Nat.zero_add])

/-- The two checks of R152, each as its condition. -/
theorem weights_checks_iff (w : List Word) :
    (w.all weightValid = true ∧ (F64.lt F64.zero (weightSum w) && weightSum w != F64.inf) = true) ↔ WeightsLegal w := by
  simp [weightValid, weightSum]

theorem checkWeights_of_legal {w : List Word} (h : WeightsLegal w) : checkWeights w = .ok () := by
  obtain ⟨hall, hsum⟩ := (weights_checks_iff w).2 h
  rw [checkWeights, hall, hsum]
  rfl

theorem checkWeights_of_illegal {w : List Word} (h : ¬ WeightsLegal w) :
    checkWeights w = .error (.device .operand) := by
  rw [← weights_checks_iff, not_and_or] at h
  rw [checkWeights]
  cases hall : w.all weightValid
  · rfl
  · rw [Bool.eq_false_iff.2 (h.resolve_left (not_not_intro hall))]
    rfl

/-- The tables ALIAS_BUILD writes read back, entry by entry (R156). -/
theorem readWordCell_withTables (s : State) (t : Tables) {n i : Nat} (hn : n ≤ 2 ^ 21) (hprob : t.prob.length = n)
    (halias : t.aliasOf.length = n) (hi : i < n) :
    readWordCell (s.withTables t).mem .prob i = .ok (t.prob.getD i 0#64) ∧
    readWordCell (s.withTables t).mem .aliasTab i = .ok (BitVec.ofNat 64 (t.aliasOf.getD i 0)) := by
  have hip : i < t.prob.length := hprob ▸ hi
  have hia : i < t.aliasOf.length := halias ▸ hi
  have hwriteProb := readWordCell_writeWordCells_inside s.mem .prob 0 t.prob i rfl hip
  have hwriteAlias := readWordCell_writeWordCells_inside (writeWordCells s.mem .prob 0 t.prob) .aliasTab 0
    (t.aliasOf.map (BitVec.ofNat 64)) i rfl (by rwa [List.length_map])
  rw [Nat.zero_add] at hwriteProb hwriteAlias
  refine ⟨?_, by simpa [State.withTables, hia] using hwriteAlias⟩
  rw [List.getD_eq_getElem _ _ hip, ← hwriteProb]
  refine readWordCell_congr fun x _ hhi => readByte_writeWordCells_outside _ _ _ _ _ rfl (.inl ?_)
  simp only [Ram.addr, Ram.base, Ram.cellBytes] at *
  omega

theorem exec_aliasBuild (s : State) : exec .aliasBuild s = finish .aliasBuild s
    (operandRange s.arg0 1 s.params.nMax >>= fun n => operandWeights s n >>= fun w => checkWeights w >>= fun _ =>
      .ok (s.withTables (buildTables w))) := rfl

/-- ALIAS_BUILD that completes writes the tables, ALIAS_N and ALIAS_VALID. Stated for a variable `t`, so that the
kernel has nothing to evaluate. -/
theorem finish_withTables (i : Instr) (s : State) (t : Tables) : finish i s (.ok (s.withTables t)) =
    .next { s with mem := (s.withTables t).mem, aliasN := s.arg0, aliasValid := true, latch := none } := rfl

/-- Settles O31: the checks and reads in the order of R156, and the tables by what a run of entries written reads back
(`readWordCell_withTables`). -/
theorem aliasBuildWritesTables : Obligations.AliasBuildWritesTables := by
  refine ⟨rfl, fun s h => ?_, fun s k hpos hmax hk hwritten hstop => ?_, fun s w hpos hmax hlen hread => ?_⟩
  · exact takesFault_of_error (code := .operand) (exec_aliasBuild s)
      (by rw [operandRange_of_not_mem h, error_bind])
  · rw [exec_aliasBuild, operandRange_of_mem hpos hmax, ok_bind, operandWeights_of_first_unwritten hk hwritten hstop,
      error_bind, finish_uninit]
  · have hweights : operandWeights s s.arg0.toNat = .ok w := hlen ▸ operandWeights_of_written hread
    refine ⟨fun hlegal => ?_, fun hlegal hp => ⟨(s.withTables (buildTables w)).mem, ?_, fun i hi => ?_,
      fun a h1 h2 => ?_⟩⟩
    · exact takesFault_of_error (code := .operand) (exec_aliasBuild s)
        (by rw [operandRange_of_mem hpos hmax, ok_bind, hweights, ok_bind, checkWeights_of_illegal hlegal, error_bind])
    · rw [exec_aliasBuild, operandRange_of_mem hpos hmax, ok_bind, hweights, ok_bind, checkWeights_of_legal hlegal,
        ok_bind, finish_withTables]
    · obtain ⟨hprob, halias⟩ := buildTables_lengths w
      obtain ⟨⟨-, hn⟩, -⟩ := hp
      exact readWordCell_withTables s _ (hmax.trans hn) (hprob.trans hlen) (halias.trans hlen) hi
    · obtain ⟨hprob, halias⟩ := buildTables_lengths w
      rw [← hlen] at h1 h2
      exact readByte_withTables_outside s _ a (by rwa [hprob]) (by rwa [halias])

end Sys2Proof.Machine
end

section
/-! SUPPORT for O32: the main loop of R153 is `PairsTo`, for stacks of distinct indexes of the table. -/

namespace Sys2Proof.Machine

section
variable {α : Type} (l : List α) {i j : Nat} (x d : α)

theorem getD_set_same (h : i < l.length) : (l.set i x).getD i d = x := by
  simp [List.getD_eq_getElem?_getD, h]

theorem getD_set_other (h : i ≠ j) : (l.set i x).getD j d = l.getD j d := by
  simp [List.getD_eq_getElem?_getD, h]

end

/-! ### The stacks at the start -/

/-- The stack of the indexes of `l` from `k` up that satisfy `keep`, in rising order. -/
theorem stackOf_eq_filter (keep : Word → Bool) (k : Nat) (l : List Word) (d : Word) :
    stackOf keep k l = (List.range' k l.length).filter fun i => keep (l.getD (i - k) d) := by
  induction l generalizing k with
  | nil => rfl
  | cons x rest ih =>
    have hrest : ∀ i ∈ List.range' (k + 1) rest.length,
        keep ((x :: rest).getD (i - k) d) = keep (rest.getD (i - (k + 1)) d) := fun i hi => by
      have := List.mem_range'_1.1 hi
      rw [show i - k = i - (k + 1) + 1 by omega, List.getD_cons_succ]
    rw [stackOf, ih, List.length_cons, List.range'_succ, List.filter_cons, List.filter_congr hrest, Nat.sub_self,
      List.getD_cons_zero]

theorem scaledWeights_getD (w : List Word) {i : Nat} (hi : i < w.length) (d : Word) :
    (scaledWeights w).getD i d = F64.div (F64.mul (w.getD i 0#64) (F64.ofNat w.length)) (weightSum w) := by
  simp [scaledWeights, hi]

/-- R153's scaled weight of index `i`, as the obligations write it. -/
def scaledWeight (w : List Word) (i : Nat) : Word :=
  F64.div (F64.mul (w.getD i 0#64) (F64.ofNat w.length)) (w.foldl F64.add F64.zero)

theorem stackOf_scaledWeights (keep : Word → Bool) (w : List Word) :
    stackOf keep 0 (scaledWeights w) = (List.range w.length).filter fun i => keep (scaledWeight w i) := by
  rw [stackOf_eq_filter keep 0 _ 0#64, ← List.range_eq_range', scaledWeights, List.length_map]
  refine List.filter_congr fun i hi => ?_
  rw [Nat.sub_zero, ← scaledWeights, scaledWeights_getD w (List.mem_range.1 hi)]
  rfl

/-! ### The tables once the leftovers are filled in -/

/-- The tables of R153 when its main loop ends in `b`: the leftovers of both stacks get probability 1.0. -/
def Balance.result (b : Balance) : Tables :=
  { b.tables with prob := fillOnes b.small (fillOnes b.large b.tables.prob) }

theorem buildTables_eq_result (w : List Word) : buildTables w = (balanceLoop w.length (balanceStart w)).result := rfl

theorem fillOnes_getD (stack : List Nat) (prob : List Word) {i : Nat} (d : Word) (hi : i < prob.length) :
    (fillOnes stack prob).getD i d = if i ∈ stack then F64.one else prob.getD i d := by
  induction stack generalizing prob with
  | nil => rfl
  | cons k rest ih =>
    rw [show fillOnes (k :: rest) prob = fillOnes rest (prob.set k F64.one) from rfl,
      ih _ (by rwa [List.length_set])]
    by_cases hk : k = i
    · subst hk
      simp [hi]
    · simp [hk, Ne.symm hk]

theorem Balance.result_prob_getD (b : Balance) {i : Nat} (d : Word) (hi : i < b.tables.prob.length) :
    b.result.prob.getD i d = if i ∈ b.small ++ b.large then F64.one else b.tables.prob.getD i d := by
  rw [Balance.result, fillOnes_getD _ _ _ (by rwa [fillOnes_length]), fillOnes_getD _ _ _ hi]
  simp only [List.mem_append]
  split_ifs <;> tauto

/-! ### One pass of the loop -/

/-- The stacks hold distinct indexes below `n`, their ALIAS entries still 0; the lists have `n` entries. -/
structure Balance.WellStacked (b : Balance) (n : Nat) : Prop where
  p_length : b.p.length = n
  prob_length : b.tables.prob.length = n
  aliasOf_length : b.tables.aliasOf.length = n
  nodup : (b.small ++ b.large).Nodup
  lt : ∀ i ∈ b.small ++ b.large, i < n
  alias_zero : ∀ i ∈ b.small ++ b.large, b.tables.aliasOf.getD i 0 = 0

/-- The stacks at the start hold each index once. -/
theorem balanceStart_stacks (w : List Word) :
    ((balanceStart w).small ++ (balanceStart w).large).Perm (List.range w.length) := by
  simp only [balanceStart, stackOf_scaledWeights]
  exact List.filter_append_perm _ _

theorem balanceStart_wellStacked (w : List Word) : (balanceStart w).WellStacked w.length where
  p_length := by simp [balanceStart, scaledWeights]
  prob_length := List.length_replicate
  aliasOf_length := List.length_replicate
  nodup := (balanceStart_stacks w).nodup_iff.2 List.nodup_range
  lt i hi := List.mem_range.1 ((balanceStart_stacks w).mem_iff.1 hi)
  alias_zero i _ := by simp [balanceStart]

section
variable {b : Balance} {a g n : Nat} {small large : List Nat}

/-- A pass takes the small index off for good and puts the large one back. -/
theorem balanceStep_stacks (b : Balance) (a g : Nat) (small large : List Nat) :
    ((balanceStep b a g small large).small ++ (balanceStep b a g small large).large).Perm (small ++ g :: large) := by
  unfold balanceStep
  simp only
  split_ifs
  · exact List.perm_middle.symm
  · exact .refl _

section
variable (h : b.WellStacked n) (hs : b.small = a :: small) (hl : b.large = g :: large)
include h hs hl

theorem Balance.WellStacked.popped_not_mem :
    a ∉ (balanceStep b a g small large).small ++ (balanceStep b a g small large).large := by
  have hnodup := h.nodup
  rw [hs, hl] at hnodup
  rw [(balanceStep_stacks b a g small large).mem_iff]
  exact (List.nodup_cons.1 hnodup).1

theorem Balance.WellStacked.step : (balanceStep b a g small large).WellStacked n := by
  have hperm := balanceStep_stacks b a g small large
  have hnot := h.popped_not_mem hs hl
  have hstacks : b.small ++ b.large = a :: (small ++ g :: large) := by rw [hs, hl]; rfl
  have hmem : ∀ i ∈ (balanceStep b a g small large).small ++ (balanceStep b a g small large).large,
      i ∈ b.small ++ b.large := fun i hi => by
    rw [hstacks]
    exact List.mem_cons_of_mem _ (hperm.mem_iff.1 hi)
  obtain ⟨hp, hprob, halias, hnodup, hlt, hzero⟩ := h
  rw [hstacks] at hnodup
  refine ⟨by simp [balanceStep, hp], by simp [balanceStep, hprob], by simp [balanceStep, halias],
    hperm.nodup_iff.2 (List.nodup_cons.1 hnodup).2, fun i hi => hlt i (hmem i hi), fun i hi => ?_⟩
  have hne : a ≠ i := fun heq => hnot (heq ▸ hi)
  exact (getD_set_other _ _ _ hne).trans (hzero i (hmem i hi))

end

/-! ### The loop -/

theorem balanceLoop_pair (fuel : Nat) (hs : b.small = a :: small) (hl : b.large = g :: large) :
    balanceLoop (fuel + 1) b = balanceLoop fuel (balanceStep b a g small large) := by
  rw [balanceLoop, hs, hl]

theorem balanceLoop_of_done (fuel : Nat) (h : b.small = [] ∨ b.large = []) : balanceLoop fuel b = b := by
  cases fuel with
  | zero => rfl
  | succ fuel =>
    rw [balanceLoop]
    rcases h with h | h <;> simp [h]

theorem Balance.done_or_pair (b : Balance) :
    (b.small = [] ∨ b.large = []) ∨ ∃ a small g large, b.small = a :: small ∧ b.large = g :: large := by
  rcases b.small with _ | ⟨a, small⟩ <;> rcases b.large with _ | ⟨g, large⟩ <;> simp

/-- An index on neither stack has its entries for good. -/
theorem result_balanceLoop_of_not_mem {i : Nat} (fuel : Nat) (d : Word) (h : b.WellStacked n) (hin : i < n)
    (hi : i ∉ b.small ++ b.large) :
    (balanceLoop fuel b).result.prob.getD i d = b.tables.prob.getD i d ∧
    (balanceLoop fuel b).result.aliasOf.getD i 0 = b.tables.aliasOf.getD i 0 := by
  induction fuel generalizing b with
  | zero => exact ⟨(b.result_prob_getD d (h.prob_length ▸ hin)).trans (if_neg hi), rfl⟩
  | succ fuel ih =>
    rcases b.done_or_pair with hdone | ⟨a, small, g, large, hs, hl⟩
    · rw [balanceLoop_of_done _ hdone]
      exact ⟨(b.result_prob_getD d (h.prob_length ▸ hin)).trans (if_neg hi), rfl⟩
    · have hne : a ≠ i := fun heq => hi (by simp [hs, heq])
      have hnot : i ∉ (balanceStep b a g small large).small ++ (balanceStep b a g small large).large := fun hmem =>
        hi (by rw [hs, hl]; exact List.mem_cons_of_mem _ ((balanceStep_stacks b a g small large).mem_iff.1 hmem))
      obtain ⟨hprob, halias⟩ := ih (h.step hs hl) hnot
      rw [balanceLoop_pair fuel hs hl, hprob, halias]
      exact ⟨getD_set_other _ _ _ hne, getD_set_other _ _ _ hne⟩

/-- With a stack empty, the leftovers have probability 1.0 and ALIAS entry 0. -/
theorem pairsTo_result_of_done {p : Nat → Word} (h : b.WellStacked n) (hdone : b.small = [] ∨ b.large = []) :
    PairsTo p b.small b.large (fun i => b.result.prob.getD i 0#64) (fun i => b.result.aliasOf.getD i 0) :=
  .leftover _ _ _ _ _ hdone fun i hi =>
    ⟨(b.result_prob_getD _ (h.prob_length ▸ h.lt i hi)).trans (if_pos hi), h.alias_zero i hi⟩

/-- The main loop, where it runs to its end, is R153's pairing. -/
theorem pairsTo_balanceLoop {fuel : Nat} {p : Nat → Word} (h : b.WellStacked n)
    (hdone : (balanceLoop fuel b).small = [] ∨ (balanceLoop fuel b).large = [])
    (hp : ∀ i ∈ b.small ++ b.large, p i = b.p.getD i F64.zero) :
    PairsTo p b.small b.large (fun i => (balanceLoop fuel b).result.prob.getD i 0#64)
      (fun i => (balanceLoop fuel b).result.aliasOf.getD i 0) := by
  induction fuel generalizing b p with
  | zero => exact pairsTo_result_of_done h hdone
  | succ fuel ih =>
    rcases b.done_or_pair with hend | ⟨a, small, g, large, hs, hl⟩
    · rw [balanceLoop_of_done _ hend]
      exact pairsTo_result_of_done h hend
    · have ha : a ∈ b.small ++ b.large := by simp [hs]
      have hg : g ∈ b.small ++ b.large := by simp [hl]
      have hstep := h.step hs hl
      obtain ⟨hprob, halias⟩ :=
        result_balanceLoop_of_not_mem fuel 0#64 hstep (h.lt a ha) (h.popped_not_mem hs hl)
      rw [balanceLoop_pair fuel hs hl] at hdone ⊢
      rw [hs, hl]
      refine .pair p a g small large _ _ (F64.add (b.p.getD g F64.zero) (F64.sub (b.p.getD a F64.zero) F64.one))
        ?_ ?_ ?_ (ih hstep hdone fun i hi => ?_)
      · exact hprob.trans ((getD_set_same _ _ _ (h.prob_length ▸ h.lt a ha)).trans (hp a ha).symm)
      · exact halias.trans (getD_set_same _ _ _ (h.aliasOf_length ▸ h.lt a ha))
      · rw [hp a ha, hp g hg]
      · have hib : i ∈ b.small ++ b.large := by
          rw [hs, hl]
          exact List.mem_cons_of_mem _ ((balanceStep_stacks b a g small large).mem_iff.1 hi)
        by_cases heq : i = g
        · subst heq
          exact (if_pos rfl).trans (getD_set_same _ _ _ (h.p_length ▸ h.lt i hg)).symm
        · exact (if_neg heq).trans ((hp i hib).trans (getD_set_other _ _ _ (Ne.symm heq)).symm)

end

/-- The tables of `build` are what R153's pairing gives. -/
theorem pairsTo_buildTables (w : List Word) :
    PairsTo (scaledWeight w) ((List.range w.length).filter fun i => F64.lt (scaledWeight w i) F64.one)
      ((List.range w.length).filter fun i => !F64.lt (scaledWeight w i) F64.one)
      (fun i => (buildTables w).prob.getD i 0#64) (fun i => (buildTables w).aliasOf.getD i 0) := by
  have hstart := balanceStart_wellStacked w
  rw [← stackOf_scaledWeights fun x => F64.lt x F64.one, ← stackOf_scaledWeights fun x => !F64.lt x F64.one]
  exact pairsTo_balanceLoop hstart (buildTables_loop_done w) fun i hi => (scaledWeights_getD w (hstart.lt i hi) _).symm

/-- One weight is left over at once, on whichever stack it is. -/
theorem buildTables_singleton (x : Word) : (buildTables [x]).prob = [F64.one] ∧ (buildTables [x]).aliasOf = [0] := by
  simp only [buildTables, balanceStart, scaledWeights, List.map_cons, List.map_nil, stackOf]
  cases F64.lt _ F64.one <;> exact ⟨rfl, rfl⟩

/-- Settles O32: the loop by induction on its passes (`pairsTo_balanceLoop`). -/
theorem buildFollowsPairingLoop : Obligations.BuildFollowsPairingLoop :=
  ⟨fun w _ => pairsTo_buildTables w,
    fun w _ => ⟨(buildTables_lengths w).1, (buildTables_lengths w).2, buildTables_aliasOf_lt w⟩,
    fun x _ => buildTables_singleton x⟩

end Sys2Proof.Machine
end

section
/-! SUPPORT for O33: the pairing of R153 keeps every weight at least 0.0, and what it stores below 1.0. -/

namespace Sys2Proof.Machine

namespace F64

/-! ### Encodings that are at least 0.0 -/

theorem not_nan_of_ge {a b : Word} (h : ge a b = true) : isNaN a = false :=
  Bool.eq_false_iff.2 fun hnan => by simp [ge, hnan] at h

theorem value_zero : value zero = 0 := by decide

/-- −0.0 is at least 0.0. -/
theorem ge_zero_iff {d : Word} : ge d zero = true ↔ isNaN d = false ∧ (sign d = true → units d = 0) := by
  refine ⟨fun h => ⟨not_nan_of_ge h, ?_⟩, fun ⟨hnan, hsign⟩ => (ge_iff hnan (by decide)).2 ?_⟩
  · rw [ge_iff (not_nan_of_ge h) (by decide), value_zero, value] at h
    intro hsign
    rw [if_pos hsign] at h
    omega
  · rw [value_zero, value]
    split_ifs with hneg
    · rw [hsign hneg]
      rfl
    · exact Int.natCast_nonneg _

theorem ge_zero_withSign {s : Bool} {mag : Nat} (h : mag ≤ infBits) (hs : s = true → mag = 0) :
    ge (withSign s mag) zero = true := by
  refine ge_zero_iff.2 ⟨isNaN_withSign s mag h, fun hsign => ?_⟩
  rw [sign_withSign s mag h] at hsign
  rw [units_withSign s mag h, hs hsign]
  rfl

theorem roundUnits_zero {den : Nat} (hd : 0 < den) : roundUnits 0 den = 0 :=
  Nat.le_zero.1 (roundUnits_le_of_le hd (by decide) (Nat.zero_le _))

/-- A weight that passes R152 is finite. -/
theorem finite_of_ge_zero {d : Word} (h : ge d zero = true) (hinf : d ≠ inf) : FiniteF64 d := by
  obtain ⟨hnan, hsign⟩ := ge_zero_iff.1 h
  have hle : magBits d ≤ infBits := by simpa [isNaN] using hnan
  refine (finiteF64_iff_magBits_lt d).2 (lt_of_le_of_ne hle fun hmag => ?_)
  cases hs : sign d
  · exact hinf (eq_of_sign_eq_of_magBits_eq (hs.trans (by decide)) (hmag.trans (by decide)))
  · have hzero := hsign hs
    rw [units, hmag] at hzero
    exact absurd hzero (by decide +kernel)

/-- A sum that passes R152 is finite and above 0. -/
theorem pos_of_lt_zero {d : Word} (h : lt zero d = true) (hinf : d ≠ inf) :
    FiniteF64 d ∧ sign d = false ∧ units d ≠ 0 := by
  have hnan : isNaN d = false := Bool.eq_false_iff.2 fun hnan => by simp [lt, hnan] at h
  rw [lt_iff (by decide) hnan, value_zero] at h
  refine ⟨finite_of_ge_zero ((ge_iff hnan (by decide)).2 (by rw [value_zero]; exact h.le)) hinf, ?_⟩
  unfold value at h
  split_ifs at h with hsign
  · omega
  · exact ⟨Bool.eq_false_iff.2 hsign, by omega⟩

/-! ### Operations of R153 on them -/

theorem ge_zero_mul {a b : Word} (ha : ge a zero = true) (hb : ge b zero = true) (hfa : FiniteF64 a)
    (hfb : FiniteF64 b) : ge (mul a b) zero = true := by
  rw [mul_finite hfa hfb]
  refine ge_zero_withSign (roundUnits_le_inf _ _) fun hsign => ?_
  have hzero : units a = 0 ∨ units b = 0 := by
    cases hsa : sign a
    · rw [hsa, Bool.false_bne] at hsign
      exact .inr ((ge_zero_iff.1 hb).2 hsign)
    · exact .inl ((ge_zero_iff.1 ha).2 hsa)
  rw [Nat.mul_eq_zero.2 hzero, roundUnits_zero oneUnits_pos]

theorem ge_zero_div {a b : Word} (ha : ge a zero = true) (hfb : FiniteF64 b) (hsign : sign b = false)
    (hunits : units b ≠ 0) : ge (div a b) zero = true := by
  obtain ⟨hnan, hzero⟩ := ge_zero_iff.1 ha
  by_cases hinf : a = inf
  · subst hinf
    rw [div_inf_left (by decide) (isNaN_of_finite hfb), isInf_of_finite hfb, hsign]
    decide
  · rw [div_finite (finite_of_ge_zero ha hinf) hfb, if_neg hunits, hsign, Bool.bne_false]
    refine ge_zero_withSign (roundUnits_le_inf _ _) fun hs => ?_
    rw [hzero hs, Nat.zero_mul, roundUnits_zero (Nat.pos_of_ne_zero hunits)]

/-- A weight is either small, that is uniform, or at least 1.0. -/
theorem uniform_or_ge_one {d : Word} (h : ge d zero = true) :
    (lt d one = true → Uniform d) ∧ (lt d one = false → ge d one = true) := by
  refine ⟨fun hlt => ⟨h, hlt⟩, fun hlt => (ge_iff (not_nan_of_ge h) (by decide)).2 ?_⟩
  exact not_lt.1 (mt (lt_iff (not_nan_of_ge h) (by decide)).2 (Bool.eq_false_iff.1 hlt))

theorem value_uniform {d : Word} (h : Uniform d) : 0 ≤ value d ∧ value d < oneUnits := by
  obtain ⟨hge, hlt⟩ := h
  rw [lt_iff (not_nan_of_ge hge) (by decide), value_one] at hlt
  rw [ge_iff (not_nan_of_ge hge) (by decide), value_zero] at hge
  exact ⟨hge, hlt⟩

/-- A uniform operand less 1.0 rounds to −1.0 or above. -/
theorem sub_one_of_uniform {d : Word} (h : Uniform d) :
    FiniteF64 (sub d one) ∧ -(oneUnits : Int) ≤ value (sub d one) := by
  have hneg : value (neg one) = -(oneUnits : Int) := by decide +kernel
  have hfin : FiniteF64 d := (finiteF64_iff_magBits_lt d).2 ((magBits_lt_of_uniform h).trans (by decide))
  obtain ⟨h0, h1⟩ := value_uniform h
  have hone : magBits one < infBits := by decide
  rw [sub, add_finite hfin (by decide), hneg, if_neg (by omega), decide_eq_true (by omega)]
  have hmag : roundUnits (value d + -(oneUnits : Int)).natAbs 1 ≤ magBits one :=
    roundUnits_le_of_le Nat.one_pos hone (by rw [unitsOf_magBits_one]; omega)
  generalize roundUnits (value d + -(oneUnits : Int)).natAbs 1 = mag at *
  have hunits := unitsOf_le_of_le hmag hone
  rw [unitsOf_magBits_one] at hunits
  have hinf : mag ≤ infBits := hmag.trans hone.le
  refine ⟨(finiteF64_iff_magBits_lt _).2 (by rw [magBits_withSign _ _ hinf]; omega), ?_⟩
  rw [value, sign_withSign _ _ hinf, units_withSign _ _ hinf, if_pos rfl]
  omega

/-- The new weight of a large index is at least 0.0. -/
theorem ge_zero_add_of_ge_one {a d : Word} (ha : ge a one = true) (hd : FiniteF64 d)
    (hbound : -(oneUnits : Int) ≤ value d) : ge (add a d) zero = true := by
  have hvalue := (ge_iff (not_nan_of_ge ha) (by decide)).1 ha
  rw [value_one] at hvalue
  have hzero : ge a zero = true := (ge_iff (not_nan_of_ge ha) (by decide)).2 (by rw [value_zero]; omega)
  by_cases hinf : a = inf
  · subst hinf
    rw [add_inf_left (by decide) (isNaN_of_finite hd), isInf_of_finite hd]
    exact hzero
  · rw [add_finite (finite_of_ge_zero hzero hinf) hd]
    split_ifs
    · exact ge_zero_withSign (Nat.zero_le _) fun _ => rfl
    · rw [decide_eq_false (by omega)]
      exact ge_zero_withSign (roundUnits_le_inf _ _) nofun

theorem unit_of_uniform {d : Word} (h : Uniform d) : ge d zero = true ∧ ge one d = true :=
  ⟨h.1, (ge_iff (by decide) (not_nan_of_ge h.1)).2 (by rw [value_one]; exact (value_uniform h).2.le)⟩

end F64

/-! ### The probabilities -/

theorem ge_zero_scaledWeight {w : List Word} (h : WeightsLegal w) (hlen : w.length ≤ 2 ^ 64) {i : Nat}
    (hi : i < w.length) : F64.ge (scaledWeight w i) F64.zero = true := by
  obtain ⟨hweights, hpos, hinf⟩ := h
  obtain ⟨hfin, hsign, hunits⟩ := F64.pos_of_lt_zero hpos hinf
  obtain ⟨hge, hne⟩ := hweights _ (List.getElem_mem hi)
  have hn := F64.finite_ofNat hlen
  have hnge : F64.ge (F64.ofNat w.length) F64.zero = true :=
    F64.ge_zero_iff.2 ⟨F64.isNaN_of_finite hn, fun hs => by simp at hs⟩
  rw [scaledWeight, List.getD_eq_getElem _ _ hi]
  exact F64.ge_zero_div (F64.ge_zero_mul hge hnge (F64.finite_of_ge_zero hge hne) hn) hfin hsign hunits

/-- The pairing leaves each index of its stacks a probability in [0, 1], from small weights in [0, 1) and large ones of
at least 1.0, each index on one stack only. -/
theorem PairsTo.prob_unit {p : Nat → Word} {small large : List Nat} {prob : Nat → Word} {aliasOf : Nat → Nat}
    (h : PairsTo p small large prob aliasOf) (hnodup : (small ++ large).Nodup) (hsmall : ∀ i ∈ small, Uniform (p i))
    (hlarge : ∀ i ∈ large, F64.ge (p i) F64.one = true) :
    ∀ i ∈ small ++ large, F64.ge (prob i) F64.zero = true ∧ F64.ge F64.one (prob i) = true := by
  induction h with
  | leftover p small large prob aliasOf done rest =>
    intro i hi
    rw [(rest i hi).1]
    decide +kernel
  | pair p a g small large prob aliasOf pg hp ha hg next ih =>
    have hrest : (small ++ g :: large).Nodup := (List.nodup_cons.1 hnodup).2
    have hgnot : g ∉ small ++ large := (List.nodup_cons.1 (List.nodup_middle.1 hrest)).1
    have hua := hsmall a List.mem_cons_self
    obtain ⟨hfin, hbound⟩ := F64.sub_one_of_uniform hua
    have hpg : F64.ge pg F64.zero = true := hg ▸ F64.ge_zero_add_of_ge_one (hlarge g List.mem_cons_self) hfin hbound
    have hother : ∀ i ∈ small ++ large, (if i = g then pg else p i) = p i := fun i hi =>
      if_neg (by rintro rfl; exact hgnot hi)
    have hsmall' : ∀ i ∈ small, Uniform (if i = g then pg else p i) := fun i hi => by
      rw [hother i (List.mem_append_left _ hi)]
      exact hsmall i (List.mem_cons_of_mem _ hi)
    have hlarge' : ∀ i ∈ large, F64.ge (if i = g then pg else p i) F64.one = true := fun i hi => by
      rw [hother i (List.mem_append_right _ hi)]
      exact hlarge i (List.mem_cons_of_mem _ hi)
    have hnext : ∀ i ∈ small ++ g :: large, F64.ge (prob i) F64.zero = true ∧ F64.ge F64.one (prob i) = true := by
      cases hlt : F64.lt pg F64.one
      · simp only [hlt, Bool.false_eq_true, if_false] at ih
        exact ih hrest hsmall' (List.forall_mem_cons.2 ⟨by rw [if_pos rfl]; exact (F64.uniform_or_ge_one hpg).2 hlt,
          hlarge'⟩)
      · simp only [hlt, if_true] at ih
        exact fun i hi => ih (List.nodup_middle.1 hrest)
          (List.forall_mem_cons.2 ⟨by rw [if_pos rfl]; exact (F64.uniform_or_ge_one hpg).1 hlt, hsmall'⟩) hlarge' i
          (List.perm_middle.mem_iff.1 hi)
    exact List.forall_mem_cons.2 ⟨hp ▸ F64.unit_of_uniform hua, hnext⟩

/-- Settles O33: every index starts on one of the two stacks, with a weight of at least 0.0 (`ge_zero_scaledWeight`),
and the pairing keeps that (`PairsTo.prob_unit`). -/
theorem buildProbInUnitInterval : Obligations.BuildProbInUnitInterval := by
  intro w hw hlen p hp
  obtain ⟨i, hi, rfl⟩ := List.mem_iff_getElem.1 hp
  have hin : i < w.length := (buildTables_lengths w).1 ▸ hi
  have hperm := List.filter_append_perm (fun i => F64.lt (scaledWeight w i) F64.one) (List.range w.length)
  have hge : ∀ k ∈ List.range w.length, F64.ge (scaledWeight w k) F64.zero = true := fun k hk =>
    ge_zero_scaledWeight hw (hlen.trans (by decide)) (List.mem_range.1 hk)
  have hsmall : ∀ k ∈ (List.range w.length).filter fun i => F64.lt (scaledWeight w i) F64.one,
      Uniform (scaledWeight w k) := fun k hk =>
    (F64.uniform_or_ge_one (hge k (List.mem_of_mem_filter hk))).1 (List.mem_filter.1 hk).2
  have hlarge : ∀ k ∈ (List.range w.length).filter fun i => !F64.lt (scaledWeight w i) F64.one,
      F64.ge (scaledWeight w k) F64.one = true := fun k hk =>
    (F64.uniform_or_ge_one (hge k (List.mem_of_mem_filter hk))).2 (Bool.not_eq_true' _ ▸ (List.mem_filter.1 hk).2)
  have hunit := (pairsTo_buildTables w).prob_unit (hperm.nodup_iff.2 List.nodup_range) hsmall hlarge i
    (hperm.mem_iff.2 (List.mem_range.2 hin))
  rwa [List.getD_eq_getElem _ _ hi] at hunit

end Sys2Proof.Machine
end

section
/-! SUPPORT for the selector's statements (R180 to R187): the pick-and-remove shuffle as a permutation of the indexes,
and the selection by draws. -/

namespace Sys2Proof.Machine

/-! ### The shuffle -/

theorem toNat_ofNat_of_lt {v : Nat} (h : v < 2 ^ 64) : (BitVec.ofNat 64 v).toNat = v := by
  rw [BitVec.toNat_ofNat, Nat.mod_eq_of_lt h]

section
variable {g : Prng} {n : Nat} {rem : List Nat} (hpos : 1 ≤ rem.length) (hmax : rem.length < 2 ^ 64)
include hpos hmax

theorem toNat_lastIndex : (BitVec.ofNat 64 (rem.length - 1)).toNat = rem.length - 1 :=
  toNat_ofNat_of_lt (by omega)

/-- One pick of R183 is one scaled draw; the range guard never fires (R136). -/
theorem shuffle_succ_of_drawOk (h : DrawOk (next g).1) : shuffle (n + 1) g rem =
    (shuffle n (next g).2 (rem.eraseIdx (drawScaled (next g).1 rem.length)) >>= fun order =>
      .ok (rem.getD (drawScaled (next g).1 rem.length) 0 :: order)) := by
  have hlast := toNat_lastIndex hpos hmax
  have hpick : nextInt g 0#64 (BitVec.ofNat 64 (rem.length - 1)) =
      .ok (BitVec.ofNat 64 (drawScaled (next g).1 rem.length), (next g).2) := by
    rw [nextInt_of_drawOk (by simp) (.inr (by omega)) h, BitVec.zero_add, hlast, BitVec.toNat_ofNat, Nat.zero_mod,
      Nat.sub_zero, Nat.sub_add_cancel hpos]
  have hvalue : (BitVec.ofNat 64 (drawScaled (next g).1 rem.length)).toNat = drawScaled (next g).1 rem.length :=
    toNat_ofNat_of_lt ((drawScaled_lt h hpos hmax.le).trans hmax)
  simp only [shuffle, hpick, ok_bind, hvalue, pure_eq_ok]

theorem shuffle_succ_of_not_drawOk (h : ¬ DrawOk (next g).1) : shuffle (n + 1) g rem = .error (.device .range) := by
  have hlast := toNat_lastIndex hpos hmax
  rw [shuffle, nextInt_of_not_drawOk (by simp) (.inr (by omega)) h, error_bind]

end

theorem length_eraseIdx_drawScaled {x : Word} {n : Nat} {rem : List Nat} (h : DrawOk x) (hlen : rem.length = n + 1)
    (hmax : n + 1 < 2 ^ 64) : (rem.eraseIdx (drawScaled x rem.length)).length = n := by
  rw [List.length_eraseIdx_of_lt (drawScaled_lt h (by omega) (by omega)), hlen, Nat.add_sub_cancel]

/-- The shuffle picks in the order its draws decide, the first of them draw `m` (R183). -/
theorem shuffle_of_drawOk {g : Prng} {m n k : Nat} {rem : List Nat} (hlen : rem.length = n) (hmax : n < 2 ^ 64)
    (h : ∀ j < n, DrawOk (nthDraw g (m + (k + j)))) :
    shuffle n (afterDraws g (m + k)) rem = .ok (pickOrder (fun k => nthDraw g (m + k)) n k rem) := by
  induction n generalizing k rem with
  | zero => rfl
  | succ n ih =>
    have hfirst : DrawOk (nthDraw g (m + k)) := h 0 n.succ_pos
    have hrest := ih (k := k + 1) (length_eraseIdx_drawScaled hfirst hlen hmax) (by omega)
      fun j hj => by rw [Nat.add_right_comm]; exact h (j + 1) (Nat.succ_lt_succ hj)
    rw [← Nat.add_assoc, afterDraws_succ'] at hrest
    rw [shuffle_succ_of_drawOk (by omega) (by omega) hfirst, pickOrder, ← nthDraw, hrest, ok_bind]

/-- The shuffle ends in E_RANGE once one of its draws does (R183). -/
theorem shuffle_of_not_drawOk {g : Prng} {n j : Nat} {rem : List Nat} (hlen : rem.length = n) (hmax : n < 2 ^ 64)
    (hj : j < n) (h : ¬ DrawOk (nthDraw g j)) : shuffle n g rem = .error (.device .range) := by
  induction n generalizing g j rem with
  | zero => omega
  | succ n ih =>
    by_cases hfirst : DrawOk (next g).1
    · cases j with
      | zero => exact absurd hfirst h
      | succ j =>
        rw [shuffle_succ_of_drawOk (by omega) (by omega) hfirst,
          ih (length_eraseIdx_drawScaled hfirst hlen hmax) (by omega) (Nat.lt_of_succ_lt_succ hj) h, error_bind]
    · exact shuffle_succ_of_not_drawOk (by omega) (by omega) hfirst

/-- Each pick removes the index it picks, so all of them are a permutation (R185). -/
theorem pickOrder_perm {x : Nat → Word} {n k : Nat} {rem : List Nat} (hlen : rem.length = n) (hmax : n < 2 ^ 64)
    (h : ∀ j < n, DrawOk (x (k + j))) : (pickOrder x n k rem).Perm rem := by
  induction n generalizing k rem with
  | zero => rw [List.length_eq_zero_iff.1 hlen, pickOrder]
  | succ n ih =>
    have hfirst : DrawOk (x k) := h 0 n.succ_pos
    have hlt := drawScaled_lt hfirst (m := rem.length) (by omega) (by omega)
    have hrest := ih (k := k + 1) (length_eraseIdx_drawScaled hfirst hlen hmax) (by omega)
      fun j hj => by rw [Nat.add_right_comm]; exact h (j + 1) (Nat.succ_lt_succ hj)
    rw [pickOrder, List.getD_eq_getElem _ _ hlt]
    exact (hrest.cons _).trans (List.getElem_cons_eraseIdx_perm hlt)

/-! ### The selection by draws -/

/-- The index that draws 0 and 1 of generator `g` sample from the harmonic tables (R155, R183). -/
def drawnIndex (g : Prng) (n : Nat) : Nat :=
  let t := buildTables (harmonicWeights n)
  let i := drawScaled (nthDraw g 0) n
  if F64.lt (drawDouble (nthDraw g 1)) (t.prob.getD i 0#64) then i else t.aliasOf.getD i 0

/-- The order of all `n` picks by generator `g`, from its draw 2 on (R183). -/
def drawnOrder (g : Prng) (n : Nat) : List Nat := pickOrder (fun k => nthDraw g (2 + k)) n 0 (List.range n)

theorem drawnIndex_lt {g : Prng} {n : Nat} (hpos : 1 ≤ n) (hmax : n < 2 ^ 64) (h : DrawOk (nthDraw g 0)) :
    drawnIndex g n < n := by
  have hbin := drawScaled_lt h hpos hmax.le
  have hweights : (harmonicWeights n).length = n := by simp [harmonicWeights]
  have hlen := (buildTables_lengths (harmonicWeights n)).2.trans hweights
  rw [drawnIndex]
  split_ifs
  · exact hbin
  · rw [List.getD_eq_getElem _ _ (hbin.trans_eq hlen.symm)]
    exact (buildTables_aliasOf_lt _ _ (List.getElem_mem _)).trans_eq hweights

theorem drawnOrder_perm {g : Prng} {n : Nat} (hmax : n < 2 ^ 64) (h : ∀ k < 2 + n, DrawOk (nthDraw g k)) :
    (drawnOrder g n).Perm (List.range n) :=
  pickOrder_perm List.length_range hmax fun j hj => h _ (by omega)

/-- A sample of the selector's own tables, from its bin (R155). -/
theorem sample_tables (t : Tables) {n i : Nat} {r1 : Word} (hi : scaleDouble r1 n = .ok i) (r2 : Word) :
    sample t.probAt t.aliasAt n r1 r2 =
      .ok (BitVec.ofNat 64 (if F64.lt r2 (t.prob.getD i 0#64) then i else t.aliasOf.getD i 0)) := by
  simp only [sample, hi, ok_bind, pure_eq_ok, Tables.probAt, Tables.aliasAt, F64.zero]
  split_ifs <;> rfl

theorem selectByDraws_eq (seqNum : Word32) (n : Nat) (checksum : Word32) : selectByDraws seqNum n checksum =
    (nextDouble (afterDraws (selectorSeed seqNum checksum) 0) >>= fun d1 => nextDouble d1.2 >>= fun d2 =>
      sample (buildTables (harmonicWeights n)).probAt (buildTables (harmonicWeights n)).aliasAt n d1.1 d2.1 >>= fun i =>
      shuffle n d2.2 (List.range n) >>= fun order => .ok ⟨order.take (i.toNat + 1), i.toNat + 1, false⟩) := rfl

/-- A selection from its parts, which are variables here so that the kernel has nothing to evaluate. -/
theorem selectByDraws_of_parts {seqNum checksum : Word32} {n i : Nat} {g g1 g2 : Prng} {r1 r2 : Word} {order : List Nat}
    (hg : selectorSeed seqNum checksum = g) (h1 : nextDouble (afterDraws g 0) = .ok (r1, g1))
    (h2 : nextDouble g1 = .ok (r2, g2)) (hi : i < 2 ^ 64)
    (hsample : sample (buildTables (harmonicWeights n)).probAt (buildTables (harmonicWeights n)).aliasAt n r1 r2 =
      .ok (BitVec.ofNat 64 i)) (horder : shuffle n g2 (List.range n) = .ok order) :
    selectByDraws seqNum n checksum = .ok ⟨order.take (i + 1), i + 1, false⟩ := by
  rw [selectByDraws_eq, hg, h1, ok_bind, h2, ok_bind, hsample, ok_bind, horder, ok_bind, toNat_ofNat_of_lt hi]

section
variable {seqNum checksum : Word32} {n : Nat} {g : Prng} (hg : selectorSeed seqNum checksum = g) (hpos : 1 ≤ n)
  (hmax : n < 2 ^ 64)
include hg hpos hmax

/-- The generator's path of R183: of all picks the first, as many as the degree. -/
theorem selectByDraws_of_drawOk (h : ∀ k < 2 + n, DrawOk (nthDraw g k)) : selectByDraws seqNum n checksum =
    .ok ⟨(drawnOrder g n).take (drawnIndex g n + 1), drawnIndex g n + 1, false⟩ := by
  have h0 : DrawOk (nthDraw g 0) := h 0 (by omega)
  have hsample := sample_tables (buildTables (harmonicWeights n)) (scaleDouble_drawDouble h0 hpos hmax.le)
    (drawDouble (nthDraw g 1))
  have horder : shuffle n (afterDraws g 2) (List.range n) = .ok (drawnOrder g n) :=
    shuffle_of_drawOk (m := 2) (k := 0) List.length_range hmax fun j hj => h _ (by omega)
  exact selectByDraws_of_parts hg (nextDouble_afterDraws_of_drawOk h0)
    (nextDouble_afterDraws_of_drawOk (h 1 (by omega))) ((drawnIndex_lt hpos hmax h0).trans hmax) hsample horder

/-- A draw of the selector's generator that maps to 1.0 is E_RANGE, that of a late pick too (R183). -/
theorem selectByDraws_of_not_drawOk {k : Nat} (hk : k < 2 + n) (h : ¬ DrawOk (nthDraw g k)) :
    selectByDraws seqNum n checksum = .error (.device .range) := by
  rw [selectByDraws_eq, hg]
  by_cases h0 : DrawOk (nthDraw g 0)
  · rw [nextDouble_afterDraws_of_drawOk h0, ok_bind]
    by_cases h1 : DrawOk (nthDraw g 1)
    · rw [nextDouble_afterDraws_of_drawOk h1, ok_bind, sample_tables _ (scaleDouble_drawDouble h0 hpos hmax.le),
        ok_bind]
      match k with
      | 0 => exact absurd h0 h
      | 1 => exact absurd h1 h
      | j + 2 =>
        have hj : ¬ DrawOk (nthDraw (afterDraws g 2) j) := h
        rw [shuffle_of_not_drawOk List.length_range hmax (by omega) hj, error_bind]
    · rw [nextDouble_of_not_drawOk h1, error_bind]
  · rw [nextDouble_of_not_drawOk h0, error_bind]

end

end Sys2Proof.Machine
end

section
/-! SUPPORT for the selector's statements (R184 to R186): the selection SELECT computes from its operands, and its
bitmap. -/

namespace Sys2Proof.Machine

/-! ### The bitmap of a set -/

theorem idxOfSet_singleton (k : Nat) : idxOfSet [k] = 2 ^ k := Nat.zero_or _

/-- The bits of a set's bitmap are its elements, each once (R184). -/
theorem filter_testBit_idxOfSet_perm {set : List Nat} {n : Nat} (hnodup : set.Nodup) (hlt : ∀ k ∈ set, k < n) :
    ((List.range n).filter (idxOfSet set).testBit).Perm set := by
  refine (List.perm_ext_iff_of_nodup (List.nodup_range.filter _) hnodup).2 fun k => ?_
  rw [List.mem_filter, List.mem_range, testBit_idxOfSet, decide_eq_true_eq]
  exact and_iff_right_of_imp (hlt k)

/-! ### The selection -/

theorem toNat_setWidth_of_lt {w : Word} (h : w.toNat < 2 ^ 32) : (w.setWidth 32).toNat = w.toNat := by
  rw [BitVec.toNat_setWidth, Nat.mod_eq_of_lt h]

section
variable {seqNum checksum : Word32} {n : Nat}

theorem selectFragmentIndexes_of_mem (h : 1 ≤ seqNum.toNat ∧ seqNum.toNat ≤ n) :
    selectFragmentIndexes seqNum n checksum = .ok ⟨[seqNum.toNat - 1], 1, true⟩ := if_pos h

theorem selectFragmentIndexes_of_not_mem (h : ¬ (1 ≤ seqNum.toNat ∧ seqNum.toNat ≤ n)) :
    selectFragmentIndexes seqNum n checksum = selectByDraws seqNum n checksum := if_neg h

/-- A selection that completes has no index twice, and as many as its degree, at least one (R185). -/
theorem selectFragmentIndexes_nodup (hpos : 1 ≤ n) (hmax : n < 2 ^ 64) {sel : Selection}
    (h : selectFragmentIndexes seqNum n checksum = .ok sel) :
    sel.set.Nodup ∧ sel.set.length = sel.degree ∧ 1 ≤ sel.degree := by
  by_cases hpure : 1 ≤ seqNum.toNat ∧ seqNum.toNat ≤ n
  · cases (selectFragmentIndexes_of_mem hpure).symm.trans h
    exact ⟨List.nodup_singleton _, rfl, le_rfl⟩
  · rw [selectFragmentIndexes_of_not_mem hpure] at h
    obtain ⟨g, hg⟩ : ∃ g, selectorSeed seqNum checksum = g := ⟨_, rfl⟩
    by_cases hdraws : ∀ k < 2 + n, DrawOk (nthDraw g k)
    · cases (selectByDraws_of_drawOk hg hpos hmax hdraws).symm.trans h
      have hperm := drawnOrder_perm hmax hdraws
      have hindex := drawnIndex_lt hpos hmax (hdraws 0 (by omega))
      refine ⟨(hperm.nodup_iff.2 List.nodup_range).sublist (List.take_sublist _ _), ?_, Nat.succ_pos _⟩
      rw [List.length_take_of_le (by rwa [hperm.length_eq, List.length_range])]
    · push Not at hdraws
      obtain ⟨k, hk, hdraw⟩ := hdraws
      cases (selectByDraws_of_not_drawOk hg hpos hmax hk (Nat.not_lt.2 hdraw)).symm.trans h

end

/-! ### The command -/

/-- The selection SELECT makes of its operands (R186). -/
def State.selection (s : State) : Except Stop Selection := do
  let seqNum ← operandU32 s.arg0
  let checksum ← operandU32 s.arg2
  let seqLen ← operandRange s.arg1 1 s.params.nMax
  selectFragmentIndexes seqNum seqLen checksum

section
variable {s : State} {sel : Selection}

theorem exec_select (s : State) :
    exec .select s = finish .select s (s.selection >>= fun sel => .ok (s.withSelection sel)) := by
  simp only [exec, execSelect, State.selection, bind_assoc, pure_eq_ok]

theorem selection_of_legal (h : SelectLegal s) :
    s.selection = selectFragmentIndexes (s.arg0.setWidth 32) s.arg1.toNat (s.arg2.setWidth 32) := by
  obtain ⟨h0, h2, hpos, hmax⟩ := h
  rw [State.selection, operandU32_eq_ok_iff.2 ⟨h0, rfl⟩, ok_bind, operandU32_eq_ok_iff.2 ⟨h2, rfl⟩, ok_bind,
    operandRange_of_mem hpos hmax, ok_bind]

theorem selection_of_not_legal (h : ¬ SelectLegal s) : s.selection = .error (.device .operand) := by
  rw [State.selection]
  by_cases h0 : s.arg0.toNat < 2 ^ 32
  · rw [operandU32_eq_ok_iff.2 ⟨h0, rfl⟩, ok_bind]
    by_cases h2 : s.arg2.toNat < 2 ^ 32
    · rw [operandU32_eq_ok_iff.2 ⟨h2, rfl⟩, ok_bind, operandRange_of_not_mem (by omega), error_bind]
    · rw [operandU32_eq_error_iff.2 ⟨Nat.not_lt.1 h2, rfl⟩, error_bind]
  · rw [operandU32_eq_error_iff.2 ⟨Nat.not_lt.1 h0, rfl⟩, error_bind]

theorem exec_select_of_ok (h : s.selection = .ok sel) : exec .select s =
    .next { s with
      idx := idxOfSet sel.set, res0 := BitVec.ofNat 64 sel.degree, res1 := if sel.fast then 1#64 else 0#64
      latch := none } := by
  rw [exec_select, h, ok_bind, finish_ok]
  rfl

theorem takesFault_select_of_error {code : FaultCode} (h : s.selection = .error (.device code)) :
    TakesFault .select s code.bits :=
  takesFault_of_error (exec_select s) (by rw [h, error_bind])

/-- The inversion of SELECT: its selection completes or is a device fault. -/
theorem exec_select_next {t : State} (h : exec .select s = .next t) :
    (∃ sel, s.selection = .ok sel ∧ t = (s.withSelection sel).complete) ∨
    ∃ code, s.selection = .error (.device code) ∧ t = faulted .select s code.bits := by
  rw [exec_select, finish_next_iff] at h
  rcases h with ⟨u, hu, ht⟩ | ⟨code, hcode, ht⟩
  · obtain ⟨sel, hsel, hu⟩ := bind_eq_ok_iff.1 hu
    cases hu
    exact .inl ⟨sel, hsel, ht⟩
  · rcases bind_eq_error_iff.1 hcode with hcode | ⟨_, -, hcode⟩
    · exact .inr ⟨code, hcode, ht⟩
    · cases hcode

end

/-! ### The statements -/

/-- Settles O36: an illegal operand ends the selection in E_OPERAND (`selection_of_not_legal`), and seqNum in
[1, seqLen] selects without a draw (`selectFragmentIndexes_of_mem`). -/
theorem selectPureFragment : Obligations.SelectPureFragment := by
  refine ⟨rfl, fun s h => takesFault_select_of_error (selection_of_not_legal h), fun s hlegal hpos hle => ?_⟩
  have hsel := selection_of_legal hlegal
  obtain ⟨h0, -⟩ := hlegal
  have hseq := toNat_setWidth_of_lt h0
  rw [selectFragmentIndexes_of_mem (hseq.symm ▸ ⟨hpos, hle⟩), hseq] at hsel
  rw [exec_select_of_ok hsel, idxOfSet_singleton]
  rfl

/-- Settles O37: a draw that maps to 1.0 ends the selection (`selectByDraws_of_not_drawOk`), and without one its set is
the first picks (`selectByDraws_of_drawOk`), bit by bit (`testBit_idxOfSet`). -/
theorem selectDrawsSet : Obligations.SelectDrawsSet := by
  intro s hlegal hnot n g t i d
  have hsel := selection_of_legal hlegal
  obtain ⟨h0, -, hpos, -⟩ := hlegal
  rw [← toNat_setWidth_of_lt h0] at hnot
  rw [selectFragmentIndexes_of_not_mem hnot] at hsel
  have hmax := s.arg1.isLt
  have hg : selectorSeed (s.arg0.setWidth 32) (s.arg2.setWidth 32) = g := rfl
  clear_value g
  refine ⟨fun ⟨k, hk, hdraw⟩ => ?_, fun hdraws => ?_⟩
  · exact takesFault_select_of_error (hsel.trans (selectByDraws_of_not_drawOk hg hpos hmax hk hdraw))
  · refine ⟨_, exec_select_of_ok (hsel.trans (selectByDraws_of_drawOk hg hpos hmax hdraws)), fun k => ?_⟩
    rw [testBit_idxOfSet, decide_eq_true_eq]
    rfl

/-- Settles O38: the selection has no index twice and all of them below seqLen (`selectFragmentIndexes_nodup`,
`selectFragmentIndexes_lt`), so the bits of its bitmap are as many as its degree. -/
theorem selectSetHasDegree : Obligations.SelectSetHasDegree := by
  intro s t _ _ hexec hfault
  rcases exec_select_next hexec with ⟨sel, hsel, rfl⟩ | ⟨code, -, rfl⟩
  · have hlegal : SelectLegal s := by
      by_contra h
      cases (selection_of_not_legal h).symm.trans hsel
    rw [selection_of_legal hlegal] at hsel
    obtain ⟨-, -, hpos, -⟩ := hlegal
    have hmax := s.arg1.isLt
    obtain ⟨hnodup, hlen, hdegree⟩ := selectFragmentIndexes_nodup hpos hmax hsel
    have hlt := selectFragmentIndexes_lt hpos hsel
    have hcount := (filter_testBit_idxOfSet_perm hnodup hlt).length_eq.trans hlen
    have hle : sel.degree ≤ s.arg1.toNat := hcount ▸ (List.length_filter_le _ _).trans_eq List.length_range
    have hres0 : (BitVec.ofNat 64 sel.degree).toNat = sel.degree := toNat_ofNat_of_lt (hle.trans_lt hmax)
    simp only [State.complete_res0, State.complete_idx, State.withSelection_res0, State.withSelection_idx, hres0]
    refine ⟨hdegree, hle, fun k hk => ?_, hcount, fun hone => ?_⟩
    · rw [testBit_idxOfSet] at hk
      exact hlt k (of_decide_eq_true hk)
    · have hdone : sel.degree = 1 := le_antisymm (hle.trans_eq hone) hdegree
      obtain ⟨k, hk⟩ := List.length_eq_one_iff.1 (hlen.trans hdone)
      have hzero : k = 0 := by
        have := hlt k (hk ▸ List.mem_singleton_self k)
        omega
      rw [hk, hzero, hdone, idxOfSet_singleton]
      exact ⟨rfl, rfl⟩
  · cases hfault

/-- Settles O39: the selection is a function of the operands and N_MAX, and its outcome decides how SELECT ends
(`exec_select_next`). -/
theorem selectIgnoresUserState : Obligations.SelectIgnoresUserState := by
  intro s s' t hnMax h0 h1 h2 hfault hfault' hexec
  have hselection : s'.selection = s.selection := by rw [State.selection, h0, h1, h2, hnMax, ← State.selection]
  rcases exec_select_next hexec with ⟨sel, hsel, rfl⟩ | ⟨code, hcode, rfl⟩
  · refine ⟨_, exec_select_of_ok (hselection.trans hsel), hfault'.trans hfault.symm, ?_, fun _ => ⟨rfl, rfl, rfl⟩, rfl,
      rfl, rfl, rfl, rfl⟩
    intro htrue
    cases hfault.symm.trans htrue
  · exact ⟨_, takesFault_select_of_error (hselection.trans hcode), rfl, fun _ => rfl, nofun, rfl, rfl, rfl, rfl, rfl⟩

end Sys2Proof.Machine
end

section
/-! SUPPORT for the mixer's statements (R202, R204): the exclusive or over a set of fragments, and the mix as a function
of the bytes it reads. -/

namespace Sys2Proof.Machine

/-! ### The exclusive or over a set -/

theorem xorSelected_succ (idx n : Nat) (f : Nat → Byte) :
    xorSelected idx (n + 1) f = xorSelected idx n f ^^^ if idx.testBit n then f n else 0x00#8 := by
  rw [xorSelected, List.range_succ, List.filter_append, List.foldl_append, ← xorSelected]
  by_cases h : idx.testBit n <;> simp [h]

/-- It is linear in the set: over the symmetric difference of two sets it is the exclusive or of both. -/
theorem xorSelected_xor (a b n : Nat) (f : Nat → Byte) :
    xorSelected (a ^^^ b) n f = xorSelected a n f ^^^ xorSelected b n f := by
  induction n with
  | zero => exact (BitVec.xor_self (x := 0x00#8)).symm
  | succ n ih =>
    have hbit : (if (a ^^^ b).testBit n then f n else 0x00#8) =
        (if a.testBit n then f n else 0x00#8) ^^^ if b.testBit n then f n else 0x00#8 := by
      rw [Nat.testBit_xor]
      cases a.testBit n <;> cases b.testBit n <;> simp
    rw [xorSelected_succ, xorSelected_succ, xorSelected_succ, ih, hbit]
    ac_rfl

theorem xorSelected_two_pow {k n : Nat} (hk : k < n) (f : Nat → Byte) : xorSelected (2 ^ k) n f = f k := by
  have hbelow : ∀ n, xorSelected (2 ^ k) n f = if k < n then f k else 0x00#8 := by
    intro n
    induction n with
    | zero => rfl
    | succ n ih =>
      rw [xorSelected_succ, Nat.testBit_two_pow, ih]
      rcases lt_trichotomy k n with h | rfl | h
      · simp [h, h.ne, Nat.lt_succ_of_lt h]
      · simp
      · simp [h.ne', h.not_gt, show ¬ k < n + 1 by omega]
  rw [hbelow, if_pos hk]

/-- The union of disjoint sets is their symmetric difference. -/
theorem or_eq_xor_of_disjoint {a b : Nat} (h : a &&& b = 0) : a ||| b = a ^^^ b := by
  refine Nat.eq_of_testBit_eq fun i => ?_
  have hbit : (a.testBit i && b.testBit i) = false := by rw [← Nat.testBit_and, h, Nat.zero_testBit]
  rw [Nat.testBit_or, Nat.testBit_xor]
  cases ha : a.testBit i <;> simp_all

/-! ### The mix of the bytes read -/

/-- The mix of fragments whose bytes are `f k j` (R202). -/
def mixOf (idx flen fcount : Nat) (f : Nat → Nat → Byte) : List Byte :=
  (List.range flen).map fun j => xorSelected idx fcount fun k => f k j

/-- Every byte `j` of every selected fragment `k` is written, and reads as `f k j`. -/
def FragmentsRead (m : List Host.Cell) (idx flen fcount : Nat) (f : Nat → Nat → Byte) : Prop :=
  ∀ k < fcount, idx.testBit k = true → ∀ j < flen, readByteCell m .frag (k * flen + j) = .ok (f k j)

/-- Byte `j` of fragment `k` as memory holds it, 0x00 where it was never written. -/
def fragByte (m : List Host.Cell) (flen k j : Nat) : Byte :=
  (Memory.readByte m (Ram.frag.addr (k * flen + j))).getD 0x00#8

section
variable {m : List Host.Cell} {idx flen fcount : Nat} {f : Nat → Nat → Byte} {o : List Byte}

theorem mixOf_length (idx flen fcount : Nat) (f : Nat → Nat → Byte) : (mixOf idx flen fcount f).length = flen := by
  rw [mixOf, List.length_map, List.length_range]

theorem mixOf_getElem {j : Nat} (hj : j < (mixOf idx flen fcount f).length) :
    (mixOf idx flen fcount f)[j] = xorSelected idx fcount fun k => f k j := by
  simp only [mixOf, List.getElem_map, List.getElem_range]

/-- Mixes combine byte by byte as the sets do. -/
theorem zipWith_xor_mixOf (a b flen fcount : Nat) (f : Nat → Nat → Byte) :
    List.zipWith (· ^^^ ·) (mixOf a flen fcount f) (mixOf b flen fcount f) = mixOf (a ^^^ b) flen fcount f := by
  simp only [mixOf, List.zipWith_map, List.zipWith_self, xorSelected_xor]

theorem mixFragments_of_read (h : FragmentsRead m idx flen fcount f) :
    mixFragments m idx flen fcount = .ok (mixOf idx flen fcount f) := by
  refine (mixBytes_eq_ok_iff _ _ _ _ _ _ _).2 ⟨mixOf_length .., fun j hj => ?_⟩
  have hflen : j < flen := by rwa [mixOf_length] at hj
  have hread : ∀ i, 0 ≤ i → i < 0 + fcount → idx.testBit i = true → readByteCell m .frag (i * flen + j) = .ok (f i j) :=
    fun i _ hi hbit => h i (by rwa [Nat.zero_add] at hi) hbit j hflen
  rw [Nat.zero_add, mixByte_eq_ok m idx flen j (fun i => f i j) fcount 0 _ hread, mixOf_getElem, xorSelected,
    List.range_eq_range']

/-- A byte of the mix that completes has read that byte of every selected fragment. -/
theorem readByteCell_of_mixByte {j n k : Nat} {acc b : Byte} (h : mixByte m idx flen j n k acc = .ok b) {i : Nat}
    (hle : k ≤ i) (hlt : i < k + n) (hbit : idx.testBit i = true) :
    readByteCell m .frag (i * flen + j) = .ok (fragByte m flen i j) := by
  induction n generalizing k acc with
  | zero => omega
  | succ n ih =>
    rw [mixByte] at h
    rcases hle.eq_or_lt with rfl | hnext
    · rw [if_pos hbit] at h
      obtain ⟨v, hv, -⟩ := bind_eq_ok_iff.1 h
      rw [hv, fragByte, (readByteCell_eq_ok_iff _ _ _ _).1 hv, Option.getD_some]
    · split_ifs at h
      · obtain ⟨_, -, h⟩ := bind_eq_ok_iff.1 h
        exact ih h hnext (by omega)
      · exact ih h hnext (by omega)

theorem fragmentsRead_of_mixFragments (h : mixFragments m idx flen fcount = .ok o) :
    FragmentsRead m idx flen fcount (fragByte m flen) := by
  intro k hk hbit j hj
  obtain ⟨hlen, hbytes⟩ := (mixBytes_eq_ok_iff _ _ _ _ _ _ _).1 h
  have hbyte := hbytes j (hlen.symm ▸ hj)
  rw [Nat.zero_add] at hbyte
  exact readByteCell_of_mixByte hbyte k.zero_le (by omega) hbit

/-- The mix completes exactly when every byte of every selected fragment is written, and is then the mix of these. -/
theorem mixFragments_eq_ok_iff : mixFragments m idx flen fcount = .ok o ↔
    FragmentsRead m idx flen fcount (fragByte m flen) ∧ o = mixOf idx flen fcount (fragByte m flen) := by
  constructor
  · intro h
    have hread := fragmentsRead_of_mixFragments h
    exact ⟨hread, Except.ok.inj (h.symm.trans (mixFragments_of_read hread))⟩
  · rintro ⟨hread, rfl⟩
    exact mixFragments_of_read hread

theorem FragmentsRead.or {a b : Nat} (ha : FragmentsRead m a flen fcount f) (hb : FragmentsRead m b flen fcount f) :
    FragmentsRead m (a ||| b) flen fcount f := by
  intro k hk hbit j hj
  rw [Nat.testBit_or, Bool.or_eq_true] at hbit
  rcases hbit with hbit | hbit
  · exact ha k hk hbit j hj
  · exact hb k hk hbit j hj

end

/-- Settles O41: a mix that completes is `mixOf` of the bytes memory holds (`mixFragments_eq_ok_iff`), and that is linear
in the set (`zipWith_xor_mixOf`); a set and the set less `k` differ by `{k}`. -/
theorem mixIsSelfInverse : Obligations.MixIsSelfInverse := by
  refine ⟨fun m a b flen fcount oa ob hdisjoint ha hb => ?_, fun m a k flen fcount o o' hk hbit ho ho' => ?_⟩
  · obtain ⟨hreadA, rfl⟩ := mixFragments_eq_ok_iff.1 ha
    obtain ⟨hreadB, rfl⟩ := mixFragments_eq_ok_iff.1 hb
    rw [mixFragments_of_read (hreadA.or hreadB), zipWith_xor_mixOf, or_eq_xor_of_disjoint hdisjoint]
  · obtain ⟨hread, rfl⟩ := mixFragments_eq_ok_iff.1 ho
    obtain ⟨-, rfl⟩ := mixFragments_eq_ok_iff.1 ho'
    rw [zipWith_xor_mixOf, Nat.xor_xor_cancel_left]
    refine (readByteCells_eq_ok_iff _ _ _ _ _).2 ⟨mixOf_length .., fun j hj => ?_⟩
    rw [mixOf_getElem, xorSelected_two_pow hk]
    exact hread k hk hbit j (by rwa [mixOf_length] at hj)

end Sys2Proof.Machine
end

section
/-! SUPPORT for the mixer's statements (R201, R205 to R207): how MIX and PART end, given their operand checks, the
selection and the mix. -/

namespace Sys2Proof.Machine

/-! ### The operand checks -/

section
variable {s : State}

theorem operandFragments_of_legal (h : FragmentsLegal s) : operandFragments s = .ok (s.flen.toNat, s.fcount.toNat) := by
  obtain ⟨hflen, hfcount, hbytes⟩ := h
  exact operandFragments_eq_ok_iff.2 ⟨hflen, hfcount, hbytes, rfl, rfl⟩

theorem operandFragments_of_not_legal (h : ¬ FragmentsLegal s) : operandFragments s = .error (.device .operand) := by
  cases hcheck : operandFragments s with
  | ok sizes =>
    obtain ⟨hflen, hfcount, hbytes, -⟩ := operandFragments_eq_ok_iff.1 hcheck
    exact absurd ⟨hflen, hfcount, hbytes⟩ h
  | error e => rw [operandFragments_error hcheck]

theorem operandIndexSet_of_lt {n : Nat} (h : s.idx < 2 ^ n) : operandIndexSet s n = .ok () :=
  operandIndexSet_eq_ok_iff.2 h

theorem operandIndexSet_of_testBit {n k : Nat} (hk : n ≤ k) (hbit : s.idx.testBit k = true) :
    operandIndexSet s n = .error (.device .operand) := by
  have hge : ¬ s.idx < 2 ^ n := fun hlt =>
    absurd hbit (by simp [Nat.testBit_lt_two_pow (hlt.trans_le (Nat.pow_le_pow_right two_pos hk))])
  cases hcheck : operandIndexSet s n with
  | ok u => exact absurd (operandIndexSet_eq_ok_iff.1 hcheck) hge
  | error e => rw [(require_eq_error_iff.1 hcheck).2]

end

/-! ### The mix -/

section
variable {m : List Host.Cell} {idx flen fcount : Nat}

/-- The mix ends early only in UninitRead, on a byte of a selected fragment. -/
theorem mixFragments_error {e : Stop} (h : mixFragments m idx flen fcount = .error e) :
    ∃ k j, idx.testBit k = true ∧ j < flen ∧ Memory.readByte m (Ram.frag.addr (k * flen + j)) = none ∧
      e = .uninit .frag (k * flen + j) := by
  obtain ⟨k, j, -, hbit, -, hj, he, hnone⟩ := mixBytes_error h
  exact ⟨k, j, hbit, by rwa [Nat.zero_add] at hj, hnone, he⟩

/-- A mix over an unwritten byte does not complete. -/
theorem mixFragments_of_unwritten {k j : Nat} (hk : k < fcount) (hbit : idx.testBit k = true) (hj : j < flen)
    (hnone : Memory.readByte m (Ram.frag.addr (k * flen + j)) = none) :
    ∃ k' j', idx.testBit k' = true ∧ j' < flen ∧ Memory.readByte m (Ram.frag.addr (k' * flen + j')) = none ∧
      mixFragments m idx flen fcount = .error (.uninit .frag (k' * flen + j')) := by
  cases hmix : mixFragments m idx flen fcount with
  | ok o =>
    have hread := fragmentsRead_of_mixFragments hmix k hk hbit j hj
    rw [readByteCell_of_none hnone] at hread
    cases hread
  | error e =>
    obtain ⟨k', j', hbit', hj', hnone', rfl⟩ := mixFragments_error hmix
    exact ⟨k', j', hbit', hj', hnone', rfl⟩

/-- A mix written to OUT reads back, and nothing else changes. -/
theorem writeOut_mixOf (m : List Host.Cell) (idx flen fcount : Nat) (f : Nat → Nat → Byte) :
    (∀ j < flen, readByteCell (writeByteCells m .out 0 (mixOf idx flen fcount f)) .out j =
      .ok (xorSelected idx fcount fun k => f k j)) ∧
    SameOutside m (writeByteCells m .out 0 (mixOf idx flen fcount f)) 0x07000000 flen := by
  have hframe := sameOutside_writeOut m (mixOf idx flen fcount f)
  rw [mixOf_length] at hframe
  refine ⟨fun j hj => ?_, hframe⟩
  rw [readByteCell_writeByteCells_inside m rfl _ (by rwa [mixOf_length]), mixOf_getElem]

end

theorem idxCount_eq_length_filter (idx fcount : Nat) :
    idxCount idx fcount = ((List.range fcount).filter idx.testBit).length := List.countP_eq_length_filter

/-! ### MIX -/

section
variable {s : State}

theorem takesFault_mix_of_not_legal (h : ¬ FragmentsLegal s) : TakesFault .mix s 0x04#8 :=
  takesFault_of_error (code := .operand) rfl (by rw [operandFragments_of_not_legal h, error_bind])

theorem takesFault_mix_of_testBit {k : Nat} (h : FragmentsLegal s) (hk : s.fcount.toNat ≤ k)
    (hbit : s.idx.testBit k = true) : TakesFault .mix s 0x04#8 :=
  takesFault_of_error (code := .operand) rfl
    (by simp only [operandFragments_of_legal h, ok_bind, operandIndexSet_of_testBit hk hbit, error_bind])

section
variable (hlegal : FragmentsLegal s) (hidx : s.idx < 2 ^ s.fcount.toNat)
include hlegal hidx

/-- Past its checks MIX ends as its mix does. -/
theorem exec_mix_of_legal :
    exec .mix s = finish .mix s (mixFragments s.mem s.idx s.flen.toNat s.fcount.toNat >>= fun o => .ok { s with
      mem := writeByteCells s.mem .out 0 o, res0 := BitVec.ofNat 64 (idxCount s.idx s.fcount.toNat) }) := by
  simp only [exec, execMix, operandFragments_of_legal hlegal, ok_bind, operandIndexSet_of_lt hidx, pure_eq_ok]

theorem exec_mix_of_ok {o : List Byte} (h : mixFragments s.mem s.idx s.flen.toNat s.fcount.toNat = .ok o) :
    exec .mix s = .next { s with
      mem := writeByteCells s.mem .out 0 o, latch := none
      res0 := BitVec.ofNat 64 ((List.range s.fcount.toNat).filter s.idx.testBit).length } := by
  rw [exec_mix_of_legal hlegal hidx, h, idxCount_eq_length_filter]
  rfl

theorem exec_mix_of_uninit {r : Ram} {i : Nat}
    (h : mixFragments s.mem s.idx s.flen.toNat s.fcount.toNat = .error (.uninit r i)) :
    exec .mix s = .fault (.uninitRead r i) := by
  rw [exec_mix_of_legal hlegal hidx, h]
  rfl

end

end

/-- Settles O40: past the checks of R201, MIX ends as `mixFragments` does, which completes with `mixOf` of the bytes
read (`mixFragments_of_read`) or stops on an unwritten one (`mixFragments_of_unwritten`). -/
theorem mixXorsSelectedFragments : Obligations.MixXorsSelectedFragments := by
  refine ⟨rfl, fun s h => ?_, fun s f hlegal hidx hread => ?_, fun s k j hlegal hidx hk hbit hj hnone => ?_⟩
  · by_cases hlegal : FragmentsLegal s
    · obtain ⟨k, hk, hbit⟩ := h.resolve_left (not_not_intro hlegal)
      exact takesFault_mix_of_testBit hlegal hk hbit
    · exact takesFault_mix_of_not_legal hlegal
  · exact ⟨_, exec_mix_of_ok hlegal (Nat.lt_pow_two_of_testBit _ hidx) (mixFragments_of_read hread),
      writeOut_mixOf _ _ _ _ f⟩
  · obtain ⟨k', j', hbit', hj', hnone', hmix⟩ := mixFragments_of_unwritten hk hbit hj hnone
    exact ⟨k', j', hbit', hj', hnone', exec_mix_of_uninit hlegal (Nat.lt_pow_two_of_testBit _ hidx) hmix⟩

/-! ### PART -/

/-- The selection PART makes of its operands: SELECT's, with FCOUNT for the length (R206, R207). -/
def State.partSelection (s : State) : Except Stop Selection := State.selection { s with arg1 := s.fcount }

section
variable {s : State} {sel : Selection}

theorem takesFault_part_of_not_legal (h : 2 ^ 32 ≤ s.arg0.toNat ∨ 2 ^ 32 ≤ s.arg2.toNat ∨ ¬ FragmentsLegal s) :
    TakesFault .part s 0x04#8 := by
  refine takesFault_of_error (code := .operand) rfl ?_
  by_cases h0 : s.arg0.toNat < 2 ^ 32
  · rw [operandU32_eq_ok_iff.2 ⟨h0, rfl⟩, ok_bind]
    by_cases h2 : s.arg2.toNat < 2 ^ 32
    · have hfrag : ¬ FragmentsLegal s := (h.resolve_left h0.not_ge).resolve_left h2.not_ge
      rw [operandU32_eq_ok_iff.2 ⟨h2, rfl⟩, ok_bind, operandFragments_of_not_legal hfrag, error_bind]
    · rw [operandU32_eq_error_iff.2 ⟨Nat.not_lt.1 h2, rfl⟩, error_bind]
  · rw [operandU32_eq_error_iff.2 ⟨Nat.not_lt.1 h0, rfl⟩, error_bind]

/-- With legal fragments PART is its selection, then the mix of the set selected. -/
theorem exec_part_of_legal (h : FragmentsLegal s) :
    exec .part s = finish .part s (s.partSelection >>= fun sel =>
      mixFragments s.mem (idxOfSet sel.set) s.flen.toNat s.fcount.toNat >>= fun o =>
        .ok { s.withSelection sel with mem := writeByteCells s.mem .out 0 o }) := by
  obtain ⟨-, ⟨hpos, hmax⟩, -⟩ := id h
  rw [exec, execPart, State.partSelection, State.selection, operandRange_of_mem hpos hmax,
    operandFragments_of_legal h]
  simp only [bind_assoc, ok_bind, pure_eq_ok]

theorem takesFault_part_of_error {code : FaultCode} (h : FragmentsLegal s)
    (hsel : s.partSelection = .error (.device code)) : TakesFault .part s code.bits :=
  takesFault_of_error (exec_part_of_legal h) (by rw [hsel, error_bind])

theorem exec_part_of_ok {o : List Byte} (h : FragmentsLegal s) (hsel : s.partSelection = .ok sel)
    (hmix : mixFragments s.mem (idxOfSet sel.set) s.flen.toNat s.fcount.toNat = .ok o) :
    exec .part s = .next { s with
      mem := writeByteCells s.mem .out 0 o, idx := idxOfSet sel.set, res0 := BitVec.ofNat 64 sel.degree
      res1 := if sel.fast then 1#64 else 0#64, latch := none } := by
  rw [exec_part_of_legal h, hsel, ok_bind, hmix]
  rfl

theorem exec_part_of_uninit {r : Ram} {i : Nat} (h : FragmentsLegal s) (hsel : s.partSelection = .ok sel)
    (hmix : mixFragments s.mem (idxOfSet sel.set) s.flen.toNat s.fcount.toNat = .error (.uninit r i)) :
    exec .part s = .fault (.uninitRead r i) := by
  rw [exec_part_of_legal h, hsel, ok_bind, hmix]
  rfl

/-- PART's operands past its checks are legal operands of SELECT. -/
theorem partSelection_of_legal (h0 : s.arg0.toNat < 2 ^ 32) (h2 : s.arg2.toNat < 2 ^ 32) (h : FragmentsLegal s) :
    s.partSelection = selectFragmentIndexes (s.arg0.setWidth 32) s.fcount.toNat (s.arg2.setWidth 32) := by
  obtain ⟨-, ⟨hpos, hmax⟩, -⟩ := h
  exact selection_of_legal (s := { s with arg1 := s.fcount }) ⟨h0, h2, hpos, hmax⟩

/-- The set PART selects lies below FCOUNT, and its bitmap has as many bits as its degree (R185). -/
theorem partSelection_bitmap (hsel : s.partSelection = .ok sel) :
    idxOfSet sel.set < 2 ^ s.fcount.toNat ∧
    ((List.range s.fcount.toNat).filter (idxOfSet sel.set).testBit).length = sel.degree := by
  have hlegal : SelectLegal { s with arg1 := s.fcount } := by
    by_contra h
    cases (selection_of_not_legal h).symm.trans hsel
  have hindexes := (selection_of_legal hlegal).symm.trans hsel
  obtain ⟨-, -, hpos, -⟩ := hlegal
  have hlt := selectFragmentIndexes_lt hpos hindexes
  obtain ⟨hnodup, hlen, -⟩ := selectFragmentIndexes_nodup hpos s.fcount.isLt hindexes
  exact ⟨idxOfSet_lt _ _ hlt, (filter_testBit_idxOfSet_perm hnodup hlt).length_eq.trans hlen⟩

end

/-- Settles O42: seqNum in [1, FCOUNT] selects its fragment alone (`selectFragmentIndexes_of_mem`), and the mix of one
fragment is the fragment (`xorSelected_two_pow`). -/
theorem partPureFragment : Obligations.PartPureFragment := by
  refine ⟨rfl, fun s h => takesFault_part_of_not_legal h, fun s f h0 h2 hlegal hpos hle hread => ?_⟩
  have hsel := partSelection_of_legal h0 h2 hlegal
  have hseq := toNat_setWidth_of_lt h0
  rw [selectFragmentIndexes_of_mem (hseq.symm ▸ ⟨hpos, hle⟩), hseq] at hsel
  have hfragment : FragmentsRead s.mem (idxOfSet [s.arg0.toNat - 1]) s.flen.toNat s.fcount.toNat fun _ => f := by
    intro k _ hbit j hj
    rw [testBit_idxOfSet, decide_eq_true_eq, List.mem_singleton] at hbit
    exact hbit ▸ hread j hj
  have hpart := exec_part_of_ok hlegal hsel (mixFragments_of_read hfragment)
  simp only [idxOfSet_singleton] at hpart
  obtain ⟨hout, hframe⟩ := writeOut_mixOf s.mem (2 ^ (s.arg0.toNat - 1)) s.flen.toNat s.fcount.toNat fun _ => f
  exact ⟨_, hpart, fun j hj => (hout j hj).trans (congrArg _ (xorSelected_two_pow (by omega) _)), hframe⟩

/-- Settles O43: SELECT makes the selection of PART and leaves its bitmap, which passes MIX's checks
(`partSelection_bitmap`); both commands then end as the one mix does. -/
theorem partIsSelectThenMix : Obligations.PartIsSelectThenMix := by
  intro s t1 _ hlegal hfault hselect
  rcases exec_select_next hselect with ⟨sel, hsel, rfl⟩ | ⟨code, hcode, rfl⟩
  · refine ⟨fun htrue => ?_, fun _ => ?_⟩
    · cases hfault.symm.trans htrue
    · obtain ⟨hidx, hcount⟩ := partSelection_bitmap hsel
      cases hmix : mixFragments s.mem (idxOfSet sel.set) s.flen.toNat s.fcount.toNat with
      | ok o =>
        have hmixed := exec_mix_of_ok
          (s := (State.withSelection { s with arg1 := s.fcount } sel).complete) hlegal hidx hmix
        have hpart := exec_part_of_ok hlegal hsel hmix
        refine ⟨fun t2 ht2 => ?_, fun f hf => ?_⟩
        · cases hmixed.symm.trans ht2
          rw [hpart, ← hcount]
          rfl
        · cases hmixed.symm.trans hf
      | error e =>
        obtain ⟨k, j, -, -, -, rfl⟩ := mixFragments_error hmix
        have hmixed := exec_mix_of_uninit
          (s := (State.withSelection { s with arg1 := s.fcount } sel).complete) hlegal hidx hmix
        refine ⟨fun t2 ht2 => ?_, fun f hf => ?_⟩
        · cases hmixed.symm.trans ht2
        · cases hmixed.symm.trans hf
          exact exec_part_of_uninit hlegal hsel hmix
  · exact ⟨fun _ => takesFault_part_of_error hlegal hcode, nofun⟩

end Sys2Proof.Machine
end

section
/-! SUPPORT for NOP's statement (R220): the turn at a word that does not decode (R91, R231). -/

namespace Sys2Proof.Machine

/-- The device's turn at a full latch and FAULT = 0 takes E_ILLEGAL when the latched word does not decode (R91, R231). -/
theorem deviceTurn_of_decode_error {s : State} {c : Word} {e : DecodeError} (hfault : s.fault = false)
    (hlatch : s.latch = some c) (hc : decode c = .error e) :
    deviceTurn s = .next (s.commandFault .illegal (opcField c)) := by
  simp [deviceTurn, State.pendingCommand, hfault, hlatch, hc]

/-- A word with a reserved bit set does not decode (R91). -/
theorem decode_of_rsvField_ne {c : Word} (h : rsvField c ≠ 0#56) : decode c = .error .reservedBits := if_pos h

/-- NOP has no check and computes nothing, so it completes in the state it began in. -/
theorem exec_nop (s : State) : exec .nop s = .next s.complete := finish_ok .nop s s

/-- Settles O19: NOP completes at once (`exec_nop`), and 0x100 has the reserved bit 8 set, so the turn at it takes
E_ILLEGAL (`deviceTurn_of_decode_error`). -/
theorem nopOnlyClearsBusy : Obligations.NopOnlyClearsBusy := by
  refine ⟨rfl, exec_nop, fun s hinputs hfault hlatch => ?_⟩
  have hdecode : decode 0x0000000000000100#64 = .error .reservedBits := decode_of_rsvField_ne (by decide)
  rw [step_of_inputs_nil hinputs, deviceTurn_of_decode_error hfault hlatch hdecode]
  rfl

end Sys2Proof.Machine
end

section
/-! SUPPORT for the statements on faults (R230 to R242): fault entry after an access as `accessFaulted` spells it out
and the words that do not decode. -/

namespace Sys2Proof.Machine

/-! ### Faults of host accesses -/

/-- The fault entry of an access, whose OPC is 0, is the state `accessFaulted` spells out (R38, R241). -/
theorem faultEntry_eq_accessFaulted (s : State) (code : FaultCode) (addr : Addr) (write : Bool) :
    s.faultEntry code addr write 0#8 = accessFaulted s code.bits addr write := by
  have hinfo : faultInfoWord addr write 0#8 =
      addr.setWidth 64 ||| (if write then 0x0000000100000000#64 else 0#64) := by
    cases write <;> simp [faultInfoWord, bitAt]
  rw [State.faultEntry, hinfo]

/-- An access illegal by R62 and R65 reaches nothing. -/
theorem legalTarget_eq_none {p : Params} (hp : p.Legal) {addr : Addr} {width : Nat} {write : Bool}
    (h : ¬ accessLegal p addr.toNat width write) : legalTarget p addr width write = none :=
  Option.eq_none_iff_forall_ne_some.2 fun _ htarget =>
    h ((accessLegal_iff hp).2 ⟨_, legalTarget_eq_some_iff.1 htarget⟩)

section
variable {s : State} (hfault : s.fault = false)
include hfault

/-- A read that reaches nothing on an idle device is E_BUS and gives 0 (R236). -/
theorem hostRead_of_no_legalTarget {addr : Addr} {width : Nat} (hlatch : s.latch = none)
    (h : legalTarget s.params addr width false = none) :
    hostRead s addr width = .next { accessFaulted s 0x06#8 addr false with readData := 0#64 } := by
  simp only [hostRead, hfault, (State.busy_eq_false_iff s).2 hlatch, h, faultEntry_eq_accessFaulted]
  rfl

/-- A write that reaches nothing on an idle device is E_BUS (R236). -/
theorem hostWrite_of_no_legalTarget {addr : Addr} {width : Nat} (hlatch : s.latch = none)
    (h : legalTarget s.params addr width true = none) (v : Word) :
    hostWrite s addr width v = accessFaulted s 0x06#8 addr true := by
  simp only [hostWrite, hfault, (State.busy_eq_false_iff s).2 hlatch, h, faultEntry_eq_accessFaulted]
  rfl

/-- A busy device answers a 64-bit read of STATUS (R70). -/
theorem hostRead_status_of_busy (hbusy : s.busy = true) :
    hostRead s 0x00000010#32 8 = .next { s with readData := s.statusWord } := by
  simp [hostRead, hfault, hbusy, State.respond]

/-- Any other read of a busy device is E_BUSY and gives 0 (R237). -/
theorem hostRead_of_busy (hbusy : s.busy = true) {addr : Addr} {width : Nat}
    (h : addr ≠ 0x00000010#32 ∨ width ≠ 8) :
    hostRead s addr width = .next { accessFaulted s 0x07#8 addr false with readData := 0#64 } := by
  have hstatus : ¬ (addr = 0x00000010#32 ∧ width = 8) := by tauto
  simp only [hostRead, hfault, hbusy, hstatus, faultEntry_eq_accessFaulted]
  rfl

/-- Every write to a busy device is E_BUSY (R237). -/
theorem hostWrite_of_busy (hbusy : s.busy = true) (addr : Addr) (width : Nat) (v : Word) :
    hostWrite s addr width v = accessFaulted s 0x07#8 addr true := by
  simp only [hostWrite, hfault, hbusy, faultEntry_eq_accessFaulted]
  rfl

end

/-- Settles O49: an illegal access has no target (`legalTarget_eq_none`), and one without a target takes E_BUS. -/
theorem illegalAccessTakesBusFault : Obligations.IllegalAccessTakesBusFault := fun _ _ _ hp hfault hlatch =>
  ⟨fun hillegal => hostRead_of_no_legalTarget hfault hlatch (legalTarget_eq_none hp hillegal),
    fun v hillegal => hostWrite_of_no_legalTarget hfault hlatch (legalTarget_eq_none hp hillegal) v⟩

/-- Settles O50: BUSY is the fullness of the latch, and a busy device answers the STATUS read alone. -/
theorem busyAccessTakesBusyFault : Obligations.BusyAccessTakesBusyFault := by
  intro s c hfault hlatch
  have hbusy : s.busy = true := (State.busy_eq_true_iff s).2 ⟨c, hlatch⟩
  exact ⟨hostRead_status_of_busy hfault hbusy, fun _ _ => hostRead_of_busy hfault hbusy, hostWrite_of_busy hfault hbusy⟩

/-! ### Words that do not decode -/

/-- With the device's turn next, or the schedule used up, a step is that turn on the rest of the schedule (R271,
R272). -/
theorem step_of_turn {s : State} {rest : List Event}
    (h : s.inputs = [] ∧ rest = [] ∨ s.inputs = .deviceTurn :: rest) : step s = deviceTurn (s.withInputs rest) := by
  rcases h with ⟨hinputs, rfl⟩ | hinputs
  · rw [step_of_inputs_nil hinputs, State.withInputs, ← hinputs]
  · exact step_of_inputs_deviceTurn hinputs

/-- The values of OPC that R95 calls reserved. -/
abbrev ReservedOpc (opc : Byte) : Prop :=
  opc ∈ [0x05#8, 0x06#8, 0x07#8, 0x0F#8] ∨ (0x13#8 ≤ opc ∧ opc ≤ 0x17#8) ∨ (0x19#8 ≤ opc ∧ opc ≤ 0x1F#8) ∨ 0x22#8 ≤ opc

/-- No command has a reserved OPC (R94, R95). -/
theorem not_reservedOpc_opcodeOf (i : Instr) : ¬ ReservedOpc (opcodeOf i) := by cases i <;> decide

/-- A word with a reserved bit set or a reserved OPC does not decode: one that does has RSV zero and its command's OPC
(R91). -/
theorem exists_decode_error {c : Word} (h : rsvField c ≠ 0#56 ∨ ReservedOpc (opcField c)) :
    ∃ e, decode c = .error e := by
  cases hdecode : decode c with
  | error e => exact ⟨e, rfl⟩
  | ok i =>
    obtain ⟨hrsv, hopc⟩ := fields_of_decode hdecode
    rcases h with hbit | hreserved
    · exact absurd hrsv hbit
    · exact absurd (hopc ▸ hreserved) (not_reservedOpc_opcodeOf i)

/-- Settles O3: the word does not decode (`exists_decode_error`), so the turn at it takes E_ILLEGAL
(`deviceTurn_of_decode_error`). -/
theorem illegalWordTakesFault : Obligations.IllegalWordTakesFault := by
  intro s c rest hturn hfault hlatch hillegal
  obtain ⟨e, hdecode⟩ := exists_decode_error hillegal
  rw [step_of_turn hturn, deviceTurn_of_decode_error (s := s.withInputs rest) hfault hlatch hdecode]
  rfl

end Sys2Proof.Machine
end

section
/-! SUPPORT for the statements on the faults of commands (R230, R232, R240): the codes a command's computation can end
in. -/

namespace Sys2Proof.Machine

/-- The commands that R230 names under E_UNSEEDED: those that draw from S or jump it. -/
abbrev drawingCommands : List Instr :=
  [.prngNext, .prngNextDouble, .prngNextInt, .prngNextByte, .prngNextBytes, .prngJump, .prngLongJump, .aliasSampleRng]

/-- A computation can raise E_NOTABLE, E_OPERAND and E_RANGE, and E_UNSEEDED where it `draws` (R230). -/
abbrev MayRaise (draws : Prop) (code : FaultCode) : Prop :=
  code ∈ [FaultCode.noTable, .operand, .range] ∨ draws ∧ code = .unseeded

/-- The device faults that the computation ends in are those it may raise. -/
def Raises {α : Type} (draws : Prop) (x : Except Stop α) : Prop :=
  ∀ code, x = .error (.device code) → MayRaise draws code

namespace Raises

section
variable {α β : Type} {draws : Prop}

theorem ok (a : α) : Raises draws (.ok a) := fun _ h => nomatch h

theorem device {code : FaultCode} (h : MayRaise draws code) : Raises (α := α) draws (.error (.device code)) := by
  intro _ hcode
  cases hcode
  exact h

theorem operandError : Raises (α := α) draws (.error (.device .operand)) := device (.inl (by decide))

theorem rangeError : Raises (α := α) draws (.error (.device .range)) := device (.inl (by decide))

/-- A computation that ends early only in UninitRead raises no device fault. -/
theorem of_uninit {x : Except Stop α} (h : ∀ e, x = .error e → ∃ r i, e = .uninit r i) : Raises draws x := by
  intro code hcode
  obtain ⟨r, i, he⟩ := h _ hcode
  cases he

/-- A sequence raises what its first part and the rest raise. -/
theorem bind {x : Except Stop α} {f : α → Except Stop β} (hx : Raises draws x) (hf : ∀ a, Raises draws (f a)) :
    Raises draws (x >>= f) := by
  intro code h
  rcases bind_eq_error_iff.1 h with h | ⟨a, -, h⟩
  · exact hx code (by rw [h])
  · exact hf a code h

theorem ite {c : Prop} [Decidable c] {x y : Except Stop α} (hx : Raises draws x) (hy : Raises draws y) :
    Raises draws (if c then x else y) := by
  split_ifs
  · exact hx
  · exact hy

/-! ### Checks and operands -/

theorem requireSeeded (h : draws) (s : State) : Raises draws (requireSeeded s) := ite (ok ()) (device (.inr ⟨h, rfl⟩))

theorem requireTable (s : State) : Raises draws (requireTable s) := ite (ok ()) (device (.inl (by decide)))

theorem requireOperand (b : Bool) : Raises draws (require b .operand) := ite (ok ()) operandError

theorem operandU32 (w : Word) : Raises draws (operandU32 w) := ite (ok _) operandError

theorem operandRange (w : Word) (lo hi : Nat) : Raises draws (operandRange w lo hi) := ite operandError (ok _)

theorem operandFragments (s : State) : Raises draws (operandFragments s) :=
  bind (operandRange _ _ _) fun _ => bind (operandRange _ _ _) fun _ => bind (requireOperand _) fun _ => ok _

theorem checkWeights (w : List Word) : Raises draws (checkWeights w) :=
  bind (requireOperand _) fun _ => requireOperand _

/-! ### Draws -/

theorem nextDouble (g : Prng) : Raises draws (nextDouble g) := bind (ite rangeError (ok _)) fun _ => ok _

theorem scaleDouble (d : Word) (n : Nat) : Raises draws (scaleDouble d n) := ite rangeError (ok _)

theorem nextInt (g : Prng) (low high : Word) : Raises draws (nextInt g low high) :=
  bind (requireOperand _) fun _ => bind (nextDouble _) fun _ => bind (scaleDouble _ _) fun _ => ok _

theorem nextByte (g : Prng) : Raises draws (nextByte g) := bind (nextInt _ _ _) fun _ => ok _

theorem nextBytes (g : Prng) (n : Nat) : Raises draws (nextBytes g n) := by
  induction n generalizing g with
  | zero => exact ok _
  | succ n ih => exact bind (nextByte g) fun _ => bind (ih _) fun _ => ok _

theorem sample {probAt aliasAt : Nat → Except Stop Word} (hprob : ∀ i, Raises draws (probAt i))
    (halias : ∀ i, Raises draws (aliasAt i)) (n : Nat) (r1 r2 : Word) : Raises draws (sample probAt aliasAt n r1 r2) :=
  bind (scaleDouble _ _) fun _ => bind (hprob _) fun _ => ite (ok _) (halias _)

theorem shuffle (n : Nat) (g : Prng) (rem : List Nat) : Raises draws (shuffle n g rem) := by
  induction n generalizing g rem with
  | zero => exact ok _
  | succ n ih => exact bind (nextInt _ _ _) fun _ => bind (ih _ _) fun _ => ok _

theorem selectFragmentIndexes (seqNum : Word32) (seqLen : Nat) (checksum : Word32) :
    Raises draws (selectFragmentIndexes seqNum seqLen checksum) :=
  ite (ok _) <| bind (nextDouble _) fun _ => bind (nextDouble _) fun _ =>
    bind (sample (fun _ => ok _) (fun _ => ok _) _ _ _) fun _ => bind (shuffle _ _ _) fun _ => ok _

/-! ### Reads of memory -/

theorem readWordCell (m : List Host.Cell) (r : Ram) (i : Nat) : Raises draws (readWordCell m r i) :=
  of_uninit fun _ h => ⟨_, _, (readWordCell_error h).1⟩

theorem readByteCells (m : List Host.Cell) (r : Ram) (i n : Nat) : Raises draws (readByteCells m r i n) :=
  of_uninit fun _ h =>
    have ⟨_, _, he, _⟩ := readByteCells_error h
    ⟨_, _, he⟩

theorem readWordCells (m : List Host.Cell) (r : Ram) (i n : Nat) : Raises draws (readWordCells m r i n) :=
  of_uninit fun _ h =>
    have ⟨_, _, he, _⟩ := readWordCells_error h
    ⟨_, _, he⟩

theorem mixFragments (m : List Host.Cell) (idx flen fcount : Nat) : Raises draws (mixFragments m idx flen fcount) :=
  of_uninit fun _ h =>
    have ⟨_, _, _, _, _, he⟩ := mixFragments_error h
    ⟨_, _, he⟩

theorem sampleUser (s : State) (r1 r2 : Word) : Raises draws (sampleUser s r1 r2) :=
  sample (readWordCell _ _) (readWordCell _ _) _ _ _

end

end Raises

/-! ### How a command's computation ends -/

/-- A command's computation in state `s`: an answer keeps FAULT, and a device fault is one it may raise. -/
structure Ends (draws : Prop) (s : State) (r : Except Stop State) : Prop where
  fault_eq : ∀ u, r = .ok u → u.fault = s.fault
  raises : Raises draws r

section
variable {draws : Prop} {s : State}

theorem Ends.ok {u : State} (h : u.fault = s.fault) : Ends draws s (.ok u) :=
  ⟨fun v hv => by cases hv; exact h, .ok u⟩

theorem Ends.bind {α : Type} {x : Except Stop α} {f : α → Except Stop State} (hx : Raises draws x)
    (hf : ∀ a, Ends draws s (f a)) : Ends draws s (x >>= f) where
  fault_eq u hu := by
    obtain ⟨a, -, ha⟩ := bind_eq_ok_iff.1 hu
    exact (hf a).fault_eq u ha
  raises := .bind hx fun a => (hf a).raises

/-- A command that sets FAULT took fault entry, with a code its computation may raise. -/
theorem exists_faulted_of_finish {i : Instr} {t : State} {r : Except Stop State} (hs : s.fault = false)
    (ht : t.fault = true) (h : finish i s r = .next t) (hr : Ends draws s r) :
    ∃ code, MayRaise draws code ∧ t = faulted i s code.bits := by
  rcases finish_next_iff.1 h with ⟨u, hu, rfl⟩ | ⟨code, hcode, rfl⟩
  · rw [State.complete_fault, hr.fault_eq u hu, hs] at ht
    cases ht
  · exact ⟨code, hr.raises code hcode, commandFault_eq_faulted i s code⟩

/-- Stated for a variable `t`, so that the kernel has no table to build. -/
theorem State.withTables_fault (s : State) (t : Tables) : (s.withTables t).fault = s.fault := rfl

/-- The inversion of a command that faults: each is a sequence of checks, draws and reads, of which only the check of
SEEDED raises E_UNSEEDED, and only the commands that draw from S make it (R232). -/
theorem exec_faulted {i : Instr} {t : State} (hs : s.fault = false) (ht : t.fault = true) (h : exec i s = .next t) :
    ∃ code, MayRaise (i ∈ drawingCommands) code ∧ t = faulted i s code.bits := by
  cases i
  case nop => exact exists_faulted_of_finish (r := .ok s) hs ht h <| .ok rfl
  case prngSeedWords =>
    exact exists_faulted_of_finish (r := .ok (s.seedWith _)) hs ht h <| .ok (State.seedWith_fault s _)
  case prngSeedBytes32 | prngSeedHash =>
    exact exists_faulted_of_finish hs ht h <| .bind (.operandRange _ _ _) fun _ =>
      .bind (.readByteCells _ _ _ _) fun _ => .ok (State.seedWith_fault s _)
  case prngSeedU32 =>
    exact exists_faulted_of_finish hs ht h <| .bind (.operandU32 _) fun _ => .ok (State.seedWith_fault s _)
  case prngNext | prngJump | prngLongJump =>
    exact exists_faulted_of_finish hs ht h <| .bind (.requireSeeded (by decide) _) fun _ => .ok rfl
  case prngNextDouble =>
    exact exists_faulted_of_finish hs ht h <| .bind (.requireSeeded (by decide) _) fun _ =>
      .bind (.nextDouble _) fun _ => .ok rfl
  case prngNextInt =>
    exact exists_faulted_of_finish hs ht h <| .bind (.requireSeeded (by decide) _) fun _ =>
      .bind (.nextInt _ _ _) fun _ => .ok rfl
  case prngNextByte =>
    exact exists_faulted_of_finish hs ht h <| .bind (.requireSeeded (by decide) _) fun _ =>
      .bind (.nextByte _) fun _ => .ok rfl
  case prngNextBytes =>
    exact exists_faulted_of_finish hs ht h <| .bind (.requireSeeded (by decide) _) fun _ =>
      .bind (.operandRange _ _ _) fun _ => .bind (.nextBytes _ _) fun _ => .ok rfl
  case aliasBuild =>
    exact exists_faulted_of_finish hs ht h <| .bind (.operandRange _ _ _) fun _ =>
      .bind (.readWordCells _ _ _ _) fun _ => .bind (.checkWeights _) fun _ => .ok (State.withTables_fault s _)
  case aliasSample =>
    exact exists_faulted_of_finish hs ht h <| .bind (.requireTable _) fun _ => .bind (.requireOperand _) fun _ =>
      .bind (.sampleUser s _ _) fun _ => .ok rfl
  case aliasSampleRng =>
    exact exists_faulted_of_finish hs ht h <| .bind (.requireTable _) fun _ =>
      .bind (.requireSeeded (by decide) _) fun _ => .bind (.nextDouble _) fun _ => .bind (.nextDouble _) fun _ =>
      .bind (.sampleUser s _ _) fun _ => .ok rfl
  case select =>
    exact exists_faulted_of_finish hs ht h <| .bind (.operandU32 _) fun _ => .bind (.operandU32 _) fun _ =>
      .bind (.operandRange _ _ _) fun _ => .bind (.selectFragmentIndexes _ _ _) fun _ =>
      .ok (State.withSelection_fault s _)
  case mix =>
    exact exists_faulted_of_finish hs ht h <| .bind (.operandFragments s) fun _ => .bind (.requireOperand _) fun _ =>
      .bind (.mixFragments _ _ _ _) fun _ => .ok rfl
  case part =>
    exact exists_faulted_of_finish hs ht h <| .bind (.operandU32 _) fun _ => .bind (.operandU32 _) fun _ =>
      .bind (.operandFragments s) fun _ => .bind (.selectFragmentIndexes _ _ _) fun _ =>
      .bind (.mixFragments _ _ _ _) fun _ => .ok rfl

end

/-! ### The statements -/

/-- The codes a command raises lie between E_UNSEEDED and E_RANGE (R230). -/
theorem MayRaise.bits_range {draws : Prop} {code : FaultCode} (h : MayRaise draws code) :
    0x02#8 ≤ code.bits ∧ code.bits ≤ 0x05#8 := by
  cases code
  case illegal | bus | busy => exact absurd h (by simp [MayRaise])
  all_goals decide

/-- A computation that does not draw does not raise E_UNSEEDED (R232). -/
theorem MayRaise.bits_ne_unseeded {draws : Prop} {code : FaultCode} (h : MayRaise draws code) (hdraws : ¬ draws) :
    code.bits ≠ 0x02#8 := by
  cases code
  case unseeded => exact absurd h (by simp [MayRaise, hdraws])
  all_goals decide

/-- Settles O44: a command that faults took fault entry in the state before it (`exec_faulted`). -/
theorem commandFaultsArePrecise : Obligations.CommandFaultsArePrecise := by
  intro i s t hs h ht
  obtain ⟨code, hraise, rfl⟩ := exec_faulted hs ht h
  obtain ⟨hlo, hhi⟩ := hraise.bits_range
  exact ⟨code.bits, hlo, hhi, rfl⟩

/-- Settles O30: the eight commands check SEEDED first, ALIAS_SAMPLE_RNG after ALIAS_VALID, and the others never do
(`exec_faulted`). -/
theorem unseededRaisedByDrawsOnly : Obligations.UnseededRaisedByDrawsOnly := by
  refine ⟨fun i hi s h hvalid => ?_, fun i hi s t hs h ht => ?_⟩
  · obtain ⟨-, -, hsampleRng, -⟩ := aliasSampleRngTakesTwoDraws
    cases i
    case prngNext => exact takesFault_of_unseeded (exec_prngNext s) h
    case prngNextDouble => exact takesFault_of_unseeded (exec_prngNextDouble s) h
    case prngNextInt => exact takesFault_of_unseeded (exec_prngNextInt s) h
    case prngNextByte => exact takesFault_of_unseeded (exec_prngNextByte s) h
    case prngNextBytes => exact takesFault_of_unseeded (exec_prngNextBytes s) h
    case prngJump => exact takesFault_of_unseeded (exec_prngJump s) h
    case prngLongJump => exact takesFault_of_unseeded (exec_prngLongJump s) h
    case aliasSampleRng => exact hsampleRng s (hvalid rfl) h
    all_goals exact absurd hi (by decide)
  · obtain ⟨code, hraise, rfl⟩ := exec_faulted hs ht h
    exact hraise.bits_ne_unseeded hi

end Sys2Proof.Machine
end

section
/-! SUPPORT for the statements on the events of a run (R270 to R274): the step at each event, and that the device does
not look at the schedule or at the last value read. -/

namespace Sys2Proof.Machine

/-! ### The step at an event -/

/-- A step performs the next event of the schedule on the rest of it (R271). -/
theorem step_of_inputs_cons {s : State} {e : Event} {rest : List Event} (h : s.inputs = e :: rest) :
    step s = performEvent e (s.withInputs rest) := by
  rw [step, h]

theorem deviceTurn_of_latch_none {s : State} (hlatch : s.latch = none) : deviceTurn s = .next s := by
  simp [deviceTurn, State.pendingCommand, hlatch]

/-- Settles O6: a step with an event left performs it (`step_of_inputs_cons`), and a turn needs a latched command and
FAULT = 0. -/
theorem stepFollowsSchedule : Obligations.StepFollowsSchedule :=
  ⟨fun _ _ _ _ h => step_of_inputs_cons h, fun _ _ _ _ _ h => step_of_inputs_cons h,
    fun _ _ h => step_of_inputs_cons h, fun _ _ h => step_of_inputs_cons h, fun _ _ h => step_of_inputs_cons h,
    fun _ h => step_of_inputs_nil h, fun _ h => h.elim deviceTurn_of_latch_none deviceTurn_of_fault⟩

/-- A row of the opcode table names a command only when its value decodes to it. -/
theorem decode_of_decodeTableWord {nbits w : Nat} {i : Instr} (h : decodeTableWord nbits w = some i) :
    decode (BitVec.ofNat 64 (w % 2 ^ nbits)) = .ok i := by
  simp only [decodeTableWord] at h
  split_ifs at h
  cases hdecode : decode (BitVec.ofNat 64 (w % 2 ^ nbits)) with
  | error e => rw [hdecode] at h; cases h
  | ok j => rw [hdecode] at h; cases h; rfl

/-- Settles O5: `withFetchWord` puts the device's turn next, and the turn performs the decoded word
(`deviceTurn_of_latch`). -/
theorem fetchWordRuns : Obligations.FetchWordRuns := by
  intro s nbits w i h
  rw [step_of_inputs_deviceTurn (s.withFetchWord_inputs nbits w)]
  exact deviceTurn_of_latch (s := (s.withFetchWord nbits w).withInputs s.inputs) rfl rfl (decode_of_decodeTableWord h)

/-! ### The surroundings' fields -/

/-- The device as it is, in surroundings with schedule `l` and last value read `v`. -/
def State.withSurroundings (l : List Event) (v : Word) (s : State) : State := { s with inputs := l, readData := v }

/-- The outcome with `f` applied to the next state, when there is one. -/
def mapNext (f : State → State) : Host.Outcome State Fault Refusal → Host.Outcome State Fault Refusal
  | .next t => .next (f t)
  | .fault r => .fault r
  | .refused r => .refused r

section
variable {l : List Event} {v : Word}

/-- Computation `r'` ends as `r` does, but in the surroundings given. -/
def SameIn (l : List Event) (v : Word) (r r' : Except Stop State) : Prop := r' = r.map (State.withSurroundings l v)

theorem SameIn.ok {u : State} : SameIn l v (.ok u) (.ok (u.withSurroundings l v)) := rfl

/-- Stated for a variable `g`, so that no jump has to be evaluated. -/
theorem SameIn.withPrng (s : State) (g : Prng) :
    SameIn l v (.ok { s with prng := g }) (.ok { s.withSurroundings l v with prng := g }) := rfl

theorem SameIn.bind {α : Type} {x : Except Stop α} {f f' : α → Except Stop State}
    (h : ∀ a, SameIn l v (f a) (f' a)) : SameIn l v (x >>= f) (x >>= f') := by
  cases x with
  | error e => rfl
  | ok a => exact h a

/-- A command ends in the surroundings it began in when its computation does. -/
theorem SameIn.finish {i : Instr} {s : State} {r r' : Except Stop State} (h : SameIn l v r r') :
    finish i (s.withSurroundings l v) r' = mapNext (State.withSurroundings l v) (finish i s r) := by
  rw [h]
  rcases r with (code | ⟨ram, k⟩) | u <;> rfl

/-- A command does the same in any surroundings: its checks, draws and reads are of the device's state, and it answers
that state with fields of the device changed. The cases go by the number of those checks, draws and reads. -/
theorem exec_withSurroundings (i : Instr) (s : State) :
    exec i (s.withSurroundings l v) = mapNext (State.withSurroundings l v) (exec i s) := by
  cases i
  case nop | prngSeedWords => rfl
  case prngSeedU32 | prngNext => exact SameIn.finish <| .bind fun _ => .ok
  case prngJump | prngLongJump => exact SameIn.finish <| .bind fun _ => .withPrng s _
  case prngSeedBytes32 | prngSeedHash | prngNextDouble | prngNextInt | prngNextByte =>
    exact SameIn.finish <| .bind fun _ => .bind fun _ => .ok
  case prngNextBytes | aliasBuild | aliasSample | mix =>
    exact SameIn.finish <| .bind fun _ => .bind fun _ => .bind fun _ => .ok
  case select => exact SameIn.finish <| .bind fun _ => .bind fun _ => .bind fun _ => .bind fun _ => .ok
  case aliasSampleRng | part =>
    exact SameIn.finish <| .bind fun _ => .bind fun _ => .bind fun _ => .bind fun _ => .bind fun _ => .ok

/-- A turn of the device is the same in any surroundings (R270). -/
theorem deviceTurn_withSurroundings (s : State) :
    deviceTurn (s.withSurroundings l v) = mapNext (State.withSurroundings l v) (deviceTurn s) := by
  have hpending : (s.withSurroundings l v).pendingCommand = s.pendingCommand := rfl
  rw [deviceTurn, deviceTurn, hpending]
  split
  · rfl
  · split
    · exact exec_withSurroundings _ s
    · rfl

end

/-- A turn of the device leaves the surroundings' fields as they are, for it may as well be taken in those of `s`. -/
theorem deviceTurn_surroundings {s t : State} (h : deviceTurn s = .next t) :
    t = t.withSurroundings s.inputs s.readData := by
  have hturn := deviceTurn_withSurroundings (l := s.inputs) (v := s.readData) s
  rw [h] at hturn
  exact Host.Outcome.next.inj (h.symm.trans hturn)

/-- Settles O9: `exec_withSurroundings`, when the command answers a next state. -/
theorem commandsIgnoreSchedule : Obligations.CommandsIgnoreSchedule := by
  intro i s t l v h
  exact (exec_withSurroundings i s).trans (congrArg (mapNext _) h)

/-! ### Polling -/

/-- A 64-bit read of STATUS is answered whatever BUSY and FAULT are (R66, R70). -/
theorem hostRead_status (s : State) : hostRead s 0x00000010#32 8 = .next { s with readData := s.statusWord } := by
  by_cases hidle : s.fault = true ∨ s.latch = none
  · exact hostRead_of_readTarget (target := .reg .status) hidle rfl rfl
  · obtain ⟨hfault, hlatch⟩ := not_or.1 hidle
    exact hostRead_status_of_busy (Bool.eq_false_iff.2 hfault)
      ((State.busy_eq_true_iff s).2 (Option.ne_none_iff_exists'.1 hlatch))

/-- A step at a poll of STATUS gives its value to the host, and nothing else happens. -/
theorem step_of_inputs_poll {s : State} {rest : List Event} (h : s.inputs = .busRead 0x00000010#32 8 :: rest) :
    step s = .next (s.withSurroundings rest s.statusWord) :=
  (step_of_inputs_cons h).trans (hostRead_status (s.withInputs rest))

/-- Two steps that go on are a run of two. -/
theorem run_two_of_steps {s t u : State} (hfirst : step s = .next t) (hsecond : step t = .next u) :
    Sys2Proof.core.run 2 s = .next u := by
  have hcore : Sys2Proof.core.step = step := rfl
  simp only [Host.Core.run, hcore, hfirst, hsecond]

/-- Settles O10: a poll only gives the host STATUS (`step_of_inputs_poll`), and the turn is the same whatever was polled
before it (`deviceTurn_withSurroundings`). -/
theorem pollingOrderIrrelevant : Obligations.PollingOrderIrrelevant := by
  intro s t c rest _ _ hstep
  have hturn : deviceTurn (s.withInputs rest) = .next t := by rwa [step_of_inputs_deviceTurn rfl] at hstep
  have hstepIn : ∀ l v, step { s with inputs := .deviceTurn :: l, readData := v } = .next (t.withSurroundings l v) := by
    intro l v
    rw [step_of_inputs_deviceTurn rfl]
    exact (deviceTurn_withSurroundings (s.withInputs rest)).trans (congrArg (mapNext _) hturn)
  have hrest : t.inputs = rest := congrArg State.inputs (deviceTurn_surroundings hturn)
  refine ⟨_, _, run_two_of_steps (step_of_inputs_poll rfl) (hstepIn rest _),
    run_two_of_steps (hstepIn _ _) (step_of_inputs_poll rfl), rfl, ?_⟩
  rw [← hrest]
  rfl

end Sys2Proof.Machine
end
